-- ==== Sys2Proof/Word.lean ====
section
/-! DEFINITION. The value types of the DCBB: every value is an unsigned integer of a stated width
(00_scope.md R6), a ring slot is a byte (10_state.md R22), a register, an operand and a response are at
most 32 bits wide (10_state.md R29, R32). -/

namespace Sys2Proof

/-- Eight bits: a ring slot, an 8-bit device register, FAULT_CAUSE. -/
abbrev Byte := BitVec 8

/-- Thirty-two bits: CMD, OPND, RESULT, FAULT_INFO, a 32-bit device register. -/
abbrev Word := BitVec 32

/-- A store: cells in one canonical form, addresses strictly rising and no cell holding what an
unlisted address reads as (its operations and that form are in Machine/Memory.lean). -/
abbrev Memory := List Host.Cell

end Sys2Proof
end

