-- ==== Sys2Proof/Syntax.lean ====
section
/-! DEFINITION. The commands of the APP port as syntax: one constructor of `Instr` for each row of
spec/opcode_table.json, with the operand the command takes from OPND already in it (30_encoding.md R72,
R75). -/

namespace Sys2Proof

/-- Which of the two buffers: the field SEL of a command (30_encoding.md R73). -/
inductive Sel where
  | tx   -- SEL = 0, `ring[TX]`
  | rx   -- SEL = 1, `ring[RX]`
  deriving DecidableEq, Repr

/-- The seven device registers, the field REG of a command (30_encoding.md R74, 10_state.md R32).
REG = 7 names no register and is not here. -/
inductive Reg where
  | uartCtrl   -- 0, 32 bits
  | uartStat   -- 1, 32 bits
  | uartTxd    -- 2, 8 bits
  | uartRxd    -- 3, 8 bits
  | intMask    -- 4, 8 bits
  | intStat    -- 5, 8 bits
  | intAck     -- 6, 8 bits
  deriving DecidableEq, Repr

/-- The seven commands (30_encoding.md R72). A value or mask operand is held in 32 bits; for an 8-bit
register only its low byte counts (R75). -/
inductive Instr where
  | init
  | push (sel : Sel) (b : Byte)
  | pop (sel : Sel)
  | rread (r : Reg)
  | rwrite (r : Reg) (v : Word)
  | ror (r : Reg) (m : Word)
  | randc (r : Reg) (m : Word)
  deriving DecidableEq, Repr

end Sys2Proof
end

