-- ==== Sys2Proof/Machine/Operands.lean ====
section
/-! DEFINITION. Operand forms: the width of each device register, what a command takes from OPND, and the
widening and narrowing of values on the bus (30_encoding.md R75, 20_memory.md R53). -/

namespace Sys2Proof

/-- The width of a device register in bits (10_state.md R32). -/
def Reg.width : Reg → Nat
  | .uartCtrl => 32
  | .uartStat => 32
  | .uartTxd => 8
  | .uartRxd => 8
  | .intMask => 8
  | .intStat => 8
  | .intAck => 8

/-- The width of a device register in bytes, which its address must be a multiple of (20_memory.md R55). -/
def Reg.bytes (r : Reg) : Nat := r.width / 8

/-- All seven registers in the order of their index. -/
def Reg.all : List Reg :=
  [.uartCtrl, .uartStat, .uartTxd, .uartRxd, .intMask, .intStat, .intAck]

namespace Machine

/-- `zext_32` of a byte (00_scope.md R6). -/
def zext32 (b : Byte) : Word := b.setWidth 32

/-- `trunc_8` of a word (00_scope.md R6). -/
def lowByte (v : Word) : Byte := v.setWidth 8

/-- `zext_32(trunc_W(v))`, W the width of `r`: what an access to `r` keeps of a 32-bit value
(20_memory.md R53). -/
def truncTo (r : Reg) (v : Word) : Word :=
  if r.width = 8 then zext32 (lowByte v) else v

/-- The byte PUSH takes from OPND: `OPND[7:0]` (30_encoding.md R75). -/
def byteOperand (opnd : Word) : Byte := lowByte opnd

/-- The value RWRITE, ROR and RANDC take from OPND: `OPND[W-1:0]` (30_encoding.md R75). -/
def regOperand (r : Reg) (opnd : Word) : Word := truncTo r opnd

end Machine

end Sys2Proof
end

