-- ==== Sys2Proof/WellFormed.lean ====
section
/-! DEFINITION. Which terms of `Instr` are commands of the block: a value operand for an 8-bit register
fits in 8 bits, because the command takes OPND[7:0] alone and the assembler refuses a larger value
(30_encoding.md R75, R87). -/

namespace Sys2Proof

/-- Does the value fit the register's width? -/
def Reg.fits (r : Reg) (v : Word) : Bool := v.toNat < 2 ^ r.width

/-- The well-formed commands. -/
def Instr.wellFormed : Instr → Bool
  | .init => true
  | .push _ _ => true
  | .pop _ => true
  | .rread _ => true
  | .rwrite r v => r.fits v
  | .ror r m => r.fits m
  | .randc r m => r.fits m

end Sys2Proof
end

