-- ==== Sys2Proof/Decode.lean ====
section
/-! DEFINITION. From the pair (CMD, OPND) to a command or the name of what is illegal about CMD, and back
(30_encoding.md R70 to R77, R80, R86). Decoding is total, reads no state, and its verdict reads no bit of
OPND. -/

namespace Sys2Proof

/-- Why a command word is no command, in the order decoding finds it (30_encoding.md R77, R81, R82,
R84). -/
inductive Illegal where
  | illegalOpcode
  | reservedField
  | illegalReg
  deriving DecidableEq, Repr

/-- The field OP, bits 31:28 (30_encoding.md R71). -/
def cmdOp (cmd : Word) : BitVec 4 := cmd.extractLsb' 28 4

/-- The field REG, bits 26:24 (30_encoding.md R71). -/
def cmdReg (cmd : Word) : BitVec 3 := cmd.extractLsb' 24 3

/-- The field SEL, bit 16 (30_encoding.md R71). -/
def cmdSel (cmd : Word) : BitVec 1 := cmd.extractLsb' 16 1

/-- Are all bits that must be 0 in INIT 0: bits 27:0 (30_encoding.md R76, R77)? -/
def initFieldsClear (cmd : Word) : Bool := cmd.extractLsb' 0 28 == 0

/-- Are all bits that must be 0 in PUSH and POP 0: bits 27:17 and 15:0 (30_encoding.md R76, R77)? -/
def ringFieldsClear (cmd : Word) : Bool :=
  cmd.extractLsb' 17 11 == 0 && cmd.extractLsb' 0 16 == 0

/-- Are all bits that must be 0 in a register command 0: bits 27 and 23:0 (30_encoding.md R76, R77)? -/
def regFieldsClear (cmd : Word) : Bool :=
  cmd.extractLsb' 27 1 == 0 && cmd.extractLsb' 0 24 == 0

/-- The buffer a value of SEL names (30_encoding.md R73). -/
def Sel.ofField (f : BitVec 1) : Sel := if f = 0 then .tx else .rx

/-- The value of SEL that names a buffer (30_encoding.md R73). -/
def Sel.field : Sel → Nat
  | .tx => 0
  | .rx => 1

/-- The register a value of REG names; 7 names none (30_encoding.md R74, R84). -/
def Reg.ofField (f : BitVec 3) : Option Reg := Reg.all[f.toNat]?

/-- The value of REG that names a register (30_encoding.md R74). -/
def Reg.field : Reg → Nat
  | .uartCtrl => 0
  | .uartStat => 1
  | .uartTxd => 2
  | .uartRxd => 3
  | .intMask => 4
  | .intStat => 5
  | .intAck => 6

/-- Decoding, check by check in the order of 30_encoding.md R77. The operand a command takes from OPND is
that of R75; no other bit of OPND is looked at. -/
def decode (cmd opnd : Word) : Except Illegal Instr :=
  let op := cmdOp cmd
  if op = 0 ∨ 8 ≤ op then .error .illegalOpcode
  else if op = 1 then
    if initFieldsClear cmd then .ok .init else .error .reservedField
  else if op = 2 then
    if ringFieldsClear cmd then .ok (.push (.ofField (cmdSel cmd)) (Machine.byteOperand opnd))
    else .error .reservedField
  else if op = 3 then
    if ringFieldsClear cmd then .ok (.pop (.ofField (cmdSel cmd))) else .error .reservedField
  else if regFieldsClear cmd then
    match Reg.ofField (cmdReg cmd) with
    | none => .error .illegalReg
    | some r =>
      if op = 4 then .ok (.rread r)
      else if op = 5 then .ok (.rwrite r (Machine.regOperand r opnd))
      else if op = 6 then .ok (.ror r (Machine.regOperand r opnd))
      else .ok (.randc r (Machine.regOperand r opnd))
  else .error .reservedField

/-- A command word from its fields, every reserved field 0 (30_encoding.md R71). -/
def fieldsWord (op reg sel : Nat) : Word :=
  BitVec.ofNat 32 (op * 2 ^ 28 + reg * 2 ^ 24 + sel * 2 ^ 16)

/-- The command word CMD of a command (30_encoding.md R80, R86). -/
def cmdWord : Instr → Word
  | .init => fieldsWord 1 0 0
  | .push sel _ => fieldsWord 2 0 sel.field
  | .pop sel => fieldsWord 3 0 sel.field
  | .rread r => fieldsWord 4 r.field 0
  | .rwrite r _ => fieldsWord 5 r.field 0
  | .ror r _ => fieldsWord 6 r.field 0
  | .randc r _ => fieldsWord 7 r.field 0

/-- The operand word OPND of a command, 0 in every ignored bit (30_encoding.md R75, R86). -/
def opndWord : Instr → Word
  | .init => 0
  | .push _ b => Machine.zext32 b
  | .pop _ => 0
  | .rread _ => 0
  | .rwrite _ v => v
  | .ror _ m => m
  | .randc _ m => m

/-- Both words of a command. -/
def encode (i : Instr) : Word × Word := (cmdWord i, opndWord i)

/-- The command the decoder reads from an opcode-table word of `nbits` bits: the table's bit 0 is CMD's
bit 0, bits 31:0 are CMD, bits 63:32 are OPND, and every bit from `nbits` on is 0. -/
def decodeTableWord (nbits w : Nat) : Option Instr :=
  let v := w % 2 ^ nbits
  match decode (BitVec.ofNat 32 v) (BitVec.ofNat 32 (v / 2 ^ 32)) with
  | .ok i => some i
  | .error _ => none

end Sys2Proof
end

