-- ==== Sys2Proof/Machine/Flags.lean ====
section
/-! DEFINITION. The one flag of the block besides ERR: the found flag, bit 8 of RESULT after a POP
(10_state.md R31, 30_encoding.md R78). -/

namespace Sys2Proof.Machine

/-- RESULT after a POP: `zext_32(bit(found) :: v)` (40_circular_buffer.md R104). -/
def popResult (found : Bool) (v : Byte) : Word := (BitVec.ofBool found ++ v).setWidth 32

/-- The found flag of a response. -/
def foundFlag (result : Word) : Bool := result.getLsbD 8

/-- Is a status or interrupt bit set in a register value? -/
def bitSet {w : Nat} (value bit : BitVec w) : Bool := value &&& bit != 0

end Sys2Proof.Machine
end

