-- ==== Sys2Proof/Config.lean ====
section
/-! DEFINITION. What a launch fixes and no step changes (00_scope.md R5, 10_state.md R44), and the two free
values of the model. A statement about every state holds for every configuration, because the state carries
it (log entry 1). -/

namespace Sys2Proof

/-- One bus address for each device register. An address is a number, because the block never computes
with it (20_memory.md R51). -/
structure RegAddrs where
  uartCtrl : Nat
  uartStat : Nat
  uartTxd : Nat
  uartRxd : Nat
  intMask : Nat
  intStat : Nat
  intAck : Nat
  deriving DecidableEq, Repr

/-- The parameters of 00_scope.md R5, under the spec's names. DESIGN CHOICE for the OPEN ones, the storage
and the two device registers: the defaults here are what `State.reset` takes, and no statement about every
state rests on them (log entries 2 and 4). -/
structure Config where
  /-- `C`, the capacity of each buffer and the modulus of both cursors. -/
  capacity : Nat := 1024
  /-- `ADDR_W`, the width of a bus address. -/
  addrW : Nat := 32
  /-- `REG_ADDR[0..6]`, the platform's register addresses. -/
  regAddr : RegAddrs := ⟨0x0, 0x4, 0x8, 0x9, 0xA, 0xB, 0xC⟩
  /-- `UART_INT_TX`. -/
  intTx : Byte := 0x08
  /-- `UART_INT_RX`. -/
  intRx : Byte := 0x04
  /-- `DATA_READY`. -/
  dataReady : Word := 0x10
  /-- `XMT_FIFO_FULL`. -/
  fifoFull : Word := 0x40
  /-- `XMT_FIFO_EMPTY`, in UART_STAT and in UART_CTRL. -/
  fifoEmpty : Word := 0x80
  /-- `ATOMIC_RING_OPS`. -/
  atomicRingOps : Bool := true
  /-- `STRICT_SPSC`. -/
  strictSpsc : Bool := false
  /-- `STORE_INIT_TX`; a slot that is not listed holds 0x00. -/
  storeInitTx : Memory := []
  /-- `STORE_INIT_RX`; a slot that is not listed holds 0x00. -/
  storeInitRx : Memory := []
  /-- `DEV_CTRL_INIT`. -/
  devCtrlInit : Word := 0
  /-- `DEV_IMASK_INIT`. -/
  devImaskInit : Byte := 0
  deriving DecidableEq, Repr

/-- The configuration of `State.reset`: every default. -/
def Config.default : Config := {}

/-- What the environment does at a boundary: it lets the block take its own step, delivers an IRQ, or
resets the hardware (60_exceptions.md R277, 70_reset_and_hazards.md R290; log entry 7). -/
inductive Move where
  | run
  | irq
  | reset
  deriving DecidableEq, Repr, Inhabited

/-- A free value: what the device answers to the read of that number once `State.draws` scripts no
answer. It has no body: the environment chooses (60_exceptions.md R264 to R266, log entry 8). -/
opaque Config.freeDraw : Nat → Word

/-- A free value: the environment's move of that number under a schedule that leaves its moves open. It has
no body: whether and when an IRQ arrives is the environment's choice (44_interrupt_handler.md R192, log entry
7). -/
opaque Config.freeMove : Nat → Move

end Sys2Proof
end

