-- ==== Sys2Proof/Machine/Memory.lean ====
section
/-! DEFINITION. The operations of a store: read a slot, write a slot, and the canonical form both keep. -/

namespace Sys2Proof

/-- What a slot that is not listed holds. STORE_INIT is listed by the launch, so this is only the form of a
store; DESIGN CHOICE: `State.reset` lists nothing (log entry 4). -/
def Memory.unlisted : Byte := 0

/-- The byte at address `a`. -/
def Memory.read : Memory → Nat → Byte
  | [], _ => Memory.unlisted
  | (b, w) :: rest, a => if b = a then w else Memory.read rest a

/-- A cell in front of the rest, or none where the value is that of an unlisted address. -/
def Memory.place (a : Nat) (v : Byte) (rest : Memory) : Memory :=
  if v = Memory.unlisted then rest else (a, v) :: rest

/-- The store with the byte at address `a` set to `v`. -/
def Memory.write : Memory → Nat → Byte → Memory
  | [], a, v => Memory.place a v []
  | (b, w) :: rest, a, v =>
    if a < b then Memory.place a v ((b, w) :: rest)
    else if a = b then Memory.place a v rest
    else (b, w) :: Memory.write rest a v

/-- Are all addresses of the store above `lo - 1` and below `hi`, strictly rising, and no value that of an
unlisted address? -/
def Memory.wfFrom (hi : Nat) : Nat → Memory → Bool
  | _, [] => true
  | lo, (a, v) :: rest =>
    decide (lo ≤ a) && decide (a < hi) && decide (v ≠ Memory.unlisted) && Memory.wfFrom hi (a + 1) rest

/-- The canonical form of a store of `size` bytes. -/
def Memory.wf (size : Nat) (m : Memory) : Bool := Memory.wfFrom size 0 m

end Sys2Proof
end

