-- ==== Sys2Proof/Machine/Launch.lean ====
section
/-! DEFINITION. The width of a cursor, which a configuration's capacity gives, and which configurations a launch accepts (00_scope.md R5, 20_memory.md R55, R58). Every other
one is refused and has no run (70_reset_and_hazards.md R313). -/

namespace Sys2Proof

/-- The address bound to a register. -/
def RegAddrs.get (a : RegAddrs) : Reg → Nat
  | .uartCtrl => a.uartCtrl
  | .uartStat => a.uartStat
  | .uartTxd => a.uartTxd
  | .uartRxd => a.uartRxd
  | .intMask => a.intMask
  | .intStat => a.intStat
  | .intAck => a.intAck

/-- `CW = ceil(log2 C)`, the width in bits of each cursor (00_scope.md R5, 10_state.md R23). -/
def Config.cursorWidth (c : Config) : Nat := if c.capacity ≤ 1 then 0 else (c.capacity - 1).log2 + 1

/-- Is the value one bit? -/
def isOneBit {w : Nat} (v : BitVec w) : Bool := v != 0 && v &&& (v - 1) == 0

/-- The bit constants: single bits, different within each register (00_scope.md R5). -/
def Config.bitsOk (c : Config) : Bool :=
  isOneBit c.intTx && isOneBit c.intRx && c.intTx != c.intRx &&
  isOneBit c.dataReady && isOneBit c.fifoFull && isOneBit c.fifoEmpty &&
  c.dataReady != c.fifoFull && c.dataReady != c.fifoEmpty && c.fifoFull != c.fifoEmpty

/-- Do the bytes of two registers lie apart on the bus (20_memory.md R58)? -/
def Config.apart (c : Config) (r q : Reg) : Bool :=
  decide (c.regAddr.get r + r.bytes ≤ c.regAddr.get q) ||
  decide (c.regAddr.get q + q.bytes ≤ c.regAddr.get r)

/-- The register addresses: aligned to the register's width (20_memory.md R55), within ADDR_W bits (R51),
and no two registers overlapping (R58). -/
def Config.addrsOk (c : Config) : Bool :=
  Reg.all.all fun r =>
    c.regAddr.get r % r.bytes == 0 && decide (c.regAddr.get r + r.bytes ≤ 2 ^ c.addrW) &&
    Reg.all.all fun q => r == q || c.apart r q

/-- The two reset stores: C bytes each, in canonical form (00_scope.md R5). -/
def Config.storesOk (c : Config) : Bool :=
  c.storeInitTx.wf c.capacity && c.storeInitRx.wf c.capacity

/-- Does the launch accept the configuration? -/
def Config.accepted (c : Config) : Bool :=
  decide (2 ≤ c.capacity) && c.bitsOk && c.addrsOk && c.storesOk

end Sys2Proof
end

