-- ==== Sys2Proof/Machine/State.lean ====
section
/-! DEFINITION. The state of the DCBB and the reasons a step can stop: every field of 10_state.md R20, the
split command of R41 (e), the event history of R42, and, as the model's own fields, the configuration and
the environment's inputs (R44, 60_exceptions.md R277). -/

namespace Sys2Proof.Machine

/-- `LIFE` (10_state.md R21). -/
inductive Life where
  | uninit
  | ready
  | faulted
  deriving DecidableEq, Repr

/-- `ISR_PC` (10_state.md R26). -/
inductive IsrPc where
  | idle
  | entry
  | rxAck
  | fillTest
  | fillMove
  | txTest
  | txAck
  | drainTrig
  | drainTest
  | drainMove
  | drainEnd
  | ret
  deriving DecidableEq, Repr

/-- The context that issues a bus access (10_state.md R42). -/
inductive Ctx where
  | app
  | isr
  deriving DecidableEq, Repr

/-- The fault causes but NONE (60_exceptions.md R250). -/
inductive FaultCause where
  | illegalOpcode
  | reservedField
  | illegalReg
  | notInit
  | reinit
  | irqNotInit
  | spscViolation
  deriving DecidableEq, Repr

/-- One record of the event history (10_state.md R42). A bus access also records the address it went to,
which the spec's record leaves to BOUND_ADDR (log entry 3). A value is held zero-extended. -/
inductive Event where
  | cmd (cmd opnd : Word)
  | resp (err : Bool) (result : Word)
  | rd (ctx : Ctx) (r : Reg) (addr : Nat) (width : Nat) (value : Word)
  | wr (ctx : Ctx) (r : Reg) (addr : Nat) (width : Nat) (value : Word)
  | irq
  | ret
  | fault (cause : FaultCause) (info : Word)
  deriving DecidableEq, Repr

/-- One buffer: `store`, `rc`, `wc` (10_state.md R22, R23). A cursor is an index, never an address. -/
structure Ring where
  store : Memory
  rc : Nat
  wc : Nat
  deriving DecidableEq, Repr

/-- An APP PUSH or POP between two of its split steps, with the values it has taken: the constructor names
the step that comes next (40_circular_buffer.md R112, 10_state.md R41 (e)). -/
inductive Split where
  | p2 (sel : Sel) (i : Nat)
  | q2 (sel : Sel) (i : Nat) (v : Byte)
  | q3 (sel : Sel) (i : Nat) (v : Byte) (e : Bool)
  | q4 (sel : Sel) (i : Nat) (v : Byte) (e : Bool)
  deriving DecidableEq, Repr

/-- What the environment does once `State.moves` is used up: it lets the block run for ever, makes the same
moves again and again, or moves as it likes, by the free value `Config.freeMove`. The last two admit endless
IRQ schedules (70_reset_and_hazards.md R308, R313; log entry 7). -/
inductive Later where
  | runs
  | cycle (first : Move) (rest : List Move)
  | free
  deriving DecidableEq, Repr

/-- The state. `cfg` and the last six fields are the model's own. -/
structure State where
  /-- The configuration of 00_scope.md R5; no step writes it (log entry 1). -/
  cfg : Config
  /-- `LIFE`. -/
  life : Life
  /-- `ring[TX]`. -/
  tx : Ring
  /-- `ring[RX]`. -/
  rx : Ring
  /-- `BOUND_ADDR[0..6]`. -/
  boundAddr : RegAddrs
  /-- `RESULT`. -/
  result : Word
  /-- `ERR`. -/
  err : Bool
  /-- `FAULT_CAUSE`. -/
  faultCause : Byte
  /-- `FAULT_INFO`. -/
  faultInfo : Word
  /-- `ISR_PC`. -/
  isrPc : IsrPc
  /-- `ISR_S`. -/
  isrS : Byte
  /-- The APP PUSH or POP an IRQ may have split, if one is in flight. -/
  split : Option Split
  /-- `dev.ctrl`. -/
  devCtrl : Word
  /-- `dev.imask`. -/
  devImask : Byte
  /-- `EV`, oldest first. -/
  ev : List Event
  /-- The commands (CMD, OPND) the host has yet to have accepted, oldest first; the first is the one
  presented at the port (log entry 6). -/
  cmds : List (Word × Word)
  /-- The environment's coming moves, one a step (log entry 7). -/
  moves : List Move
  /-- The environment's moves after the last of `moves` (log entry 7). -/
  later : Later
  /-- How many free moves the environment has made (log entry 7). -/
  moveCount : Nat
  /-- The device's coming answers to volatile reads, in read order (log entry 8). -/
  draws : List Word
  /-- How many volatile reads have been answered (log entry 8). -/
  drawCount : Nat
  deriving DecidableEq, Repr

/-- Why the machine stops with a fault. The spec's own faults are no outcome of this kind: they are states
with LIFE = FAULTED. -/
inductive Fault where
  /-- A ring access to a slot index that is not below the capacity, an address that does not exist
  (20_memory.md R50). Raised by PUSH, POP, the split steps and the ISR's ring primitives. Safe: the block
  never holds such a cursor (10_state.md R23), so only states no run reaches stop here (log entry 10). -/
  | ringSlotAbsent (sel : Sel) (slot : Nat)
  deriving DecidableEq, Repr

/-- Why a step has no meaning. -/
inductive Refusal where
  /-- An instruction that has no meaning yet; raised by no arm of `exec` now. Safe. -/
  | notModelled (mnemonic : String)
  /-- The launch is refused: its configuration breaks 00_scope.md R5 or 20_memory.md R55 or R58, so it
  has no run (70_reset_and_hazards.md R313). Raised by `step`. Safe. -/
  | configRefused
  deriving DecidableEq, Repr

/-- The machine right after a launch or a hardware reset with configuration `c`, nothing presented
(10_state.md R43, 70_reset_and_hazards.md R290). DESIGN CHOICE where R43 says unspecified: cursors,
BOUND_ADDR and ISR_S are 0 (log entry 5). -/
def State.launch (c : Config) : State where
  cfg := c
  life := .uninit
  tx := ⟨c.storeInitTx, 0, 0⟩
  rx := ⟨c.storeInitRx, 0, 0⟩
  boundAddr := ⟨0, 0, 0, 0, 0, 0, 0⟩
  result := 0
  err := false
  faultCause := 0
  faultInfo := 0
  isrPc := .idle
  isrS := 0
  split := none
  devCtrl := c.devCtrlInit
  devImask := c.devImaskInit
  ev := []
  cmds := []
  moves := []
  later := .runs
  moveCount := 0
  draws := []
  drawCount := 0

/-- The machine right after reset, with the default configuration. -/
def State.reset : State := State.launch Config.default

end Sys2Proof.Machine
end

