-- ==== Sys2Proof/Machine/Ops.lean ====
section
/-! DEFINITION. The named operations over the state: the event history, the two buffers, the register bus,
responses, taking a fault and the lifecycle checks of a command, accepting an IRQ and returning from it, and
hardware reset. -/

namespace Sys2Proof.Machine

/-- How a step or a meaning ends. -/
abbrev Result := Host.Outcome State Fault Refusal

/-! The event history (10_state.md R42). -/

/-- Append a record to EV. -/
def State.emit (s : State) (e : Event) : State := { s with ev := s.ev ++ [e] }

/-! The two buffers (40_circular_buffer.md). -/

/-- `ring[sel]`. -/
def State.ring (s : State) : Sel → Ring
  | .tx => s.tx
  | .rx => s.rx

/-- The state with `ring[sel]` replaced. -/
def State.setRing (s : State) (sel : Sel) (r : Ring) : State :=
  match sel with
  | .tx => { s with tx := r }
  | .rx => { s with rx := r }

/-- `(a + 1) mod C`, the only advance of a cursor (40_circular_buffer.md R108). -/
def State.advance (s : State) (a : Nat) : Nat := (a + 1) % s.cfg.capacity

/-- Empty: the cursors are equal (40_circular_buffer.md R101). -/
def Ring.empty (r : Ring) : Bool := r.rc == r.wc

/-- `occ(s) = (wc - rc) mod C` for cursors below C (40_circular_buffer.md R101). -/
def Ring.occ (r : Ring) (cap : Nat) : Nat := (r.wc + cap - r.rc) % cap

/-- `RingRead(sel, i)` (00_scope.md R7). -/
def State.ringRead (s : State) (sel : Sel) (i : Nat) : Except Fault Byte :=
  if i < s.cfg.capacity then .ok ((s.ring sel).store.read i) else .error (.ringSlotAbsent sel i)

/-- `RingWrite(sel, i, v)` (00_scope.md R7). -/
def State.ringWrite (s : State) (sel : Sel) (i : Nat) (v : Byte) : Except Fault State :=
  if i < s.cfg.capacity then
    .ok (s.setRing sel { s.ring sel with store := (s.ring sel).store.write i v })
  else .error (.ringSlotAbsent sel i)

/-- `ring[sel].wc <- (ring[sel].wc + 1) mod C`. -/
def State.advanceWc (s : State) (sel : Sel) : State :=
  s.setRing sel { s.ring sel with wc := s.advance (s.ring sel).wc }

/-- `ring[sel].rc <- (i + 1) mod C`. -/
def State.advanceRcFrom (s : State) (sel : Sel) (i : Nat) : State :=
  s.setRing sel { s.ring sel with rc := s.advance i }

/-- The ring primitive PUSH, without a response (40_circular_buffer.md R102). -/
def pushByte (sel : Sel) (b : Byte) (s : State) : Except Fault State :=
  match s.ringWrite sel (s.ring sel).wc b with
  | .error f => .error f
  | .ok s' => .ok (s'.advanceWc sel)

/-- The ring primitive POP, without a response: the byte, whether it was found, and the state after
(40_circular_buffer.md R104). -/
def popByte (sel : Sel) (s : State) : Except Fault (Byte × Bool × State) :=
  let i := (s.ring sel).rc
  match s.ringRead sel i with
  | .error f => .error f
  | .ok v =>
    let e := (s.ring sel).empty
    match s.ringWrite sel i 0x00 with
    | .error f => .error f
    | .ok s' => .ok (v, !e, if e then s' else s'.advanceRcFrom sel i)

/-! The register bus (20_memory.md R51 to R61, 60_exceptions.md R262 to R270). -/

/-- The next value the environment draws, and the state with it taken: the next scripted answer, else the
free value of that number (60_exceptions.md R264 to R266, log entry 8). -/
def State.draw (s : State) : Word × State :=
  match s.draws with
  | [] => (Config.freeDraw s.drawCount, { s with drawCount := s.drawCount + 1 })
  | v :: rest => (v, { s with draws := rest, drawCount := s.drawCount + 1 })

/-- What the device answers to a read of `r`, at the register's width: the stored value of the two storage
registers, a draw for every other one (60_exceptions.md R263 to R266). -/
def State.deviceRead (s : State) : Reg → Word × State
  | .uartCtrl => (s.devCtrl, s)
  | .intMask => (zext32 s.devImask, s)
  | r => (truncTo r s.draw.1, s.draw.2)

/-- What a write of `v` to `r` does at the device: the two storage registers keep it; no other write
changes a state the rules read (60_exceptions.md R263, R268 to R270). -/
def State.deviceWrite (s : State) (r : Reg) (v : Word) : State :=
  match r with
  | .uartCtrl => { s with devCtrl := v }
  | .intMask => { s with devImask := lowByte v }
  | _ => s

/-- `BusRead(r)` by context `ctx`: the value the device answers, and the state with the access recorded
(00_scope.md R7). -/
def busRead (ctx : Ctx) (r : Reg) (s : State) : Word × State :=
  let (v, s') := s.deviceRead r
  (v, s'.emit (.rd ctx r (s.boundAddr.get r) r.width v))

/-- `BusWrite(r, v)` by context `ctx`: `trunc_W(v)` is sent and recorded (00_scope.md R7). -/
def busWrite (ctx : Ctx) (r : Reg) (v : Word) (s : State) : State :=
  (s.deviceWrite r (truncTo r v)).emit (.wr ctx r (s.boundAddr.get r) r.width (truncTo r v))

/-- The locked read-modify-write that sets bits (41_register_interface.md R136, R137). -/
def busOr (ctx : Ctx) (r : Reg) (m : Word) (s : State) : State :=
  let (v, s') := busRead ctx r s
  busWrite ctx r (v ||| truncTo r m) s'

/-- The locked read-modify-write that clears bits, `BusAndClr` (41_register_interface.md R140, R141,
R143). -/
def busAndClr (ctx : Ctx) (r : Reg) (m : Word) (s : State) : State :=
  let (v, s') := busRead ctx r s
  busWrite ctx r (v &&& ~~~(truncTo r m)) s'

/-! Responses (30_encoding.md R78, R79). -/

/-- Give the response: record it. -/
def respond (s : State) : State := s.emit (.resp s.err s.result)

/-- `RESULT <- v; ERR <- 0`, and the response. -/
def answer (v : Word) (s : State) : State := respond { s with result := v, err := false }

/-- `ERR <- 1` with RESULT kept, and the response. -/
def answerError (s : State) : State := respond { s with err := true }

/-! Taking a fault (60_exceptions.md R250, R251). -/

/-- The code of a cause in FAULT_CAUSE (60_exceptions.md R250). -/
def FaultCause.code : FaultCause → Byte
  | .illegalOpcode => 1
  | .reservedField => 2
  | .illegalReg => 3
  | .notInit => 4
  | .reinit => 5
  | .irqNotInit => 6
  | .spscViolation => 7

/-- The fault an illegal command word raises (60_exceptions.md R253). -/
def causeOf : Illegal → FaultCause
  | .illegalOpcode => .illegalOpcode
  | .reservedField => .reservedField
  | .illegalReg => .illegalReg

/-- `raise Fault(cause, info)`, but for ERR: FAULTED is entered and cause and info are latched. -/
def raiseFault (cause : FaultCause) (info : Word) (s : State) : State :=
  { s with life := .faulted, faultCause := cause.code, faultInfo := info }.emit (.fault cause info)

/-- A command raises a fault and is answered with ERR = 1. -/
def commandFault (cause : FaultCause) (cmd : Word) (s : State) : State :=
  answerError (raiseFault cause cmd s)

/-! The checks of a command, in the order of 60_exceptions.md R255. -/

/-- Does the command take the wrong role at its buffer: PUSH RX or POP TX (60_exceptions.md R258)? -/
def wrongRole : Instr → Bool
  | .push .rx _ => true
  | .pop .tx => true
  | _ => false

/-- The fault a legally encoded command raises outside FAULTED, if any (60_exceptions.md R252, R254,
R258). -/
def commandCheck (i : Instr) (s : State) : Option FaultCause :=
  if s.life = .uninit ∧ i ≠ .init then some .notInit
  else if s.life = .ready ∧ i = .init then some .reinit
  else if s.cfg.strictSpsc ∧ wrongRole i then some .spscViolation
  else none

/-- A legally encoded command at the APP port: in FAULTED it answers ERR = 1 and does nothing else; a
failing check raises its fault before any effect; else the command is performed (60_exceptions.md R251,
R255). -/
def onCommand (i : Instr) (s : State) (perform : State → Result) : Result :=
  if s.life = .faulted then .next (answerError s)
  else match commandCheck i s with
    | some cause => .next (commandFault cause (cmdWord i) s)
    | none => perform s

/-- An illegal command word at the APP port (60_exceptions.md R251, R253). -/
def onIllegal (why : Illegal) (cmd : Word) (s : State) : Result :=
  if s.life = .faulted then .next (answerError s) else .next (commandFault (causeOf why) cmd s)

/-! The IRQ input and hardware reset. -/

/-- An IRQ arrives: in UNINIT it faults with no response and no ISR; in READY with the ISR idle it is
accepted; else it is not accepted and nothing happens (44_interrupt_handler.md R192, 60_exceptions.md R251,
R252, R259). -/
def irqArrives (s : State) : State :=
  match s.life with
  | .uninit => raiseFault .irqNotInit 0 s
  | .faulted => s
  | .ready => if s.isrPc = .idle then { s with isrPc := .entry }.emit .irq else s

/-- The return from the ISR (44_interrupt_handler.md R207, 60_exceptions.md R260). -/
def isrReturn (s : State) : State := { s with isrPc := .idle }.emit .ret

/-- Hardware reset, whatever the block was doing: the launch state of the same configuration; what the
environment has still to send is not the block's and stays (70_reset_and_hazards.md R290, log entry 7). -/
def hardReset (s : State) : State :=
  { State.launch s.cfg with
    cmds := s.cmds, moves := s.moves, later := s.later, moveCount := s.moveCount
    draws := s.draws, drawCount := s.drawCount }

end Sys2Proof.Machine
end

