-- ==== Sys2Proof/Machine/Buffer.lean ====
section
/-! DEFINITION. The commands PUSH and POP (40_circular_buffer.md). With ATOMIC_RING_OPS each is one step;
without, each is split into the steps of R112 and the command only starts here: `State.split` holds what
comes next and `resume` performs it. -/

namespace Sys2Proof.Machine

/-- PUSH in one indivisible step (40_circular_buffer.md R102, R111). -/
def pushAtomic (sel : Sel) (b : Byte) (s : State) : Result :=
  match pushByte sel b s with
  | .error f => .fault f
  | .ok s' => .next (answer 0 s')

/-- Step P1: take `wc` and store the byte there (40_circular_buffer.md R112). -/
def pushP1 (sel : Sel) (b : Byte) (s : State) : Result :=
  let i := (s.ring sel).wc
  match s.ringWrite sel i b with
  | .error f => .fault f
  | .ok s' => .next { s' with split := some (.p2 sel i) }

/-- Step P2: advance `wc` as it is now, and respond (40_circular_buffer.md R112). -/
def pushP2 (sel : Sel) (s : State) : Result :=
  .next (answer 0 ({ s with split := none }.advanceWc sel))

/-- POP in one indivisible step (40_circular_buffer.md R104, R111). -/
def popAtomic (sel : Sel) (s : State) : Result :=
  match popByte sel s with
  | .error f => .fault f
  | .ok (v, found, s') => .next (answer (popResult found v) s')

/-- Step Q1: take `rc` and the byte in its slot (40_circular_buffer.md R112). -/
def popQ1 (sel : Sel) (s : State) : Result :=
  let i := (s.ring sel).rc
  match s.ringRead sel i with
  | .error f => .fault f
  | .ok v => .next { s with split := some (.q2 sel i v) }

/-- Step Q2: compare with `wc` as it is now (40_circular_buffer.md R112). -/
def popQ2 (sel : Sel) (i : Nat) (v : Byte) (s : State) : Result :=
  .next { s with split := some (.q3 sel i v (i == (s.ring sel).wc)) }

/-- Step Q3: clear the slot (40_circular_buffer.md R112). -/
def popQ3 (sel : Sel) (i : Nat) (v : Byte) (e : Bool) (s : State) : Result :=
  match s.ringWrite sel i 0x00 with
  | .error f => .fault f
  | .ok s' => .next { s' with split := some (.q4 sel i v e) }

/-- Step Q4: advance `rc` if the buffer was not empty at Q2, and respond (40_circular_buffer.md R112). -/
def popQ4 (sel : Sel) (i : Nat) (v : Byte) (e : Bool) (s : State) : Result :=
  let s' := { s with split := none }
  .next (answer (popResult (!e) v) (if e then s' else s'.advanceRcFrom sel i))

/-- The next step of a split PUSH or POP. -/
def resume (p : Split) (s : State) : Result :=
  match p with
  | .p2 sel _ => pushP2 sel s
  | .q2 sel i v => popQ2 sel i v s
  | .q3 sel i v e => popQ3 sel i v e s
  | .q4 sel i v e => popQ4 sel i v e s

/-- PUSH (40_circular_buffer.md R102, R112). -/
def execPush (sel : Sel) (b : Byte) (s : State) : Result :=
  onCommand (.push sel b) s fun s =>
    if s.cfg.atomicRingOps then pushAtomic sel b s else pushP1 sel b s

/-- POP (40_circular_buffer.md R104, R112). -/
def execPop (sel : Sel) (s : State) : Result :=
  onCommand (.pop sel) s fun s =>
    if s.cfg.atomicRingOps then popAtomic sel s else popQ1 sel s

end Sys2Proof.Machine
end

