-- ==== Sys2Proof/Machine/Init.lean ====
section
/-! DEFINITION. The command INIT (45_init.md). -/

namespace Sys2Proof.Machine

/-- The effect of INIT: bind the register addresses, put the four cursors at the start of storage, enter
READY; no store is written and no register accessed (45_init.md R230, R232). -/
def initialise (s : State) : State :=
  { s with
    boundAddr := s.cfg.regAddr
    tx := { s.tx with rc := 0, wc := 0 }
    rx := { s.rx with rc := 0, wc := 0 }
    life := .ready }

/-- INIT (45_init.md R230, R231). -/
def execInit (s : State) : Result :=
  onCommand .init s fun s => .next (answer 0 (initialise s))

end Sys2Proof.Machine
end

