-- ==== Sys2Proof/Machine/Register.lean ====
section
/-! DEFINITION. The commands RREAD, RWRITE, ROR and RANDC: every one of them on every one of the seven
registers (41_register_interface.md R145). -/

namespace Sys2Proof.Machine

/-- RREAD (41_register_interface.md R130, R131). -/
def execRread (r : Reg) (s : State) : Result :=
  onCommand (.rread r) s fun s =>
    let (v, s') := busRead .app r s
    .next (answer v s')

/-- RWRITE (41_register_interface.md R133). -/
def execRwrite (r : Reg) (v : Word) (s : State) : Result :=
  onCommand (.rwrite r v) s fun s => .next (answer 0 (busWrite .app r v s))

/-- ROR (41_register_interface.md R136). -/
def execRor (r : Reg) (m : Word) (s : State) : Result :=
  onCommand (.ror r m) s fun s => .next (answer 0 (busOr .app r m s))

/-- RANDC (41_register_interface.md R140). -/
def execRandc (r : Reg) (m : Word) (s : State) : Result :=
  onCommand (.randc r m) s fun s => .next (answer 0 (busAndClr .app r m s))

end Sys2Proof.Machine
end

