-- ==== Sys2Proof/Machine/Dispatch.lean ====
section
/-! DEFINITION. What each command does: one arm for each constructor of `Instr`. -/

namespace Sys2Proof.Machine

def exec (i : Instr) (s : State) : Host.Outcome State Fault Refusal :=
  match i with
  | .init => Sys2Proof.Machine.execInit s
  | .push sel b => Sys2Proof.Machine.execPush sel b s
  | .pop sel => Sys2Proof.Machine.execPop sel s
  | .rread r => Sys2Proof.Machine.execRread r s
  | .rwrite r v => Sys2Proof.Machine.execRwrite r v s
  | .ror r m => Sys2Proof.Machine.execRor r m s
  | .randc r m => Sys2Proof.Machine.execRandc r m s

end Sys2Proof.Machine
end

