-- ==== Sys2Proof/Machine/Isr.lean ====
section
/-! DEFINITION. The interrupt-handler sequencer: one definition for each of its states, one step of the
ISR agent each, writing neither RESULT nor ERR (44_interrupt_handler.md R190). -/

namespace Sys2Proof.Machine

/-- `goto pc`. -/
def State.goto (s : State) (pc : IsrPc) : State := { s with isrPc := pc }

/-- `TxEmpty()`: a peek at the cursors (44_interrupt_handler.md R204). -/
def State.txEmpty (s : State) : Bool := s.tx.empty

/-- ENTRY: the only read of INT_STAT (44_interrupt_handler.md R193). -/
def isrEntry (s : State) : Result :=
  let (v, s') := busRead .isr .intStat s
  let latch := lowByte v
  .next ({ s' with isrS := latch }.goto (if bitSet latch s.cfg.intRx then .rxAck else .txTest))

/-- RX_ACK (44_interrupt_handler.md R194). -/
def isrRxAck (s : State) : Result :=
  .next ((busWrite .isr .intAck (zext32 s.cfg.intRx) s).goto .fillTest)

/-- FILL_TEST (44_interrupt_handler.md R195). -/
def isrFillTest (s : State) : Result :=
  let (u, s') := busRead .isr .uartStat s
  .next (s'.goto (if bitSet u s.cfg.dataReady then .fillMove else .txTest))

/-- FILL_MOVE (44_interrupt_handler.md R196). -/
def isrFillMove (s : State) : Result :=
  let (b, s') := busRead .isr .uartRxd s
  match pushByte .rx (lowByte b) s' with
  | .error f => .fault f
  | .ok s'' => .next (s''.goto .fillTest)

/-- TX_TEST: the latch, not a second read (44_interrupt_handler.md R198). -/
def isrTxTest (s : State) : Result :=
  .next (s.goto (if bitSet s.isrS s.cfg.intTx then .txAck else .ret))

/-- TX_ACK (44_interrupt_handler.md R199). -/
def isrTxAck (s : State) : Result :=
  .next ((busWrite .isr .intAck (zext32 s.cfg.intTx) s).goto .drainTrig)

/-- DRAIN_TRIG (44_interrupt_handler.md R200). -/
def isrDrainTrig (s : State) : Result :=
  let (u, s') := busRead .isr .uartStat s
  .next (s'.goto (if bitSet u s.cfg.fifoEmpty then .drainTest else .ret))

/-- DRAIN_TEST: full first, then the peek (44_interrupt_handler.md R201). -/
def isrDrainTest (s : State) : Result :=
  let (u, s') := busRead .isr .uartStat s
  .next (s'.goto
    (if bitSet u s.cfg.fifoFull then .drainEnd
      else if s'.txEmpty then .drainEnd
      else .drainMove))

/-- DRAIN_MOVE (44_interrupt_handler.md R202). -/
def isrDrainMove (s : State) : Result :=
  match popByte .tx s with
  | .error f => .fault f
  | .ok (b, _, s') => .next ((busWrite .isr .uartTxd (zext32 b) s').goto .drainTest)

/-- DRAIN_END: DISARM_TX exactly when `ring[TX]` is empty (44_interrupt_handler.md R203, R206). -/
def isrDrainEnd (s : State) : Result :=
  let s' := if s.txEmpty then busAndClr .isr .intMask (zext32 s.cfg.intTx) s else s
  .next (s'.goto .ret)

/-- RETURN (44_interrupt_handler.md R207). -/
def isrRet (s : State) : Result := .next (isrReturn s)

/-- One step of the ISR agent; while IDLE it has none. -/
def isrStep (s : State) : Result :=
  match s.isrPc with
  | .idle => .next s
  | .entry => isrEntry s
  | .rxAck => isrRxAck s
  | .fillTest => isrFillTest s
  | .fillMove => isrFillMove s
  | .txTest => isrTxTest s
  | .txAck => isrTxAck s
  | .drainTrig => isrDrainTrig s
  | .drainTest => isrDrainTest s
  | .drainMove => isrDrainMove s
  | .drainEnd => isrDrainEnd s
  | .ret => isrRet s

end Sys2Proof.Machine
end

