-- ==== Sys2Proof/Machine/Port.lean ====
section
/-! DEFINITION. Which agent steps: the command port, the block's own step, and one step under a move of the
environment (20_memory.md R60, 44_interrupt_handler.md R191, R192, 60_exceptions.md R255). -/

namespace Sys2Proof.Machine

/-- Accept the command (CMD, OPND): record it, decode it, perform it (60_exceptions.md R255). -/
def acceptCommand (cmd opnd : Word) (s : State) : Result :=
  let s' := s.emit (.cmd cmd opnd)
  match decode cmd opnd with
  | .error why => onIllegal why cmd s'
  | .ok i => exec i s'

/-- The APP agent's step: the rest of a split command, else the command presented, else nothing
(40_circular_buffer.md R112, 70_reset_and_hazards.md R311). -/
def appStep (s : State) : Result :=
  match s.split with
  | some p => resume p s
  | none =>
    match s.cmds with
    | [] => .next s
    | (cmd, opnd) :: rest => acceptCommand cmd opnd { s with cmds := rest }

/-- The block's own step: the ISR's while it runs, and the APP's only while it is IDLE
(44_interrupt_handler.md R191). -/
def blockStep (s : State) : Result :=
  if s.isrPc = .idle then appStep s else isrStep s

/-- The environment's next move and the state without it: the next scripted one, else what `later` says, a
cycle being scripted anew each time it ends (44_interrupt_handler.md R192, 70_reset_and_hazards.md R308, log
entry 7). -/
def State.nextMove (s : State) : Move × State :=
  match s.moves, s.later with
  | m :: rest, _ => (m, { s with moves := rest })
  | [], .runs => (.run, s)
  | [], .cycle m rest => (m, { s with moves := rest })
  | [], .free => (Config.freeMove s.moveCount, { s with moveCount := s.moveCount + 1 })

/-- One step under a move of the environment. -/
def stepUnder (m : Move) (s : State) : Result :=
  match m with
  | .run => blockStep s
  | .irq => .next (irqArrives s)
  | .reset => .next (hardReset s)

/-- One step of a machine whose configuration the launch accepts; any other has no run
(70_reset_and_hazards.md R313, log entry 9). -/
def stepMachine (s : State) : Result :=
  if s.cfg.accepted then stepUnder s.nextMove.1 s.nextMove.2 else .refused .configRefused

/-- The state with the pair (CMD, OPND) as the very next command the block takes: no ISR runs, no command
is split, the pair is presented first, and the environment lets the block step (log entry 6). -/
def State.present (s : State) (cmd opnd : Word) : State :=
  { s with
    isrPc := .idle
    split := none
    cmds := (cmd, opnd) :: s.cmds
    moves := .run :: s.moves }

/-- The same for an opcode-table word: bits 31:0 are CMD, bits 63:32 OPND, and bits from `nbits` on 0. -/
def State.presentTableWord (s : State) (nbits w : Nat) : State :=
  let v := w % 2 ^ nbits
  s.present (BitVec.ofNat 32 v) (BitVec.ofNat 32 (v / 2 ^ 32))

end Sys2Proof.Machine
end

