-- ==== Sys2Proof/Machine/Step.lean ====
section
/-! DEFINITION. One step of the machine, and the state whose next step runs a given command word. -/

namespace Sys2Proof.Machine

/-- One step (20_memory.md R60). -/
def step (s : State) : Host.Outcome State Fault Refusal := stepMachine s

/-- The state whose very next step runs the opcode-table word. -/
def State.withFetchWord (s : State) (nbits w : Nat) : State := s.presentTableWord nbits w

end Sys2Proof.Machine
end

