-- ==== Sys2Proof/Machine/Assembler.lean ====
section
/-! DEFINITION. The pseudo-instructions and the assembler's notation (30_encoding.md R86 to R89). Neither is
part of the block: both give commands, and the block sees only those. -/

namespace Sys2Proof

/-- The four pseudo-instructions (30_encoding.md R89). SEND's length is that of its byte list. -/
inductive Pseudo where
  | send (bs : List Byte)
  | armTx
  | read (sel : Sel)
  | disarmTx
  deriving DecidableEq, Repr

/-- A token of a line of source text. A character literal is already the number of its code. -/
inductive Token where
  | word (cs : List Char)
  | num (n : Nat)
  | text (cs : List Char)
  | comma
  deriving DecidableEq, Repr

/-- Where the reader of a line stands: between tokens, in a word, or in a quoted literal. -/
inductive LexMode where
  | start
  | word (acc : List Char)
  | quote
  | quoted (c : Char)
  | text (acc : List Char)
  deriving DecidableEq, Repr

namespace Machine

/-- `ARM_TX`: request the TX-empty interrupt, then enable the TX interrupt (42_transmit_path.md R164). -/
def armTx (c : Config) : List Instr :=
  [.ror .uartCtrl c.fifoEmpty, .ror .intMask (zext32 c.intTx)]

/-- The expansion of a pseudo-instruction (30_encoding.md R89, 42_transmit_path.md R160, R166,
43_receive_path.md R180, 44_interrupt_handler.md R206). -/
def expand (c : Config) : Pseudo → List Instr
  | .send bs => bs.map (.push .tx) ++ armTx c
  | .armTx => armTx c
  | .read sel => [.pop sel]
  | .disarmTx => [.randc .intMask (zext32 c.intTx)]

/-! Reading a line into tokens (30_encoding.md R86, R87). -/

/-- The value of a hexadecimal digit. -/
def hexDigit (c : Char) : Option Nat :=
  let n := c.toNat
  if 48 ≤ n ∧ n ≤ 57 then some (n - 48)
  else if 65 ≤ n ∧ n ≤ 70 then some (n - 55)
  else if 97 ≤ n ∧ n ≤ 102 then some (n - 87)
  else none

/-- The value of a run of digits in a base, none where a digit does not belong to it. -/
def digits (base : Nat) : Nat → List Char → Option Nat
  | acc, [] => some acc
  | acc, c :: cs =>
    match hexDigit c with
    | some d => if d < base then digits base (acc * base + d) cs else none
    | none => none

/-- A finished word: a hexadecimal literal `0x..`, a decimal literal, or a name (30_encoding.md R87). DESIGN
CHOICE: the digits of a hexadecimal literal in either case, its prefix and every name in one (log entry 12). -/
def wordToken : List Char → Option Token
  | '0' :: 'x' :: d :: ds => (digits 16 0 (d :: ds)).map .num
  | c :: cs => if c.isDigit then (digits 10 0 (c :: cs)).map .num else some (.word (c :: cs))
  | [] => none

/-- The code of a character literal, which must be an 8-bit one (30_encoding.md R87). DESIGN CHOICE outside
ASCII: the code is the character's Unicode number, accepted up to 0xFF and refused above (log entry 12). -/
def charToken (c : Char) : Option Token := if c.toNat ≤ 0xFF then some (.num c.toNat) else none

/-- The apostrophe. -/
def apostrophe : Char := Char.ofNat 39

/-- The double quote. -/
def doubleQuote : Char := Char.ofNat 34

/-- The tokens of a line; a comment runs from `;` to the end of the line (30_encoding.md R86). DESIGN CHOICE:
inside a character literal or a quoted text `;` and `,` are characters, a character literal may hold the
apostrophe itself, and neither form has escapes (log entry 12). -/
def tokens : LexMode → List Char → Option (List Token)
  | .start, [] => some []
  | .start, c :: cs =>
    if c.isWhitespace then tokens .start cs
    else if c = ';' then some []
    else if c = ',' then (tokens .start cs).map (.comma :: ·)
    else if c = apostrophe then tokens .quote cs
    else if c = doubleQuote then tokens (.text []) cs
    else tokens (.word [c]) cs
  | .word acc, [] => (wordToken acc).map ([·])
  | .word acc, c :: cs =>
    if c.isWhitespace then do return (← wordToken acc) :: (← tokens .start cs)
    else if c = ';' then (wordToken acc).map ([·])
    else if c = ',' then do return (← wordToken acc) :: .comma :: (← tokens .start cs)
    else if c = apostrophe ∨ c = doubleQuote then none
    else tokens (.word (acc ++ [c])) cs
  | .quote, [] => none
  | .quote, c :: cs => tokens (.quoted c) cs
  | .quoted _, [] => none
  | .quoted q, c :: cs =>
    if c = apostrophe then do return (← charToken q) :: (← tokens .start cs) else none
  | .text _, [] => none
  | .text acc, c :: cs =>
    if c = doubleQuote then (tokens .start cs).map (.text acc :: ·)
    else tokens (.text (acc ++ [c])) cs

/-! Operands (30_encoding.md R86, R87). -/

/-- The buffer a name stands for. -/
def selOperand : Token → Option Sel
  | .word ['T', 'X'] => some .tx
  | .word ['R', 'X'] => some .rx
  | _ => none

/-- The register a name stands for. -/
def regName : Token → Option Reg
  | .word ['U', 'A', 'R', 'T', '_', 'C', 'T', 'R', 'L'] => some .uartCtrl
  | .word ['U', 'A', 'R', 'T', '_', 'S', 'T', 'A', 'T'] => some .uartStat
  | .word ['U', 'A', 'R', 'T', '_', 'T', 'X', 'D'] => some .uartTxd
  | .word ['U', 'A', 'R', 'T', '_', 'R', 'X', 'D'] => some .uartRxd
  | .word ['I', 'N', 'T', '_', 'M', 'A', 'S', 'K'] => some .intMask
  | .word ['I', 'N', 'T', '_', 'S', 'T', 'A', 'T'] => some .intStat
  | .word ['I', 'N', 'T', '_', 'A', 'C', 'K'] => some .intAck
  | _ => none

/-- The number an operand stands for: a literal, or the configured value of a constant's name. -/
def numOperand (c : Config) : Token → Option Nat
  | .num n => some n
  | .word ['U', 'A', 'R', 'T', '_', 'I', 'N', 'T', '_', 'T', 'X'] => some c.intTx.toNat
  | .word ['U', 'A', 'R', 'T', '_', 'I', 'N', 'T', '_', 'R', 'X'] => some c.intRx.toNat
  | .word ['D', 'A', 'T', 'A', '_', 'R', 'E', 'A', 'D', 'Y'] => some c.dataReady.toNat
  | .word ['X', 'M', 'T', '_', 'F', 'I', 'F', 'O', '_', 'F', 'U', 'L', 'L'] => some c.fifoFull.toNat
  | .word ['X', 'M', 'T', '_', 'F', 'I', 'F', 'O', '_', 'E', 'M', 'P', 'T', 'Y'] =>
    some c.fifoEmpty.toNat
  | _ => none

/-- A `<byte>`: refused above 0xFF. -/
def byteArg (c : Config) (t : Token) : Option Byte :=
  match numOperand c t with
  | some n => if n ≤ 0xFF then some (BitVec.ofNat 8 n) else none
  | none => none

/-- A `<value>` for a register: refused where it does not fit the register's width. -/
def valueArg (c : Config) (r : Reg) (t : Token) : Option Word :=
  match numOperand c t with
  | some n => if n < 2 ^ r.width then some (BitVec.ofNat 32 n) else none
  | none => none

/-- The bytes of a quoted text, refused where a character has no 8-bit code. DESIGN CHOICE outside ASCII, as
for a character literal (log entry 12). -/
def textBytes : List Char → Option (List Byte)
  | [] => some []
  | c :: cs =>
    if c.toNat ≤ 0xFF then (textBytes cs).map (BitVec.ofNat 8 c.toNat :: ·) else none

/-- A list of bytes separated by commas, at least one. -/
def byteArgs (c : Config) : List Token → Option (List Byte)
  | [t] => (byteArg c t).map ([·])
  | t :: .comma :: rest => do return (← byteArg c t) :: (← byteArgs c rest)
  | _ => none

/-- A register command with a value operand. -/
def regValueLine (c : Config) (mk : Reg → Word → Instr) : List Token → Option (List Instr)
  | [r, .comma, v] => do
    let r ← regName r
    return [mk r (← valueArg c r v)]
  | _ => none

/-- The commands of a SEND line: a text, a byte list, or nothing (30_encoding.md R89). DESIGN CHOICE: a text
stands alone, never in a byte list (log entry 12). -/
def sendLine (c : Config) : List Token → Option (List Instr)
  | [] => some (expand c (.send []))
  | [.text cs] => (textBytes cs).map fun bs => expand c (.send bs)
  | args => (byteArgs c args).map fun bs => expand c (.send bs)

/-- The commands of one line: none for a blank line, the command of a mnemonic, or the expansion of a
pseudo-instruction; anything else is refused (30_encoding.md R86, R87, R89). -/
def lineCommands (c : Config) : List Token → Option (List Instr)
  | [] => some []
  | [.word ['I', 'N', 'I', 'T']] => some [.init]
  | [.word ['P', 'U', 'S', 'H'], sel, .comma, b] => do
    return [.push (← selOperand sel) (← byteArg c b)]
  | [.word ['P', 'O', 'P'], sel] => do return [.pop (← selOperand sel)]
  | [.word ['R', 'R', 'E', 'A', 'D'], r] => do return [.rread (← regName r)]
  | .word ['R', 'W', 'R', 'I', 'T', 'E'] :: args => regValueLine c .rwrite args
  | .word ['R', 'O', 'R'] :: args => regValueLine c .ror args
  | .word ['R', 'A', 'N', 'D', 'C'] :: args => regValueLine c .randc args
  | .word ['S', 'E', 'N', 'D'] :: args => sendLine c args
  | [.word ['A', 'R', 'M', '_', 'T', 'X']] => some (expand c .armTx)
  | [.word ['R', 'E', 'A', 'D'], sel] => do return expand c (.read (← selOperand sel))
  | [.word ['D', 'I', 'S', 'A', 'R', 'M', '_', 'T', 'X']] => some (expand c .disarmTx)
  | _ => none

/-- The commands one line of text stands for; none where the assembler refuses it. -/
def assembleLine (c : Config) (line : List Char) : Option (List Instr) :=
  match tokens .start line with
  | some ts => lineCommands c ts
  | none => none

/-- The words (CMD, OPND) of a program, one line after another. DESIGN CHOICE: one refused line refuses the
program (log entry 12). -/
def assemble (c : Config) : List (List Char) → Option (List (Word × Word))
  | [] => some []
  | line :: rest => do return (← assembleLine c line).map encode ++ (← assemble c rest)

end Machine

end Sys2Proof
end

