-- ==== Sys2Proof/Safety.lean ====
section
/-! DEFINITION. What a safe run is, in the spec's own terms: the launch premises, quiescence, the streams
read from the event history, the invariant every step keeps, and commands run one after another. -/

namespace Sys2Proof.Machine

/-- `CleanLaunch` (70_reset_and_hazards.md R293). -/
structure CleanLaunch (s : State) : Prop where
  life : s.life = .uninit
  faultCause : s.faultCause = 0
  faultInfo : s.faultInfo = 0
  result : s.result = 0
  err : s.err = false
  isrPc : s.isrPc = .idle
  ev : s.ev = []
  split : s.split = none

/-- `ReadyEmpty` (70_reset_and_hazards.md R293). -/
structure ReadyEmpty (s : State) : Prop where
  life : s.life = .ready
  faultCause : s.faultCause = 0
  isrPc : s.isrPc = .idle
  txRc : s.tx.rc = 0
  txWc : s.tx.wc = 0
  rxRc : s.rx.rc = 0
  rxWc : s.rx.wc = 0
  split : s.split = none

/-- `NoFault` (70_reset_and_hazards.md R293). -/
def NoFault (s : State) : Prop := s.life ≠ .faulted

/-- No further command is presented, every one presented has been answered, the ISR is idle and nothing is
split (70_reset_and_hazards.md R311). -/
structure NothingInFlight (s : State) : Prop where
  cmds : s.cmds = []
  isrPc : s.isrPc = .idle
  split : s.split = none

/-- Quiescence: nothing is in flight, or the block is FAULTED, whatever is still presented
(70_reset_and_hazards.md R311). -/
def Quiescent (s : State) : Prop := NothingInFlight s ∨ s.life = .faulted

/-- The run has ended successfully: not FAULTED, and the configuration was not refused
(70_reset_and_hazards.md R312). -/
def EndedSuccessfully (s : State) : Prop := NoFault s ∧ s.cfg.accepted = true

/-- The transmitted byte stream: the bytes written to UART_TXD, in order (60_exceptions.md R268). -/
def transmitted : List Event → List Byte
  | [] => []
  | .wr _ .uartTxd _ _ v :: rest => lowByte v :: transmitted rest
  | _ :: rest => transmitted rest

/-- The received byte stream: the bytes read from UART_RXD, in order (60_exceptions.md R265). -/
def received : List Event → List Byte
  | [] => []
  | .rd _ .uartRxd _ _ v :: rest => lowByte v :: received rest
  | _ :: rest => received rest

/-- The responses in order (60_exceptions.md R277). -/
def responses : List Event → List (Bool × Word)
  | [] => []
  | .resp e v :: rest => (e, v) :: responses rest
  | _ :: rest => responses rest

/-- What the host reads at the end of a run (70_reset_and_hazards.md R312). -/
structure HostView where
  tx : Ring
  rx : Ring
  responses : List (Bool × Word)
  ev : List Event
  transmitted : List Byte
  received : List Byte
  devCtrl : Word
  devImask : Byte
  deriving DecidableEq, Repr

/-- The host's view of a state. -/
def State.hostView (s : State) : HostView where
  tx := s.tx
  rx := s.rx
  responses := Machine.responses s.ev
  ev := s.ev
  transmitted := Machine.transmitted s.ev
  received := Machine.received s.ev
  devCtrl := s.devCtrl
  devImask := s.devImask

/-- The endless IRQ schedule that starves the APP: an IRQ before every step of the block
(70_reset_and_hazards.md R308). -/
structure Starved (s : State) : Prop where
  life : s.life = .ready
  later : s.later = .cycle .irq [.run]
  turn : s.moves = [] ∨ s.moves = [.run] ∧ s.isrPc ≠ .idle

/-- The value the environment gives to the next volatile read (60_exceptions.md R264 to R266). -/
def nextDraw (s : State) : Word := s.draws.head?.getD (Config.freeDraw s.drawCount)

/-- Is a read of the register a draw: every register but the two storage registers (60_exceptions.md R263
to R266)? -/
def isVolatile : Reg → Bool
  | .uartCtrl => false
  | .intMask => false
  | _ => true

/-- What the device answers to a read, register by register, zero-extended (60_exceptions.md R263 to
R266). -/
def deviceAnswer (s : State) : Reg → Word
  | .uartCtrl => s.devCtrl
  | .intMask => zext32 s.devImask
  | .uartStat => nextDraw s
  | .uartTxd => zext32 (lowByte (nextDraw s))
  | .uartRxd => zext32 (lowByte (nextDraw s))
  | .intStat => zext32 (lowByte (nextDraw s))
  | .intAck => zext32 (lowByte (nextDraw s))

/-- The unread bytes of a buffer, oldest first: `occ` slots from the read cursor on
(40_circular_buffer.md R101). -/
def Ring.contents (r : Ring) (cap : Nat) : List Byte :=
  (List.range (r.occ cap)).map fun k => r.store.read ((r.rc + k) % cap)

/-- The state a command leaves when it raises a fault, in the spec's own terms: FAULTED, the cause's code and
the command word latched, ERR = 1, RESULT kept, the fault and the response recorded (60_exceptions.md
R251). -/
def afterFault (cause : FaultCause) (code : Byte) (info : Word) (s : State) : State :=
  { s with
    life := .faulted
    faultCause := code
    faultInfo := info
    err := true
    ev := s.ev ++ [.fault cause info, .resp true s.result] }

/-- The other buffer. -/
def otherSel : Sel → Sel
  | .tx => .rx
  | .rx => .tx

/-- The premises under which PUSH and POP are performed in one step: READY, indivisible ring operations,
and a role the SPSC check admits (60_exceptions.md R252, R258, 40_circular_buffer.md R111). -/
structure RingReady (i : Instr) (s : State) : Prop where
  life : s.life = .ready
  atomic : s.cfg.atomicRingOps = true
  role : s.cfg.strictSpsc = true → wrongRole i = false

/-- The same, with PUSH and POP split (40_circular_buffer.md R112). -/
structure SplitReady (i : Instr) (s : State) : Prop where
  life : s.life = .ready
  split : s.cfg.atomicRingOps = false
  role : s.cfg.strictSpsc = true → wrongRole i = false

/-- What a step of PUSH or POP at one buffer leaves: everything but that buffer, the split command, the
response and the history (40_circular_buffer.md R100, R112). -/
structure RestKept (sel : Sel) (s t : State) : Prop where
  other : t.ring (otherSel sel) = s.ring (otherSel sel)
  cfg : t.cfg = s.cfg
  life : t.life = s.life
  faultCause : t.faultCause = s.faultCause
  faultInfo : t.faultInfo = s.faultInfo
  boundAddr : t.boundAddr = s.boundAddr
  isrPc : t.isrPc = s.isrPc
  isrS : t.isrS = s.isrS
  devCtrl : t.devCtrl = s.devCtrl
  devImask : t.devImask = s.devImask
  cmds : t.cmds = s.cmds
  moves : t.moves = s.moves
  later : t.later = s.later
  moveCount : t.moveCount = s.moveCount
  draws : t.draws = s.draws
  drawCount : t.drawCount = s.drawCount

/-- The slot a split command has taken. -/
def splitSlot : Split → Nat
  | .p2 _ i => i
  | .q2 _ i _ => i
  | .q3 _ i _ _ => i
  | .q4 _ i _ _ => i

/-- A buffer's store is in canonical form and its cursors are below C (10_state.md R22, R23). -/
structure RingOk (cap : Nat) (r : Ring) : Prop where
  store : r.store.wf cap = true
  rc : r.rc < cap
  wc : r.wc < cap

/-- The states of the fill routine. -/
def inFill : IsrPc → Bool
  | .rxAck => true
  | .fillTest => true
  | .fillMove => true
  | _ => false

/-- The states of the drain routine. -/
def inDrain : IsrPc → Bool
  | .txAck => true
  | .drainTrig => true
  | .drainTest => true
  | .drainMove => true
  | .drainEnd => true
  | _ => false

/-- The invariant: every launch of an accepted configuration has it and every step keeps it. -/
structure StateInv (s : State) : Prop where
  /-- The configuration is one the launch accepts (70_reset_and_hazards.md R313). -/
  accepted : s.cfg.accepted = true
  /-- `ring[TX]` is well formed. -/
  tx : RingOk s.cfg.capacity s.tx
  /-- `ring[RX]` is well formed. -/
  rx : RingOk s.cfg.capacity s.rx
  /-- In READY the bound addresses are the platform's (10_state.md R28). -/
  bound : s.life = .ready → s.boundAddr = s.cfg.regAddr
  /-- FAULT_CAUSE is a code of 60_exceptions.md R250, and NONE exactly outside FAULTED (10_state.md R30). -/
  cause : s.faultCause.toNat ≤ 7 ∧ (s.faultCause = 0 ↔ s.life ≠ .faulted)
  /-- FAULT_INFO is 0 outside FAULTED (10_state.md R30). -/
  info : s.life ≠ .faulted → s.faultInfo = 0
  /-- The ISR runs only in READY (60_exceptions.md R260). -/
  isr : s.isrPc ≠ .idle → s.life = .ready
  /-- A command is split only in READY and without ATOMIC_RING_OPS (10_state.md R41 (e)). -/
  split : ∀ p, s.split = some p →
    s.life = .ready ∧ s.cfg.atomicRingOps = false ∧ splitSlot p < s.cfg.capacity
  /-- DRAIN_MOVE is entered only with a byte to move (44_interrupt_handler.md R202). -/
  drainMove : s.isrPc = .drainMove → s.txEmpty = false
  /-- The fill runs only when the latch has the RX bit (44_interrupt_handler.md R209). -/
  fill : inFill s.isrPc = true → bitSet s.isrS s.cfg.intRx = true
  /-- The drain runs only when the latch has the TX bit (44_interrupt_handler.md R209). -/
  drain : inDrain s.isrPc = true → bitSet s.isrS s.cfg.intTx = true

/-- Commands performed one after another with no IRQ between them. -/
def execAll : List Instr → State → Result
  | [], s => .next s
  | i :: rest, s =>
    match exec i s with
    | .next t => execAll rest t
    | .fault f => .fault f
    | .refused r => .refused r

/-- Steps of the ISR agent one after another. -/
def isrSteps : Nat → State → Result
  | 0, s => .next s
  | n + 1, s =>
    match isrStep s with
    | .next t => isrSteps n t
    | .fault f => .fault f
    | .refused r => .refused r

end Sys2Proof.Machine
end

