-- ==== Sys2Proof/Certificates/Slice0/Obligations.lean ====
section
/-! DEFINITION. The statements about the model, each taken from a rule of spec/. A statement about every
state holds for every configuration, every sequence of device answers and every schedule of moves, because
the state carries them. -/

open Sys2Proof Sys2Proof.Machine

/-! Encoding. -/

/-- A few command words written out from the opcode map, legal and illegal (30_encoding.md R77, R80). -/
def Obligations.SpecWordsDecode : Prop :=
  decode 0x10000000 0xFFFFFFFF = .ok .init ∧
  decode 0x20000000 0x12345678 = .ok (.push .tx 0x78) ∧
  decode 0x20010000 0x00000041 = .ok (.push .rx 0x41) ∧
  decode 0x30010000 0x00000000 = .ok (.pop .rx) ∧
  decode 0x46000000 0x00000000 = .ok (.rread .intAck) ∧
  decode 0x56000000 0x00000104 = .ok (.rwrite .intAck 0x04) ∧
  decode 0x50000000 0x12345678 = .ok (.rwrite .uartCtrl 0x12345678) ∧
  decode 0x64000000 0x00000008 = .ok (.ror .intMask 0x08) ∧
  decode 0x74000000 0x00000108 = .ok (.randc .intMask 0x08) ∧
  decode 0x00000000 0x00000000 = .error .illegalOpcode ∧
  decode 0xFFFFFFFF 0x00000000 = .error .illegalOpcode ∧
  decode 0x4F000000 0x00000000 = .error .reservedField ∧
  decode 0x77000001 0x00000000 = .error .reservedField ∧
  decode 0x47000000 0x00000000 = .error .illegalReg

/-- Every well-formed command is what its own words decode to: no bit of an encoding is dropped
(30_encoding.md R71, R75). -/
def Obligations.EncodedCommandDecodesToItself : Prop :=
  ∀ i : Instr, i.wellFormed = true → decode (encode i).1 (encode i).2 = .ok i

/-- A word pair that decodes has the decoded command's own CMD word, and the command took exactly the operand
bits R75 gives it (30_encoding.md R75, R80). -/
def Obligations.DecodedCommandKeepsItsWords : Prop :=
  ∀ (c o : Word) (i : Instr), decode c o = .ok i →
    i.wellFormed = true ∧ cmdWord i = c ∧
    match i with
    | .init => True
    | .push _ b => b.toNat = o.toNat % 2 ^ 8
    | .pop _ => True
    | .rread _ => True
    | .rwrite r v => v.toNat = o.toNat % 2 ^ r.width
    | .ror r m => m.toNat = o.toNat % 2 ^ r.width
    | .randc r m => m.toNat = o.toNat % 2 ^ r.width

/-- R80: the map of legal words by match and mask, the letters `s` and `r` being SEL and REG, and exactly 33
legal words. -/
def Obligations.LegalWordsAreTheOpcodeMap : Prop :=
  (∀ c o : Word, decode c o = .ok .init ↔ c &&& 0xFFFFFFFF = 0x10000000) ∧
  (∀ (c o : Word) (sel : Sel), (∃ b, decode c o = .ok (.push sel b)) ↔
    c &&& 0xFFFEFFFF = 0x20000000 ∧ c.getLsbD 16 = decide (sel = .rx)) ∧
  (∀ (c o : Word) (sel : Sel), decode c o = .ok (.pop sel) ↔
    c &&& 0xFFFEFFFF = 0x30000000 ∧ c.getLsbD 16 = decide (sel = .rx)) ∧
  (∀ (c o : Word) (r : Reg), decode c o = .ok (.rread r) ↔
    c &&& 0xF8FFFFFF = 0x40000000 ∧ c.toNat / 2 ^ 24 % 8 = r.field) ∧
  (∀ (c o : Word) (r : Reg), (∃ v, decode c o = .ok (.rwrite r v)) ↔
    c &&& 0xF8FFFFFF = 0x50000000 ∧ c.toNat / 2 ^ 24 % 8 = r.field) ∧
  (∀ (c o : Word) (r : Reg), (∃ m, decode c o = .ok (.ror r m)) ↔
    c &&& 0xF8FFFFFF = 0x60000000 ∧ c.toNat / 2 ^ 24 % 8 = r.field) ∧
  (∀ (c o : Word) (r : Reg), (∃ m, decode c o = .ok (.randc r m)) ↔
    c &&& 0xF8FFFFFF = 0x70000000 ∧ c.toNat / 2 ^ 24 % 8 = r.field) ∧
  (∀ r : Reg, r.field ≠ 7) ∧
  (∃ words : List Word, words.length = 33 ∧ words.Nodup ∧
    ∀ c o : Word, c ∈ words ↔ ∃ i, decode c o = .ok i)

/-- R81, R82, R84, R253: each kind of illegal word faults with its own cause in every LIFE but FAULTED,
whatever OPND holds, with the word in FAULT_INFO and no other effect. -/
def Obligations.IllegalWordsFaultByCause : Prop :=
  ∀ (c o : Word) (s : State), s.life ≠ .faulted →
    (c.toNat / 2 ^ 28 = 0 ∨ 8 ≤ c.toNat / 2 ^ 28 →
      acceptCommand c o s =
        .next (afterFault .illegalOpcode 1 c { s with ev := s.ev ++ [.cmd c o] })) ∧
    (c.toNat / 2 ^ 28 = 1 ∧ c &&& 0x0FFFFFFF ≠ 0 ∨
      (c.toNat / 2 ^ 28 = 2 ∨ c.toNat / 2 ^ 28 = 3) ∧ c &&& 0x0FFEFFFF ≠ 0 ∨
      (4 ≤ c.toNat / 2 ^ 28 ∧ c.toNat / 2 ^ 28 ≤ 7) ∧ c &&& 0x08FFFFFF ≠ 0 →
      acceptCommand c o s =
        .next (afterFault .reservedField 2 c { s with ev := s.ev ++ [.cmd c o] })) ∧
    ((4 ≤ c.toNat / 2 ^ 28 ∧ c.toNat / 2 ^ 28 ≤ 7) ∧ c &&& 0x08FFFFFF = 0 ∧
      c.toNat / 2 ^ 24 % 8 = 7 →
      acceptCommand c o s =
        .next (afterFault .illegalReg 3 c { s with ev := s.ev ++ [.cmd c o] }))

/-! Steps. -/

/-- What a step of the APP agent is, when the block runs and the ISR is idle. With nothing split it accepts the
words presented, whatever they are, legal or not; where they decode to a command that is `exec` of it on the
state with the words taken and recorded (60_exceptions.md R253, R255). With a command split it is that command's
next step, and the commands presented stay as they are (40_circular_buffer.md R112). The next move and the
state without it are the model's own schedule (log entry 7). -/
def Obligations.StepRunsTheDecodedCommand : Prop :=
  (∀ (s : State) (c o : Word) (rest : List (Word × Word)) (i : Instr),
    s.cfg.accepted = true → s.isrPc = .idle → s.split = none →
    s.nextMove.1 = .run → s.cmds = (c, o) :: rest → decode c o = .ok i →
    step s = exec i { s.nextMove.2 with cmds := rest, ev := s.ev ++ [.cmd c o] }) ∧
  (∀ (s : State) (c o : Word) (rest : List (Word × Word)),
    s.cfg.accepted = true → s.isrPc = .idle → s.split = none →
    s.nextMove.1 = .run → s.cmds = (c, o) :: rest →
    step s = acceptCommand c o { s.nextMove.2 with cmds := rest }) ∧
  (∀ (s : State) (p : Split),
    s.cfg.accepted = true → s.isrPc = .idle → s.split = some p → s.nextMove.1 = .run →
    step s = resume p s.nextMove.2 ∧ ∀ t, step s = .next t → t.cmds = s.cmds)

/-- While the ISR runs, the block's step is the ISR's, the command presented stays where it is, and no response
is given (44_interrupt_handler.md R191). Under a schedule that delivers an IRQ before every step of the block
this goes on for ever: the APP is starved (70_reset_and_hazards.md R308). The schedule is the model's own
(log entry 7). -/
def Obligations.CommandIsHeldWhileIsrRuns : Prop :=
  (∀ s t : State, s.cfg.accepted = true → s.isrPc ≠ .idle → s.nextMove.1 = .run →
    step s = isrStep s.nextMove.2 ∧
    (step s = .next t → t.cmds = s.cmds ∧ t.split = s.split ∧
      responses t.ev = responses s.ev ∧ t.result = s.result ∧ t.err = s.err)) ∧
  (∀ s : State, StateInv s → Starved s → ∃ t, step s = .next t ∧ Starved t ∧
    t.cmds = s.cmds ∧ t.split = s.split ∧
    responses t.ev = responses s.ev ∧ t.result = s.result ∧ t.err = s.err)

/-- When an IRQ is delivered: a fault in UNINIT, an acceptance in READY with the ISR idle (between two
commands or between two split steps), and nothing in every other case (44_interrupt_handler.md R192,
60_exceptions.md R251, R252, R259). -/
def Obligations.IrqIsAcceptedFaultsOrIsIgnored : Prop :=
  ∀ s : State, s.cfg.accepted = true → s.nextMove.1 = .irq →
    step s = .next
      (if s.life = .uninit then
        { s.nextMove.2 with life := .faulted, faultCause := 6, faultInfo := 0,
                            ev := s.ev ++ [.fault .irqNotInit 0] }
      else if s.life = .ready ∧ s.isrPc = .idle then
        { s.nextMove.2 with isrPc := .entry, ev := s.ev ++ [.irq] }
      else s.nextMove.2)

/-- Hardware reset leaves the state of R43, whatever the block was doing: everything the rule gives a value
(70_reset_and_hazards.md R290). What the environment has still to send is the model's own (log entry 7). -/
def Obligations.HardwareResetGivesTheResetState : Prop :=
  ∀ s t : State, s.cfg.accepted = true → s.nextMove.1 = .reset → step s = .next t →
    CleanLaunch t ∧ t.cfg = s.cfg ∧
    t.tx.store = s.cfg.storeInitTx ∧ t.rx.store = s.cfg.storeInitRx ∧
    t.devCtrl = s.cfg.devCtrlInit ∧ t.devImask = s.cfg.devImaskInit ∧
    t.cmds = s.cmds ∧ t.moves = s.nextMove.2.moves ∧ t.later = s.later ∧
    t.moveCount = s.nextMove.2.moveCount ∧ t.draws = s.draws ∧ t.drawCount = s.drawCount

/-- A launch is CleanLaunch and holds what R43 gives it, for every configuration; `State.reset` is the launch
of the default one. -/
def Obligations.LaunchIsClean : Prop :=
  (∀ c : Config, CleanLaunch (State.launch c) ∧
    (State.launch c).tx.store = c.storeInitTx ∧ (State.launch c).rx.store = c.storeInitRx ∧
    (State.launch c).devCtrl = c.devCtrlInit ∧ (State.launch c).devImask = c.devImaskInit) ∧
  State.reset = State.launch Config.default ∧ State.reset.cfg.accepted = true

/-- Which configurations the launch accepts: a capacity of at least 2, bit constants that are single bits and
differ within their register, addresses aligned to the register's width and not overlapping (00_scope.md R5,
20_memory.md R55, R58); and, as the model's own refusals, addresses within ADDR_W bits (log entry 14) and
reset stores of C bytes in canonical form (log entry 4). A refused one has no run and never ends successfully;
an accepted one is never refused (70_reset_and_hazards.md R313). That the refusal is given at each step is the
model's form (log entry 9). -/
def Obligations.OnlyARefusedLaunchIsRefused : Prop :=
  (∀ c : Config, c.accepted = true ↔
    2 ≤ c.capacity ∧
    (∃ i j, i < 8 ∧ j < 8 ∧ i ≠ j ∧ c.intTx.toNat = 2 ^ i ∧ c.intRx.toNat = 2 ^ j) ∧
    (∃ i j k, i < 32 ∧ j < 32 ∧ k < 32 ∧ i ≠ j ∧ i ≠ k ∧ j ≠ k ∧
      c.dataReady.toNat = 2 ^ i ∧ c.fifoFull.toNat = 2 ^ j ∧ c.fifoEmpty.toNat = 2 ^ k) ∧
    (∀ r : Reg, c.regAddr.get r % (r.width / 8) = 0) ∧
    (∀ r q : Reg, r ≠ q → c.regAddr.get r + r.width / 8 ≤ c.regAddr.get q ∨
      c.regAddr.get q + q.width / 8 ≤ c.regAddr.get r) ∧
    (∀ r : Reg, c.regAddr.get r + r.width / 8 ≤ 2 ^ c.addrW) ∧
    c.storeInitTx.wf c.capacity = true ∧ c.storeInitRx.wf c.capacity = true) ∧
  ∀ s : State,
    (s.cfg.accepted = false → step s = .refused .configRefused ∧ ¬ EndedSuccessfully s) ∧
    (s.cfg.accepted = true → ∀ r, step s ≠ .refused r)

/-- In a quiescent state the only step the block can take is the acceptance of an IRQ. With nothing in flight
it stays as it is when it runs, and the host reads the same; a FAULTED block is quiescent too: it accepts no
IRQ and answers each further command with ERR = 1 alone, and its run has not ended successfully
(70_reset_and_hazards.md R311, R312). The schedule is the model's own (log entry 7). -/
def Obligations.QuiescentBlockStays : Prop :=
  (∀ s : State, s.cfg.accepted = true → NothingInFlight s → s.nextMove.1 = .run →
    step s = .next s.nextMove.2 ∧ s.nextMove.2.hostView = s.hostView) ∧
  (∀ s : State, StateInv s → s.life = .faulted →
    Quiescent s ∧ ¬ EndedSuccessfully s ∧
    (s.nextMove.1 = .irq → step s = .next s.nextMove.2) ∧
    (s.nextMove.1 = .run → s.cmds = [] → step s = .next s.nextMove.2) ∧
    (∀ c o rest, s.nextMove.1 = .run → s.cmds = (c, o) :: rest →
      step s = .next { s.nextMove.2 with
        cmds := rest
        err := true
        ev := s.ev ++ [.cmd c o, .resp true s.result] })) ∧
  (∀ s t : State, StateInv s → Quiescent s → s.nextMove.1 ≠ .reset → step s = .next t →
    t.tx = s.tx ∧ t.rx = s.rx ∧ t.devCtrl = s.devCtrl ∧ t.devImask = s.devImask ∧
    (s.life = .ready → s.nextMove.1 = .run → t.isrPc = .idle ∧ t.ev = s.ev) ∧
    (s.life = .ready → s.nextMove.1 = .irq → t.isrPc = .entry ∧ t.ev = s.ev ++ [.irq]))

/-! INIT. -/

/-- R230: INIT is the one word 0x10000000, whatever OPND holds, in each LIFE. In UNINIT it binds the addresses,
puts all four cursors at 0 and enters READY; in READY it faults with REINIT; in FAULTED it answers ERR = 1. -/
def Obligations.InitBindsAndResetsCursors : Prop :=
  (∀ c o : Word, decode c o = .ok .init ↔ c = 0x10000000) ∧
  ∀ s : State, exec .init s = .next
    (match s.life with
    | .uninit =>
      { s with
        boundAddr := s.cfg.regAddr
        tx := { store := s.tx.store, rc := 0, wc := 0 }
        rx := { store := s.rx.store, rc := 0, wc := 0 }
        life := .ready
        result := 0
        err := false
        ev := s.ev ++ [.resp false 0] }
    | .ready => afterFault .reinit 5 0x10000000 s
    | .faulted => { s with err := true, ev := s.ev ++ [.resp true s.result] })

/-- R254: a second INIT faults with REINIT, and the cursors, the storage and BOUND_ADDR keep their values; from
then on the block is FAULTED, whatever command or IRQ comes. -/
def Obligations.SecondInitFaultsWithReinit : Prop :=
  ∀ s : State, s.life = .ready →
    ∃ t, exec .init s = .next t ∧ t.life = .faulted ∧ t.faultCause = 5 ∧ t.faultInfo = 0x10000000 ∧
      t.err = true ∧ t.tx = s.tx ∧ t.rx = s.rx ∧ t.boundAddr = s.boundAddr ∧
      (∀ c o u, acceptCommand c o t = .next u → u.life = .faulted) ∧ irqArrives t = t

/-- From CleanLaunch, INIT leads to ReadyEmpty, with the storages and the device registers as they were
(70_reset_and_hazards.md R291, R293). -/
def Obligations.InitLeadsFromCleanLaunchToReadyEmpty : Prop :=
  ∀ s : State, CleanLaunch s →
    ∃ t, exec .init s = .next t ∧ ReadyEmpty t ∧ NoFault t ∧
      t.tx.store = s.tx.store ∧ t.rx.store = s.rx.store ∧
      t.devCtrl = s.devCtrl ∧ t.devImask = s.devImask ∧
      t.boundAddr = s.cfg.regAddr ∧ t.result = 0 ∧ t.err = false

/-- The frame of INIT: whatever it answers, no byte of either store, no device register, no interrupt state
and no device answer changes, and EV gains no bus access (45_init.md R232). -/
def Obligations.InitFrame : Prop :=
  ∀ s t : State, exec .init s = .next t →
    (∀ sel a, (t.ring sel).store.read a = (s.ring sel).store.read a) ∧
    t.devCtrl = s.devCtrl ∧ t.devImask = s.devImask ∧
    t.isrPc = s.isrPc ∧ t.isrS = s.isrS ∧ t.split = s.split ∧ t.cfg = s.cfg ∧
    t.cmds = s.cmds ∧ t.moves = s.moves ∧ t.later = s.later ∧ t.moveCount = s.moveCount ∧
    t.draws = s.draws ∧ t.drawCount = s.drawCount ∧
    (∀ ctx r a w v, Event.rd ctx r a w v ∈ t.ev → Event.rd ctx r a w v ∈ s.ev) ∧
    (∀ ctx r a w v, Event.wr ctx r a w v ∈ t.ev → Event.wr ctx r a w v ∈ s.ev)

/-! PUSH and POP. -/

/-- PUSH in one step: the byte is stored at the write cursor, which advances modulo C; the response is
success, whatever the occupancy (40_circular_buffer.md R102, R103). -/
def Obligations.PushStoresAndAdvances : Prop :=
  ∀ (s : State) (sel : Sel) (b : Byte), StateInv s → RingReady (.push sel b) s →
    ∃ t, exec (.push sel b) s = .next t ∧
      (t.ring sel).store.read (s.ring sel).wc = b ∧
      (t.ring sel).wc = ((s.ring sel).wc + 1) % s.cfg.capacity ∧
      (t.ring sel).rc = (s.ring sel).rc ∧
      t.result = 0 ∧ t.err = false ∧ t.ev = s.ev ++ [.resp false 0] ∧ t.split = s.split

/-- The frame of PUSH, in every LIFE and in both forms (whole or split): only the selected buffer's slot at
its write cursor and its write cursor may change. -/
def Obligations.PushFrame : Prop :=
  ∀ (s t : State) (sel : Sel) (b : Byte), exec (.push sel b) s = .next t →
    t.ring (otherSel sel) = s.ring (otherSel sel) ∧
    (t.ring sel).rc = (s.ring sel).rc ∧
    (∀ a, a ≠ (s.ring sel).wc → (t.ring sel).store.read a = (s.ring sel).store.read a) ∧
    (s.life ≠ .faulted ∧ t.life = .faulted ∨
      t.life = s.life ∧ t.faultCause = s.faultCause ∧ t.faultInfo = s.faultInfo) ∧
    (s.life = .uninit → t.life = .faulted ∧ t.faultCause = 4 ∧ t.faultInfo = cmdWord (.push sel b)) ∧
    (t.life ≠ s.life ∨ s.life = .faulted → t.ring sel = s.ring sel ∧ t.result = s.result) ∧
    t.boundAddr = s.boundAddr ∧ t.devCtrl = s.devCtrl ∧ t.devImask = s.devImask ∧
    t.isrPc = s.isrPc ∧ t.isrS = s.isrS ∧ t.cfg = s.cfg ∧
    t.cmds = s.cmds ∧ t.moves = s.moves ∧ t.later = s.later ∧ t.moveCount = s.moveCount ∧
    t.draws = s.draws ∧ t.drawCount = s.drawCount

/-- What PUSH does to the occupancy and to the unread bytes: one more at the end, or, from C - 1, none at all
(40_circular_buffer.md R101, R103). -/
def Obligations.PushRaisesOccupancyOrEmpties : Prop :=
  ∀ (s t : State) (sel : Sel) (b : Byte), StateInv s → RingReady (.push sel b) s →
    exec (.push sel b) s = .next t →
    (t.ring sel).occ s.cfg.capacity = ((s.ring sel).occ s.cfg.capacity + 1) % s.cfg.capacity ∧
    (t.ring sel).contents s.cfg.capacity =
      if (s.ring sel).occ s.cfg.capacity + 1 = s.cfg.capacity then []
      else (s.ring sel).contents s.cfg.capacity ++ [b]

/-- POP in one step: RESULT is found and the byte at the read cursor, found being that the cursors differ
(40_circular_buffer.md R104, R105). -/
def Obligations.PopReturnsByteAndFound : Prop :=
  ∀ (s : State) (sel : Sel), StateInv s → RingReady (.pop sel) s →
    ∃ t, exec (.pop sel) s = .next t ∧
      t.result.toNat = (if (s.ring sel).rc = (s.ring sel).wc then 0 else 2 ^ 8) +
        ((s.ring sel).store.read (s.ring sel).rc).toNat ∧
      foundFlag t.result = decide ((s.ring sel).rc ≠ (s.ring sel).wc) ∧
      t.err = false ∧ t.ev = s.ev ++ [.resp false t.result] ∧
      (t.ring sel).wc = (s.ring sel).wc ∧ t.split = s.split

/-- R106: every POP, found or empty, writes 0 into the slot at the read cursor, and advances the cursor by one
modulo C exactly when the buffer was not empty; whole at the APP port, in the steps Q2 to Q4 of a split POP
(Q2 tests emptiness, Q3 clears, Q4 advances), and in the ISR's DRAIN_MOVE, whose buffer is never empty. -/
def Obligations.PopClearsSlotAndAdvancesIfFound : Prop :=
  (∀ (s t : State) (sel : Sel), StateInv s → RingReady (.pop sel) s → exec (.pop sel) s = .next t →
    (t.ring sel).store.read (s.ring sel).rc = 0 ∧
    (t.ring sel).rc =
      if (s.ring sel).rc = (s.ring sel).wc then (s.ring sel).rc
      else ((s.ring sel).rc + 1) % s.cfg.capacity) ∧
  (∀ (s : State) (sel : Sel) (i : Nat) (v : Byte), resume (.q2 sel i v) s =
    .next { s with split := some (.q3 sel i v (decide (i = (s.ring sel).wc))) }) ∧
  (∀ (s t : State) (sel : Sel) (i : Nat) (v : Byte) (e : Bool), StateInv s →
    s.split = some (.q3 sel i v e) → resume (.q3 sel i v e) s = .next t →
    (t.ring sel).store.read i = 0 ∧ (t.ring sel).rc = (s.ring sel).rc) ∧
  (∀ (s t : State) (sel : Sel) (i : Nat) (v : Byte) (e : Bool),
    resume (.q4 sel i v e) s = .next t →
    (t.ring sel).store = (s.ring sel).store ∧
    (t.ring sel).rc = if e then (s.ring sel).rc else (i + 1) % s.cfg.capacity) ∧
  (∀ s t : State, StateInv s → s.isrPc = .drainMove → isrStep s = .next t →
    s.tx.rc ≠ s.tx.wc ∧ t.tx.store.read s.tx.rc = 0 ∧ t.tx.rc = (s.tx.rc + 1) % s.cfg.capacity)

/-- The frame of POP, in every LIFE and in both forms: only the selected buffer's slot at its read cursor and
its read cursor may change. -/
def Obligations.PopFrame : Prop :=
  ∀ (s t : State) (sel : Sel), exec (.pop sel) s = .next t →
    t.ring (otherSel sel) = s.ring (otherSel sel) ∧
    (t.ring sel).wc = (s.ring sel).wc ∧
    (∀ a, a ≠ (s.ring sel).rc → (t.ring sel).store.read a = (s.ring sel).store.read a) ∧
    (s.life ≠ .faulted ∧ t.life = .faulted ∨
      t.life = s.life ∧ t.faultCause = s.faultCause ∧ t.faultInfo = s.faultInfo) ∧
    (s.life = .uninit → t.life = .faulted ∧ t.faultCause = 4 ∧ t.faultInfo = cmdWord (.pop sel)) ∧
    (t.life ≠ s.life ∨ s.life = .faulted → t.ring sel = s.ring sel ∧ t.result = s.result) ∧
    t.boundAddr = s.boundAddr ∧ t.devCtrl = s.devCtrl ∧ t.devImask = s.devImask ∧
    t.isrPc = s.isrPc ∧ t.isrS = s.isrS ∧ t.cfg = s.cfg ∧
    t.cmds = s.cmds ∧ t.moves = s.moves ∧ t.later = s.later ∧ t.moveCount = s.moveCount ∧
    t.draws = s.draws ∧ t.drawCount = s.drawCount

/-- R113: on an empty buffer any number of POPs in a row answer found 0 and leave both cursors; the first
gives the stale byte, every later one 0. -/
def Obligations.EmptyPopsAreIdempotent : Prop :=
  ∀ (s : State) (sel : Sel) (n : Nat), StateInv s → RingReady (.pop sel) s →
    (s.ring sel).rc = (s.ring sel).wc →
    ∃ t, execAll (List.replicate (n + 1) (.pop sel)) s = .next t ∧
      (t.ring sel).rc = (s.ring sel).rc ∧ (t.ring sel).wc = (s.ring sel).wc ∧
      responses t.ev = responses s.ev ++
        (false, zext32 ((s.ring sel).store.read (s.ring sel).rc)) :: List.replicate n (false, 0)

/-- FIFO order: for N up to C - 1, N PUSHes into an empty buffer and then N POPs return the bytes in order,
each found, and leave the buffer empty with both cursors advanced by N modulo C (40_circular_buffer.md
R109). -/
def Obligations.PushesThenPopsAreFirstInFirstOut : Prop :=
  ∀ (s : State) (sel : Sel) (bs : List Byte), StateInv s → RingReady (.push sel 0) s → RingReady (.pop sel) s →
    (s.ring sel).rc = (s.ring sel).wc → bs.length + 1 ≤ s.cfg.capacity →
    ∃ t, execAll (bs.map (.push sel) ++ List.replicate bs.length (.pop sel)) s = .next t ∧
      responses t.ev = responses s.ev ++ List.replicate bs.length (false, 0) ++
        bs.map (fun b => (false, 0x100 ||| zext32 b)) ∧
      (t.ring sel).rc = ((s.ring sel).rc + bs.length) % s.cfg.capacity ∧
      (t.ring sel).wc = ((s.ring sel).wc + bs.length) % s.cfg.capacity ∧
      (t.ring sel).empty = true

/-- The exact outcome of an overrun: after k PUSHes into a buffer empty at j, `wc` is j + k, `rc` is j, the
occupancy is k modulo C, and slot j + m holds the last byte written there; success is reported throughout
(40_circular_buffer.md R103, R114). -/
def Obligations.OverrunOutcomeIsExact : Prop :=
  ∀ (s : State) (sel : Sel) (bs : List Byte), StateInv s → RingReady (.push sel 0) s →
    (s.ring sel).rc = (s.ring sel).wc →
    ∃ t, execAll (bs.map (.push sel)) s = .next t ∧
      (t.ring sel).wc = ((s.ring sel).wc + bs.length) % s.cfg.capacity ∧
      (t.ring sel).rc = (s.ring sel).rc ∧
      (t.ring sel).occ s.cfg.capacity = bs.length % s.cfg.capacity ∧
      (∀ m (hm : m < bs.length), bs.length ≤ m + s.cfg.capacity →
        (t.ring sel).store.read (((s.ring sel).wc + m) % s.cfg.capacity) = bs[m]) ∧
      responses t.ev = responses s.ev ++ List.replicate bs.length (false, 0)

/-- The first step of a split PUSH stores the byte in the slot at `wc` and leaves both cursors and the unread
bytes as they are, with P2 to come and no response given; P2, from every state, advances `wc` from where it
then stands and responds. The first step of a split POP only takes `rc` and the byte there; Q3, from every
state, changes no slot but its own and no cursor; Q4 advances `rc` from the index Q1 took, unless Q2 found the
buffer empty, and responds with that and the byte Q1 took. Each of them leaves the rest of the machine as it
is. A split PUSH or POP that nothing interrupts ends in the state the indivisible one gives
(40_circular_buffer.md R111, R112, 70_reset_and_hazards.md R304). -/
def Obligations.UninterruptedSplitEqualsAtomic : Prop :=
  (∀ (s : State) (sel : Sel) (b : Byte), StateInv s → SplitReady (.push sel b) s →
    ∃ u, exec (.push sel b) s = .next u ∧
      (u.ring sel).store.read (s.ring sel).wc = b ∧
      (∀ a, a ≠ (s.ring sel).wc → (u.ring sel).store.read a = (s.ring sel).store.read a) ∧
      (u.ring sel).wc = (s.ring sel).wc ∧ (u.ring sel).rc = (s.ring sel).rc ∧
      (u.ring sel).contents s.cfg.capacity = (s.ring sel).contents s.cfg.capacity ∧
      u.split = some (.p2 sel (s.ring sel).wc) ∧
      u.ev = s.ev ∧ u.result = s.result ∧ u.err = s.err ∧ RestKept sel s u) ∧
  (∀ (s : State) (sel : Sel) (i : Nat), ∃ t, resume (.p2 sel i) s = .next t ∧
    t.split = none ∧ (t.ring sel).wc = ((s.ring sel).wc + 1) % s.cfg.capacity ∧
    (t.ring sel).rc = (s.ring sel).rc ∧ (t.ring sel).store = (s.ring sel).store ∧
    t.result = 0 ∧ t.err = false ∧ t.ev = s.ev ++ [.resp false 0] ∧ RestKept sel s t) ∧
  (∀ (s : State) (sel : Sel), StateInv s → SplitReady (.pop sel) s →
    exec (.pop sel) s = .next { s with
      split := some (.q2 sel (s.ring sel).rc ((s.ring sel).store.read (s.ring sel).rc)) }) ∧
  (∀ (s : State) (sel : Sel) (i : Nat) (v : Byte) (e : Bool), i < s.cfg.capacity →
    ∃ t, resume (.q3 sel i v e) s = .next t ∧ t.split = some (.q4 sel i v e) ∧
      (∀ a, a ≠ i → (t.ring sel).store.read a = (s.ring sel).store.read a) ∧
      (t.ring sel).rc = (s.ring sel).rc ∧ (t.ring sel).wc = (s.ring sel).wc ∧
      t.ev = s.ev ∧ t.result = s.result ∧ t.err = s.err ∧ RestKept sel s t) ∧
  (∀ (s : State) (sel : Sel) (i : Nat) (v : Byte) (e : Bool),
    ∃ t, resume (.q4 sel i v e) s = .next t ∧ t.split = none ∧
      (t.ring sel).store = (s.ring sel).store ∧ (t.ring sel).wc = (s.ring sel).wc ∧
      (t.ring sel).rc = (if e then (s.ring sel).rc else (i + 1) % s.cfg.capacity) ∧
      t.result.toNat = (if e then 0 else 2 ^ 8) + v.toNat ∧ t.err = false ∧
      t.ev = s.ev ++ [.resp false t.result] ∧ RestKept sel s t) ∧
  (∀ (s : State) (sel : Sel) (b : Byte), StateInv s → SplitReady (.push sel b) s → s.split = none →
    ∃ u t p, exec (.push sel b) s = .next u ∧ u.split = some p ∧ resume p u = .next t ∧
      exec (.push sel b) { s with cfg := { s.cfg with atomicRingOps := true } } =
        .next { t with cfg := { s.cfg with atomicRingOps := true } }) ∧
  (∀ (s : State) (sel : Sel), StateInv s → SplitReady (.pop sel) s → s.split = none →
    ∃ u₁ u₂ u₃ t p₁ p₂ p₃, exec (.pop sel) s = .next u₁ ∧ u₁.split = some p₁ ∧
      resume p₁ u₁ = .next u₂ ∧ u₂.split = some p₂ ∧ resume p₂ u₂ = .next u₃ ∧
      u₃.split = some p₃ ∧ resume p₃ u₃ = .next t ∧
      exec (.pop sel) { s with cfg := { s.cfg with atomicRingOps := true } } =
        .next { t with cfg := { s.cfg with atomicRingOps := true } })

/-- The two races of a split POP RX on an empty buffer with an ISR PUSH of `b` inside it: between Q1 and Q2
the stale byte is returned as data; between Q2 and Q3 it is returned as empty and the next POP returns a 0 as
data. The byte `b` is lost both times (70_reset_and_hazards.md R303). -/
def Obligations.SplitPopRacesLoseTheByte : Prop :=
  ∀ (s u₁ : State) (b : Byte), StateInv s → SplitReady (.pop .rx) s →
    s.rx.rc = s.rx.wc → exec (.pop .rx) s = .next u₁ →
    (∃ p₁ u₂ p₂ v p₃ w t, u₁.split = some p₁ ∧ pushByte .rx b u₁ = .ok u₂ ∧
      resume p₁ u₂ = .next v ∧ v.split = some p₂ ∧ resume p₂ v = .next w ∧
      w.split = some p₃ ∧ resume p₃ w = .next t ∧
      t.result = 0x100 ||| zext32 (s.rx.store.read s.rx.rc) ∧
      t.rx.empty = true ∧ t.rx.store.read s.rx.rc = 0) ∧
    (∃ p₁ u₂ p₂ v p₃ w t, u₁.split = some p₁ ∧ resume p₁ u₁ = .next u₂ ∧
      u₂.split = some p₂ ∧ pushByte .rx b u₂ = .ok v ∧ resume p₂ v = .next w ∧
      w.split = some p₃ ∧ resume p₃ w = .next t ∧
      t.result = zext32 (s.rx.store.read s.rx.rc) ∧
      t.rx.contents s.cfg.capacity = [0])

/-! The register commands. -/

/-- RREAD: one read; RESULT is what the device answers at the register's width, zero-extended: the stored
value of the two storage registers, a fresh draw for every other one (41_register_interface.md R130,
R131). That bit 8 of a 32-bit register's answer stands in RESULT[8] is the model's reading of R130 against
10_state.md R31 (log entry 11, DEDUCED). The free value, where `draws` is empty, is the environment's (log
entry 8). -/
def Obligations.RreadReturnsTheDeviceAnswer : Prop :=
  ∀ (s : State) (r : Reg), s.life = .ready →
    ∃ t, exec (.rread r) s = .next t ∧
      t.result = deviceAnswer s r ∧ t.err = false ∧
      t.result.toNat < 2 ^ r.width ∧
      t.ev = s.ev ++
        [.rd .app r (s.boundAddr.get r) r.width (deviceAnswer s r), .resp false (deviceAnswer s r)] ∧
      t.draws = (if isVolatile r then s.draws.tail else s.draws) ∧
      t.drawCount = (if isVolatile r then s.drawCount + 1 else s.drawCount) ∧
      t.devCtrl = s.devCtrl ∧ t.devImask = s.devImask

/-- RWRITE: one write of the operand cut to the register's width; the two storage registers keep it, no other
write changes a state the rules read (41_register_interface.md R133, R134, 60_exceptions.md R263, R270). -/
def Obligations.RwriteWritesTheOperand : Prop :=
  ∀ (s : State) (r : Reg) (v : Word), s.life = .ready →
    ∃ t, exec (.rwrite r v) s = .next t ∧
      t.result = 0 ∧ t.err = false ∧
      t.ev = s.ev ++
        [.wr .app r (s.boundAddr.get r) r.width (BitVec.ofNat 32 (v.toNat % 2 ^ r.width)),
         .resp false 0] ∧
      t.devCtrl = (if r = .uartCtrl then v else s.devCtrl) ∧
      t.devImask = (if r = .intMask then v.extractLsb' 0 8 else s.devImask) ∧
      t.draws = s.draws ∧ t.drawCount = s.drawCount

/-- ROR: one locked read and write back with the operand's bits set (41_register_interface.md R136 to
R138). -/
def Obligations.RorSetsBits : Prop :=
  ∀ (s : State) (r : Reg) (m : Word), s.life = .ready →
    ∃ t w, exec (.ror r m) s = .next t ∧
      w = deviceAnswer s r ||| BitVec.ofNat 32 (m.toNat % 2 ^ r.width) ∧
      t.result = 0 ∧ t.err = false ∧
      t.ev = s.ev ++
        [.rd .app r (s.boundAddr.get r) r.width (deviceAnswer s r),
         .wr .app r (s.boundAddr.get r) r.width w, .resp false 0] ∧
      t.devCtrl = (if r = .uartCtrl then s.devCtrl ||| m else s.devCtrl) ∧
      t.devImask = (if r = .intMask then s.devImask ||| m.extractLsb' 0 8 else s.devImask) ∧
      t.draws = (if isVolatile r then s.draws.tail else s.draws) ∧
      t.drawCount = (if isVolatile r then s.drawCount + 1 else s.drawCount)

/-- RANDC: one locked read and write back with the operand's bits cleared (41_register_interface.md R140 to
R142). -/
def Obligations.RandcClearsBits : Prop :=
  ∀ (s : State) (r : Reg) (m : Word), s.life = .ready →
    ∃ t w, exec (.randc r m) s = .next t ∧
      w = deviceAnswer s r &&& ~~~(BitVec.ofNat 32 (m.toNat % 2 ^ r.width)) ∧
      t.result = 0 ∧ t.err = false ∧
      t.ev = s.ev ++
        [.rd .app r (s.boundAddr.get r) r.width (deviceAnswer s r),
         .wr .app r (s.boundAddr.get r) r.width w, .resp false 0] ∧
      t.devCtrl = (if r = .uartCtrl then s.devCtrl &&& ~~~m else s.devCtrl) ∧
      t.devImask = (if r = .intMask then s.devImask &&& ~~~(m.extractLsb' 0 8) else s.devImask) ∧
      t.draws = (if isVolatile r then s.draws.tail else s.draws) ∧
      t.drawCount = (if isVolatile r then s.drawCount + 1 else s.drawCount)

/-- The frame of the four register commands, in every LIFE: neither buffer and no byte of a store changes, nor
BOUND_ADDR, the interrupt state, or a storage register that is not the one written (20_memory.md R50,
41_register_interface.md R144). -/
def Obligations.RegisterCommandFrame : Prop :=
  ∀ (s t : State) (r : Reg) (v : Word) (i : Instr),
    i = .rread r ∨ i = .rwrite r v ∨ i = .ror r v ∨ i = .randc r v → exec i s = .next t →
    t.tx = s.tx ∧ t.rx = s.rx ∧
    (∀ sel a, (t.ring sel).store.read a = (s.ring sel).store.read a) ∧
    (r ≠ .uartCtrl ∨ i = .rread r → t.devCtrl = s.devCtrl) ∧
    (r ≠ .intMask ∨ i = .rread r → t.devImask = s.devImask) ∧
    (s.life ≠ .uninit → t.life = s.life ∧ t.faultCause = s.faultCause ∧ t.faultInfo = s.faultInfo) ∧
    (s.life = .uninit → t.life = .faulted ∧ t.faultCause = 4 ∧ t.faultInfo = cmdWord i) ∧
    t.boundAddr = s.boundAddr ∧ t.isrPc = s.isrPc ∧ t.isrS = s.isrS ∧ t.split = s.split ∧
    t.cfg = s.cfg ∧ t.cmds = s.cmds ∧ t.moves = s.moves ∧ t.later = s.later ∧
    t.moveCount = s.moveCount ∧
    (isVolatile r = false → t.draws = s.draws ∧ t.drawCount = s.drawCount)

/-- A storage register answers a read with the last value written to it (60_exceptions.md R263). That RESULT
holds all 32 bits of UART_CTRL, bit 8 among them, is the model's reading of R130 against 10_state.md R31 (log
entry 11, DEDUCED). -/
def Obligations.StorageRegisterReadsBackLastWrite : Prop :=
  ∀ (s : State) (r : Reg) (v : Word), s.life = .ready → r = .uartCtrl ∨ r = .intMask →
    ∃ t, execAll [.rwrite r v, .rread r] s = .next t ∧
      t.result.toNat = v.toNat % 2 ^ r.width

/-! Faults. -/

/-- R252: in UNINIT every command but INIT faults with NOT_INIT, and an IRQ faults with IRQ_NOT_INIT, starts
no ISR, makes no bus access and records no Irq. -/
def Obligations.UseBeforeInitFaults : Prop :=
  (∀ (s : State) (i : Instr), s.life = .uninit → i ≠ .init →
    exec i s = .next (afterFault .notInit 4 (cmdWord i) s)) ∧
  (∀ s : State, s.life = .uninit → irqArrives s =
    { s with life := .faulted, faultCause := 6, faultInfo := 0,
             ev := s.ev ++ [.fault .irqNotInit 0] })

/-- With STRICT_SPSC an APP PUSH RX or POP TX faults with SPSC_VIOLATION and does nothing else; the other two
roles are never faulted for it (60_exceptions.md R258). -/
def Obligations.WrongRoleFaultsWhenStrict : Prop :=
  ∀ (s : State) (b : Byte), s.life = .ready → s.cfg.strictSpsc = true →
    exec (.push .rx b) s = .next (afterFault .spscViolation 7 0x20010000 s) ∧
    exec (.pop .tx) s = .next (afterFault .spscViolation 7 0x30000000 s) ∧
    (∀ t, exec (.push .tx b) s = .next t → t.life = .ready) ∧
    (∀ t, exec (.pop .rx) s = .next t → t.life = .ready)

/-- R79: a command that faults, and every command presented in FAULTED, is answered ERR = 1 with RESULT
unchanged. -/
def Obligations.FaultingCommandKeepsResult : Prop :=
  ∀ (c o : Word) (s : State),
    (s.life = .faulted → acceptCommand c o s = .next
      { s with err := true, ev := s.ev ++ [.cmd c o, .resp true s.result] }) ∧
    (∀ t, acceptCommand c o s = .next t → s.life ≠ .faulted → t.life = .faulted →
      t.err = true ∧ t.result = s.result ∧
      ∃ cause, t.ev = s.ev ++ [.cmd c o, .fault cause c, .resp true s.result])

/-- FAULTED is left by hardware reset alone: every other step keeps it and changes nothing of the block but
ERR and the history (60_exceptions.md R251, 10_state.md R30). -/
def Obligations.OnlyResetLeavesFaulted : Prop :=
  ∀ s t : State, StateInv s → s.life = .faulted → s.nextMove.1 ≠ .reset → step s = .next t →
    t.life = .faulted ∧ t.faultCause = s.faultCause ∧ t.faultInfo = s.faultInfo ∧
    t.tx = s.tx ∧ t.rx = s.rx ∧ t.boundAddr = s.boundAddr ∧ t.result = s.result ∧
    t.isrPc = s.isrPc ∧ t.isrS = s.isrS ∧ t.split = s.split ∧
    t.devCtrl = s.devCtrl ∧ t.devImask = s.devImask ∧ t.draws = s.draws ∧ ¬ EndedSuccessfully t ∧
    received t.ev = received s.ev ∧ transmitted t.ev = transmitted s.ev

/-- LIFE over any step: only reset leads back to UNINIT, only the step that ends INIT leads to READY, and a
fault is recorded whenever FAULTED is entered (10_state.md R21). -/
def Obligations.LifecycleOnlyMovesForward : Prop :=
  ∀ s t : State, step s = .next t → s.nextMove.1 ≠ .reset →
    (t.life = .uninit → s.life = .uninit) ∧
    (t.life = .ready → s.life = .ready ∨ s.life = .uninit ∧ ∃ o, s.cmds.head? = some (0x10000000, o)) ∧
    (s.life = .faulted → t.life = .faulted) ∧
    (t.life = .faulted → s.life = .faulted ∨ ∃ cause info, Event.fault cause info ∈ t.ev ∧
      t.faultCause = cause.code ∧ t.faultInfo = info)

/-! The interrupt sequencer. -/

/-- R193: ENTRY latches one read of INT_STAT, with a draw of its own, and dispatches on its RX bit; TX_TEST tests the TX bit of the
latch, with no access at all; and no other state of the sequencer writes the latch, leads to ENTRY or appends
a read of INT_STAT to the history. -/
def Obligations.IsrEntryLatchesStatusOnce : Prop :=
  (∀ s : State, s.isrPc = .entry → ∃ t, isrStep s = .next t ∧
    t.isrS = lowByte (nextDraw s) ∧
    t.ev = s.ev ++ [.rd .isr .intStat (s.boundAddr.get .intStat) 8 (zext32 t.isrS)] ∧
    t.isrPc = (if t.isrS &&& s.cfg.intRx = 0 then .txTest else .rxAck) ∧
    t.draws = s.draws.tail ∧ t.drawCount = s.drawCount + 1) ∧
  (∀ s : State, s.isrPc = .txTest → isrStep s = .next { s with
    isrPc := if s.isrS &&& s.cfg.intTx = 0 then .ret else .txAck }) ∧
  (∀ s t : State, s.isrPc ≠ .entry → isrStep s = .next t →
    t.isrS = s.isrS ∧ t.isrPc ≠ .entry ∧
    ∃ more, t.ev = s.ev ++ more ∧ ∀ ctx a w v, Event.rd ctx .intStat a w v ∉ more)

/-- R194, R199: RX_ACK and TX_ACK write the single bit to INT_ACK and go on to the routine, whatever follows. -/
def Obligations.IsrAcknowledgesBeforeServing : Prop :=
  ∀ s : State,
    (s.isrPc = .rxAck → isrStep s = .next { s with
      isrPc := .fillTest
      ev := s.ev ++ [.wr .isr .intAck (s.boundAddr.get .intAck) 8 (zext32 s.cfg.intRx)] }) ∧
    (s.isrPc = .txAck → isrStep s = .next { s with
      isrPc := .drainTrig
      ev := s.ev ++ [.wr .isr .intAck (s.boundAddr.get .intAck) 8 (zext32 s.cfg.intTx)] })

/-- R195, R196: FILL_TEST reads UART_STAT afresh and goes to FILL_MOVE exactly when DATA_READY is set; FILL_MOVE
pushes the received byte into `ring[RX]`, whatever the occupancy, with no response, and goes to FILL_TEST. -/
def Obligations.IsrFillMovesReceivedBytes : Prop :=
  (∀ s : State, s.isrPc = .fillTest → isrStep s = .next { s with
    isrPc := if nextDraw s &&& s.cfg.dataReady = 0 then .txTest else .fillMove
    ev := s.ev ++ [.rd .isr .uartStat (s.boundAddr.get .uartStat) 32 (nextDraw s)]
    draws := s.draws.tail
    drawCount := s.drawCount + 1 }) ∧
  (∀ s : State, StateInv s → s.isrPc = .fillMove → ∃ t, isrStep s = .next t ∧
    t.ev = s.ev ++ [.rd .isr .uartRxd (s.boundAddr.get .uartRxd) 8 (zext32 (lowByte (nextDraw s)))] ∧
    t.rx.store.read s.rx.wc = lowByte (nextDraw s) ∧
    (∀ a, a ≠ s.rx.wc → t.rx.store.read a = s.rx.store.read a) ∧
    t.rx.wc = (s.rx.wc + 1) % s.cfg.capacity ∧ t.rx.rc = s.rx.rc ∧
    t.isrPc = .fillTest ∧ t.draws = s.draws.tail ∧
    t.result = s.result ∧ t.err = s.err ∧ t.tx = s.tx)

/-- R198, R200: TX_TEST tests the latch with no bus access; DRAIN_TRIG goes on exactly when a fresh UART_STAT
read has XMT_FIFO_EMPTY. -/
def Obligations.IsrDrainStartsOnEmptyTrigger : Prop :=
  (∀ s : State, s.isrPc = .txTest → isrStep s = .next { s with
    isrPc := if s.isrS &&& s.cfg.intTx = 0 then .ret else .txAck }) ∧
  (∀ s : State, s.isrPc = .drainTrig → isrStep s = .next { s with
    isrPc := if nextDraw s &&& s.cfg.fifoEmpty = 0 then .ret else .drainTest
    ev := s.ev ++ [.rd .isr .uartStat (s.boundAddr.get .uartStat) 32 (nextDraw s)]
    draws := s.draws.tail
    drawCount := s.drawCount + 1 })

/-- R201: DRAIN_TEST reads UART_STAT afresh, tests full first and emptiness only when not full. -/
def Obligations.IsrDrainTestsFullThenEmpty : Prop :=
  ∀ s : State, s.isrPc = .drainTest → isrStep s = .next { s with
    isrPc :=
      if nextDraw s &&& s.cfg.fifoFull ≠ 0 then .drainEnd
      else if s.tx.rc = s.tx.wc then .drainEnd
      else .drainMove
    ev := s.ev ++ [.rd .isr .uartStat (s.boundAddr.get .uartStat) 32 (nextDraw s)]
    draws := s.draws.tail
    drawCount := s.drawCount + 1 }

/-- R202: DRAIN_MOVE pops a byte that is always found, clears its slot, advances `ring[TX].rc` and writes the
byte to UART_TXD. -/
def Obligations.IsrDrainMovesOneByte : Prop :=
  ∀ s : State, StateInv s → s.isrPc = .drainMove →
    s.tx.rc ≠ s.tx.wc ∧
    ∃ t, isrStep s = .next t ∧
      t.tx.store.read s.tx.rc = 0 ∧
      (∀ a, a ≠ s.tx.rc → t.tx.store.read a = s.tx.store.read a) ∧
      t.tx.rc = (s.tx.rc + 1) % s.cfg.capacity ∧ t.tx.wc = s.tx.wc ∧
      t.ev = s.ev ++ [.wr .isr .uartTxd (s.boundAddr.get .uartTxd) 8
        (zext32 (s.tx.store.read s.tx.rc))] ∧
      t.isrPc = .drainTest ∧ t.result = s.result ∧ t.err = s.err ∧ t.rx = s.rx

/-- R203, R207: DRAIN_END disarms the TX interrupt exactly when `ring[TX]` is empty and returns either way;
RETURN goes to IDLE and records Ret. -/
def Obligations.IsrEndDisarmsExactlyWhenEmpty : Prop :=
  ∀ s : State,
    (s.isrPc = .drainEnd → isrStep s = .next
      (if s.tx.rc = s.tx.wc then
        { s with
          isrPc := .ret
          devImask := s.devImask &&& ~~~s.cfg.intTx
          ev := s.ev ++
            [.rd .isr .intMask (s.boundAddr.get .intMask) 8 (zext32 s.devImask),
             .wr .isr .intMask (s.boundAddr.get .intMask) 8 (zext32 (s.devImask &&& ~~~s.cfg.intTx))] }
      else { s with isrPc := .ret })) ∧
    (s.isrPc = .ret → isrStep s = .next { s with isrPc := .idle, ev := s.ev ++ [.ret] })

/-- A spurious interrupt costs one read: with neither bit in the value read, the instance is ENTRY, TX_TEST,
RETURN and nothing else (44_interrupt_handler.md R209). -/
def Obligations.SpuriousInterruptCostsOneRead : Prop :=
  ∀ s : State, s.isrPc = .entry → lowByte (nextDraw s) &&& (s.cfg.intRx ||| s.cfg.intTx) = 0 →
    isrSteps 3 s = .next { s with
      isrPc := .idle
      isrS := lowByte (nextDraw s)
      draws := s.draws.tail
      drawCount := s.drawCount + 1
      ev := s.ev ++
        [.rd .isr .intStat (s.boundAddr.get .intStat) 8 (zext32 (lowByte (nextDraw s))), .ret] }

/-- The frame of the ISR: no step of it writes RESULT, ERR, LIFE, the fault registers, BOUND_ADDR, UART_CTRL,
the split command, `ring[TX].wc`, `ring[RX].rc`, or takes a command (30_encoding.md R90, 60_exceptions.md
R259, R260). -/
def Obligations.IsrFrame : Prop :=
  ∀ s t : State, isrStep s = .next t →
    t.result = s.result ∧ t.err = s.err ∧ t.life = s.life ∧
    t.faultCause = s.faultCause ∧ t.faultInfo = s.faultInfo ∧ t.boundAddr = s.boundAddr ∧
    t.devCtrl = s.devCtrl ∧ t.split = s.split ∧ t.cfg = s.cfg ∧
    t.cmds = s.cmds ∧ t.moves = s.moves ∧ t.later = s.later ∧ t.moveCount = s.moveCount ∧
    t.tx.wc = s.tx.wc ∧ t.rx.rc = s.rx.rc ∧
    (∀ a, a ≠ s.tx.rc → t.tx.store.read a = s.tx.store.read a) ∧
    (∀ a, a ≠ s.rx.wc → t.rx.store.read a = s.rx.store.read a) ∧
    (s.isrPc ≠ .drainMove → t.tx = s.tx) ∧ (s.isrPc ≠ .fillMove → t.rx = s.rx) ∧
    responses t.ev = responses s.ev

/-- The arbiter: any step that is no reset and changes INT_MASK is either a register command of the APP on
INT_MASK or DRAIN_END with `ring[TX]` empty, which clears the TX bit alone (44_interrupt_handler.md R208). -/
def Obligations.MaskIsClearedOnlyWhenTxEmpty : Prop :=
  ∀ s t : State, step s = .next t → s.nextMove.1 ≠ .reset → t.devImask ≠ s.devImask →
    (s.isrPc = .drainEnd ∧ s.tx.rc = s.tx.wc ∧ t.devImask = s.devImask &&& ~~~s.cfg.intTx) ∨
    (s.isrPc = .idle ∧ ∃ c o i v, s.cmds.head? = some (c, o) ∧ decode c o = .ok i ∧
      (i = .rwrite .intMask v ∨ i = .ror .intMask v ∨ i = .randc .intMask v))

/-- Over any number of steps of the ISR, the bytes written to UART_TXD are a run of the bytes `ring[TX]` held,
oldest first, each once; the rest stays in the buffer (44_interrupt_handler.md R205). -/
def Obligations.DrainTransmitsOldestBytesInOrder : Prop :=
  ∀ (n : Nat) (s t : State), StateInv s → isrSteps n s = .next t →
    ∃ k, k ≤ s.tx.occ s.cfg.capacity ∧
      transmitted t.ev = transmitted s.ev ++ (s.tx.contents s.cfg.capacity).take k ∧
      t.tx.contents s.cfg.capacity = (s.tx.contents s.cfg.capacity).drop k

/-! The transmit path. -/

/-- R164: ARM_TX sets the request bit of UART_CTRL, then the TX bit of INT_MASK, with two locked
read-modify-writes that keep every other bit; DISARM_TX clears the TX bit of INT_MASK and leaves UART_CTRL
(42_transmit_path.md R164, R165, 44_interrupt_handler.md R206). -/
def Obligations.ArmAndDisarmTouchTheirBitsAlone : Prop :=
  ∀ s : State, s.life = .ready →
    execAll (expand s.cfg .armTx) s = .next { s with
      devCtrl := s.devCtrl ||| s.cfg.fifoEmpty
      devImask := s.devImask ||| s.cfg.intTx
      result := 0
      err := false
      ev := s.ev ++
        [.rd .app .uartCtrl (s.boundAddr.get .uartCtrl) 32 s.devCtrl,
         .wr .app .uartCtrl (s.boundAddr.get .uartCtrl) 32 (s.devCtrl ||| s.cfg.fifoEmpty),
         .resp false 0,
         .rd .app .intMask (s.boundAddr.get .intMask) 8 (zext32 s.devImask),
         .wr .app .intMask (s.boundAddr.get .intMask) 8 (zext32 (s.devImask ||| s.cfg.intTx)),
         .resp false 0] } ∧
    execAll (expand s.cfg .disarmTx) s = .next { s with
      devImask := s.devImask &&& ~~~s.cfg.intTx
      result := 0
      err := false
      ev := s.ev ++
        [.rd .app .intMask (s.boundAddr.get .intMask) 8 (zext32 s.devImask),
         .wr .app .intMask (s.boundAddr.get .intMask) 8 (zext32 (s.devImask &&& ~~~s.cfg.intTx)),
         .resp false 0] }

/-- SEND of any length, overrun or not, pushes every byte in order and then arms, and ends in success: the
history is one response for each PUSH and then the records of ARM_TX; each of the last C bytes stands in its
slot, the slots not pushed into are as before, and where the bytes fit they follow the unread ones
(42_transmit_path.md R160, R161, R162, R165, R166, R167). -/
def Obligations.SendEnqueuesThenArms : Prop :=
  ∀ (s : State) (bs : List Byte), StateInv s → RingReady (.push .tx 0) s →
    ∃ t, execAll (expand s.cfg (.send bs)) s = .next t ∧
      t.tx.wc = (s.tx.wc + bs.length) % s.cfg.capacity ∧ t.tx.rc = s.tx.rc ∧
      t.tx.occ s.cfg.capacity = (s.tx.occ s.cfg.capacity + bs.length) % s.cfg.capacity ∧
      (∀ m (hm : m < bs.length), bs.length ≤ m + s.cfg.capacity →
        t.tx.store.read ((s.tx.wc + m) % s.cfg.capacity) = bs[m]) ∧
      (∀ a, (∀ m, m < bs.length → a ≠ (s.tx.wc + m) % s.cfg.capacity) →
        t.tx.store.read a = s.tx.store.read a) ∧
      (s.tx.occ s.cfg.capacity + bs.length < s.cfg.capacity →
        t.tx.contents s.cfg.capacity = s.tx.contents s.cfg.capacity ++ bs) ∧
      t.ev = s.ev ++ List.replicate bs.length (.resp false 0) ++
        [.rd .app .uartCtrl (s.boundAddr.get .uartCtrl) 32 s.devCtrl,
         .wr .app .uartCtrl (s.boundAddr.get .uartCtrl) 32 (s.devCtrl ||| s.cfg.fifoEmpty),
         .resp false 0,
         .rd .app .intMask (s.boundAddr.get .intMask) 8 (zext32 s.devImask),
         .wr .app .intMask (s.boundAddr.get .intMask) 8 (zext32 (s.devImask ||| s.cfg.intTx)),
         .resp false 0] ∧
      t.rx = s.rx ∧
      t.devCtrl = s.devCtrl ||| s.cfg.fifoEmpty ∧ t.devImask = s.devImask ||| s.cfg.intTx ∧
      t.result = 0 ∧ t.err = false ∧ t.life = .ready

/-! The assembler's notation. -/

/-- The expansions of the pseudo-instructions as words, with the default constants (30_encoding.md R89). -/
def Obligations.PseudoInstructionsExpandToTheirWords : Prop :=
  (expand Config.default (.send [])).map encode = [(0x60000000, 0x80), (0x64000000, 0x08)] ∧
  (expand Config.default (.send [0x41, 0x42])).map encode =
    [(0x20000000, 0x41), (0x20000000, 0x42), (0x60000000, 0x80), (0x64000000, 0x08)] ∧
  (expand Config.default .armTx).map encode = [(0x60000000, 0x80), (0x64000000, 0x08)] ∧
  (expand Config.default (.read .rx)).map encode = [(0x30010000, 0)] ∧
  (expand Config.default (.read .tx)).map encode = [(0x30000000, 0)] ∧
  (expand Config.default .disarmTx).map encode = [(0x74000000, 0x08)]

/-- Every command of a line the assembler accepts is well formed: a value that does not fit its register is
refused, and each command is decoded back from its words (30_encoding.md R87). -/
def Obligations.AssembledLinesDecodeToTheirCommands : Prop :=
  ∀ (c : Config) (line : List Char) (is : List Instr), assembleLine c line = some is →
    ∀ i ∈ is, i.wellFormed = true ∧ decode (cmdWord i) (opndWord i) = .ok i

/-! The whole machine. -/

/-- The invariant holds after every launch the configuration rules accept. -/
def Obligations.LaunchHasTheInvariant : Prop :=
  (∀ c : Config, c.accepted = true → StateInv (State.launch c)) ∧ StateInv State.reset

/-- Every step keeps the invariant: stores in canonical form, cursors below C, BOUND_ADDR bound in READY,
FAULT_CAUSE a code of the table and NONE exactly outside FAULTED, the ISR running only in READY, a command
split only without ATOMIC_RING_OPS, DRAIN_MOVE only with a byte to move, fill and drain only with their bit
latched. -/
def Obligations.EveryStepKeepsTheInvariant : Prop :=
  ∀ s t : State, StateInv s → step s = .next t → StateInv t

/-- Under the invariant no step faults or is refused: the machine is never stuck (70_reset_and_hazards.md
R313, 60_exceptions.md R260). -/
def Obligations.InvariantStatesAlwaysStep : Prop :=
  ∀ s : State, StateInv s → ∃ t, step s = .next t

/-- No step changes the configuration (10_state.md R44). -/
def Obligations.ConfigurationNeverChanges : Prop :=
  ∀ s t : State, step s = .next t → t.cfg = s.cfg

/-- Every step but a reset only appends to the history (10_state.md R42). -/
def Obligations.HistoryIsOnlyAppendedTo : Prop :=
  ∀ s t : State, step s = .next t → s.nextMove.1 ≠ .reset → ∃ more, t.ev = s.ev ++ more

/-- With indivisible ring operations the only cursor updates of any step are an advance by one modulo C and
INIT's reset to 0 (40_circular_buffer.md R108); and in either form every cursor fits in CW = ceil(log2 C)
bits, the least width that holds every number below C (00_scope.md R5, 10_state.md R23). -/
def Obligations.CursorsOnlyAdvanceByOne : Prop :=
  (∀ (s t : State) (sel : Sel), StateInv s → s.cfg.atomicRingOps = true → step s = .next t →
    s.nextMove.1 ≠ .reset →
    ((t.ring sel).rc = (s.ring sel).rc ∨
      (t.ring sel).rc = ((s.ring sel).rc + 1) % s.cfg.capacity ∨
      s.life = .uninit ∧ t.life = .ready ∧ (t.ring sel).rc = 0) ∧
    ((t.ring sel).wc = (s.ring sel).wc ∨
      (t.ring sel).wc = ((s.ring sel).wc + 1) % s.cfg.capacity ∨
      s.life = .uninit ∧ t.life = .ready ∧ (t.ring sel).wc = 0)) ∧
  (∀ (s : State) (sel : Sel), StateInv s →
    (s.ring sel).rc < 2 ^ s.cfg.cursorWidth ∧ (s.ring sel).wc < 2 ^ s.cfg.cursorWidth) ∧
  (∀ (c : Config) (w : Nat), 2 ≤ c.capacity → (c.capacity ≤ 2 ^ w ↔ c.cursorWidth ≤ w))

/-- With indivisible ring operations and no reset, a step of a READY machine leaves a buffer's unread bytes as
they are, appends one, takes the oldest off, or, pushing into C - 1 unread bytes, loses them all; no byte is
ever duplicated, reordered or altered (40_circular_buffer.md R103, R111). -/
def Obligations.UnreadBytesChangeOnlyAtTheEnds : Prop :=
  ∀ (s t : State) (sel : Sel), StateInv s → s.cfg.atomicRingOps = true → s.life = .ready →
    s.nextMove.1 ≠ .reset → step s = .next t →
    (t.ring sel).contents s.cfg.capacity = (s.ring sel).contents s.cfg.capacity ∨
    (∃ b, (t.ring sel).contents s.cfg.capacity = (s.ring sel).contents s.cfg.capacity ++ [b]) ∨
    (∃ b, (s.ring sel).contents s.cfg.capacity = b :: (t.ring sel).contents s.cfg.capacity) ∨
    ((s.ring sel).occ s.cfg.capacity + 1 = s.cfg.capacity ∧
      (t.ring sel).contents s.cfg.capacity = [])
end

