-- ==== Sys2Proof/Laws/Memory.lean ====
section
/-! SUPPORT. The laws of a store: read after write, and that a write keeps the canonical form. -/

namespace Sys2Proof

theorem Memory.place_read_same (a : Nat) (v : Byte) (rest : Memory) (h : rest.read a = Memory.unlisted) :
    (Memory.place a v rest).read a = v := by
  unfold Memory.place
  split
  · rw [h]; symm; assumption
  · simp [Memory.read]

theorem Memory.place_read_other {a b : Nat} (v : Byte) (rest : Memory) (h : b ≠ a) :
    (Memory.place a v rest).read b = rest.read b := by
  unfold Memory.place
  split
  · rfl
  · simp [Memory.read, Ne.symm h]

/-- The canonical form may be read from any smaller lower bound. -/
theorem Memory.wfFrom_mono {hi lo lo' : Nat} {m : Memory} (h : lo' ≤ lo) (hm : m.wfFrom hi lo = true) :
    m.wfFrom hi lo' = true := by
  cases m with
  | nil => rfl
  | cons c rest =>
    simp only [Memory.wfFrom, Bool.and_eq_true, decide_eq_true_eq] at hm ⊢
    exact ⟨⟨⟨h.trans hm.1.1.1, hm.1.1.2⟩, hm.1.2⟩, hm.2⟩

/-- Below its lower bound a store in canonical form lists nothing. -/
theorem Memory.read_below {hi lo a : Nat} {m : Memory} (hm : m.wfFrom hi lo = true) (h : a < lo) :
    m.read a = Memory.unlisted := by
  induction m generalizing lo with
  | nil => rfl
  | cons c rest ih =>
    simp only [Memory.wfFrom, Bool.and_eq_true, decide_eq_true_eq] at hm
    have hne : c.1 ≠ a := by omega
    simp only [Memory.read, if_neg hne]
    exact ih hm.2 (by omega)

theorem Memory.wfFrom_place {hi lo a : Nat} {v : Byte} {m : Memory} (hlo : lo ≤ a) (hhi : a < hi)
    (hm : m.wfFrom hi (a + 1) = true) : (Memory.place a v m).wfFrom hi lo = true := by
  unfold Memory.place
  split
  · exact Memory.wfFrom_mono (by omega) hm
  · simp_all [Memory.wfFrom]

/-- A read after a write to the same address gives the value written. -/
theorem Memory.read_write_same {hi lo : Nat} {m : Memory} (hm : m.wfFrom hi lo = true) (a : Nat) (v : Byte) :
    (m.write a v).read a = v := by
  induction m generalizing lo with
  | nil => exact Memory.place_read_same a v [] rfl
  | cons c rest ih =>
    have hc := hm
    simp only [Memory.wfFrom, Bool.and_eq_true, decide_eq_true_eq] at hc
    simp only [Memory.write]
    split
    · apply Memory.place_read_same
      have hcons : Memory.wfFrom hi c.1 ((c.1, c.2) :: rest) = true := by
        simp_all [Memory.wfFrom]
      exact Memory.read_below hcons ‹_›
    · split
      · subst_vars
        exact Memory.place_read_same _ v rest (Memory.read_below hc.2 (by omega))
      · have hne : c.1 ≠ a := by omega
        simp only [Memory.read, if_neg hne]
        exact ih hc.2

/-- A write leaves every other address alone. -/
theorem Memory.read_write_other {a b : Nat} (m : Memory) (v : Byte) (h : b ≠ a) :
    (m.write a v).read b = m.read b := by
  induction m with
  | nil => exact Memory.place_read_other v [] h
  | cons c rest ih =>
    simp only [Memory.write]
    split
    · exact Memory.place_read_other v _ h
    · split
      · rename_i heq
        rw [Memory.place_read_other v rest h]
        simp only [Memory.read, if_neg (show ¬ c.1 = b by omega)]
      · simp only [Memory.read, ih]

theorem Memory.wfFrom_write {hi lo a : Nat} {v : Byte} {m : Memory} (hm : m.wfFrom hi lo = true)
    (hlo : lo ≤ a) (hhi : a < hi) : (m.write a v).wfFrom hi lo = true := by
  induction m generalizing lo with
  | nil => exact Memory.wfFrom_place hlo hhi rfl
  | cons c rest ih =>
    have hc := hm
    simp only [Memory.wfFrom, Bool.and_eq_true, decide_eq_true_eq] at hc
    simp only [Memory.write]
    split
    · apply Memory.wfFrom_place hlo hhi
      simp only [Memory.wfFrom, Bool.and_eq_true, decide_eq_true_eq]
      exact ⟨⟨⟨by omega, hc.1.1.2⟩, hc.1.2⟩, hc.2⟩
    · split
      · subst_vars
        exact Memory.wfFrom_place hlo hhi hc.2
      · simp only [Memory.wfFrom, Bool.and_eq_true, decide_eq_true_eq]
        exact ⟨hc.1, ih hc.2 (by omega)⟩

/-- A write within the store keeps the canonical form. -/
theorem Memory.wf_write {size a : Nat} {v : Byte} {m : Memory} (hm : m.wf size = true) (h : a < size) :
    (m.write a v).wf size = true :=
  Memory.wfFrom_write hm (Nat.zero_le a) h

/-- The form of a read after a write, for a store in canonical form. -/
theorem Memory.read_write {size : Nat} {m : Memory} (hm : m.wf size = true) (a b : Nat) (v : Byte) :
    (m.write a v).read b = if b = a then v else m.read b := by
  split
  · subst_vars; exact Memory.read_write_same hm _ v
  · exact Memory.read_write_other m v ‹_›

end Sys2Proof
end

