-- ==== Sys2Proof/Laws/State.lean ====
section
/-! SUPPORT. What each update of the state leaves and sets, field by field, so that no later proof unfolds
a record update. -/

namespace Sys2Proof.Machine

theorem State.ring_tx (s : State) : s.ring .tx = s.tx := rfl

theorem State.ring_rx (s : State) : s.ring .rx = s.rx := rfl

/-! Appending to EV. -/

@[simp] theorem State.emit_cfg (s : State) (e : Event) : (s.emit e).cfg = s.cfg := rfl
@[simp] theorem State.emit_life (s : State) (e : Event) : (s.emit e).life = s.life := rfl
@[simp] theorem State.emit_tx (s : State) (e : Event) : (s.emit e).tx = s.tx := rfl
@[simp] theorem State.emit_rx (s : State) (e : Event) : (s.emit e).rx = s.rx := rfl
@[simp] theorem State.emit_boundAddr (s : State) (e : Event) : (s.emit e).boundAddr = s.boundAddr := rfl
@[simp] theorem State.emit_result (s : State) (e : Event) : (s.emit e).result = s.result := rfl
@[simp] theorem State.emit_err (s : State) (e : Event) : (s.emit e).err = s.err := rfl
@[simp] theorem State.emit_faultCause (s : State) (e : Event) : (s.emit e).faultCause = s.faultCause := rfl
@[simp] theorem State.emit_faultInfo (s : State) (e : Event) : (s.emit e).faultInfo = s.faultInfo := rfl
@[simp] theorem State.emit_isrPc (s : State) (e : Event) : (s.emit e).isrPc = s.isrPc := rfl
@[simp] theorem State.emit_isrS (s : State) (e : Event) : (s.emit e).isrS = s.isrS := rfl
@[simp] theorem State.emit_split (s : State) (e : Event) : (s.emit e).split = s.split := rfl
@[simp] theorem State.emit_devCtrl (s : State) (e : Event) : (s.emit e).devCtrl = s.devCtrl := rfl
@[simp] theorem State.emit_devImask (s : State) (e : Event) : (s.emit e).devImask = s.devImask := rfl
@[simp] theorem State.emit_ev (s : State) (e : Event) : (s.emit e).ev = s.ev ++ [e] := rfl
@[simp] theorem State.emit_cmds (s : State) (e : Event) : (s.emit e).cmds = s.cmds := rfl
@[simp] theorem State.emit_moves (s : State) (e : Event) : (s.emit e).moves = s.moves := rfl
@[simp] theorem State.emit_later (s : State) (e : Event) : (s.emit e).later = s.later := rfl
@[simp] theorem State.emit_moveCount (s : State) (e : Event) : (s.emit e).moveCount = s.moveCount := rfl
@[simp] theorem State.emit_draws (s : State) (e : Event) : (s.emit e).draws = s.draws := rfl
@[simp] theorem State.emit_drawCount (s : State) (e : Event) : (s.emit e).drawCount = s.drawCount := rfl

/-! Replacing a buffer. -/

@[simp] theorem State.setRing_cfg (s : State) (sel : Sel) (r : Ring) : (s.setRing sel r).cfg = s.cfg := by cases sel <;> rfl
@[simp] theorem State.setRing_life (s : State) (sel : Sel) (r : Ring) : (s.setRing sel r).life = s.life := by cases sel <;> rfl
@[simp] theorem State.setRing_boundAddr (s : State) (sel : Sel) (r : Ring) : (s.setRing sel r).boundAddr = s.boundAddr := by cases sel <;> rfl
@[simp] theorem State.setRing_result (s : State) (sel : Sel) (r : Ring) : (s.setRing sel r).result = s.result := by cases sel <;> rfl
@[simp] theorem State.setRing_err (s : State) (sel : Sel) (r : Ring) : (s.setRing sel r).err = s.err := by cases sel <;> rfl
@[simp] theorem State.setRing_faultCause (s : State) (sel : Sel) (r : Ring) : (s.setRing sel r).faultCause = s.faultCause := by cases sel <;> rfl
@[simp] theorem State.setRing_faultInfo (s : State) (sel : Sel) (r : Ring) : (s.setRing sel r).faultInfo = s.faultInfo := by cases sel <;> rfl
@[simp] theorem State.setRing_isrPc (s : State) (sel : Sel) (r : Ring) : (s.setRing sel r).isrPc = s.isrPc := by cases sel <;> rfl
@[simp] theorem State.setRing_isrS (s : State) (sel : Sel) (r : Ring) : (s.setRing sel r).isrS = s.isrS := by cases sel <;> rfl
@[simp] theorem State.setRing_split (s : State) (sel : Sel) (r : Ring) : (s.setRing sel r).split = s.split := by cases sel <;> rfl
@[simp] theorem State.setRing_devCtrl (s : State) (sel : Sel) (r : Ring) : (s.setRing sel r).devCtrl = s.devCtrl := by cases sel <;> rfl
@[simp] theorem State.setRing_devImask (s : State) (sel : Sel) (r : Ring) : (s.setRing sel r).devImask = s.devImask := by cases sel <;> rfl
@[simp] theorem State.setRing_ev (s : State) (sel : Sel) (r : Ring) : (s.setRing sel r).ev = s.ev := by cases sel <;> rfl
@[simp] theorem State.setRing_cmds (s : State) (sel : Sel) (r : Ring) : (s.setRing sel r).cmds = s.cmds := by cases sel <;> rfl
@[simp] theorem State.setRing_moves (s : State) (sel : Sel) (r : Ring) : (s.setRing sel r).moves = s.moves := by cases sel <;> rfl
@[simp] theorem State.setRing_later (s : State) (sel : Sel) (r : Ring) : (s.setRing sel r).later = s.later := by cases sel <;> rfl
@[simp] theorem State.setRing_moveCount (s : State) (sel : Sel) (r : Ring) : (s.setRing sel r).moveCount = s.moveCount := by cases sel <;> rfl
@[simp] theorem State.setRing_draws (s : State) (sel : Sel) (r : Ring) : (s.setRing sel r).draws = s.draws := by cases sel <;> rfl
@[simp] theorem State.setRing_drawCount (s : State) (sel : Sel) (r : Ring) : (s.setRing sel r).drawCount = s.drawCount := by cases sel <;> rfl

@[simp] theorem State.ring_setRing_same (s : State) (sel : Sel) (r : Ring) :
    (s.setRing sel r).ring sel = r := by cases sel <;> rfl

theorem State.ring_setRing_other (s : State) {sel sel' : Sel} (r : Ring) (h : sel' ≠ sel) :
    (s.setRing sel r).ring sel' = s.ring sel' := by
  cases sel <;> cases sel' <;> first | rfl | exact absurd rfl h

@[simp] theorem State.setRing_setRing (s : State) (sel : Sel) (r q : Ring) :
    (s.setRing sel r).setRing sel q = s.setRing sel q := by cases sel <;> rfl

@[simp] theorem State.setRing_tx_tx (s : State) (r : Ring) : (s.setRing .tx r).tx = r := rfl

@[simp] theorem State.setRing_rx_rx (s : State) (r : Ring) : (s.setRing .rx r).rx = r := rfl

@[simp] theorem State.setRing_tx_rx (s : State) (r : Ring) : (s.setRing .tx r).rx = s.rx := rfl

@[simp] theorem State.setRing_rx_tx (s : State) (r : Ring) : (s.setRing .rx r).tx = s.tx := rfl

/-! The sequencer's `goto`. -/

@[simp] theorem State.goto_cfg (s : State) (pc : IsrPc) : (s.goto pc).cfg = s.cfg := rfl
@[simp] theorem State.goto_life (s : State) (pc : IsrPc) : (s.goto pc).life = s.life := rfl
@[simp] theorem State.goto_tx (s : State) (pc : IsrPc) : (s.goto pc).tx = s.tx := rfl
@[simp] theorem State.goto_rx (s : State) (pc : IsrPc) : (s.goto pc).rx = s.rx := rfl
@[simp] theorem State.goto_boundAddr (s : State) (pc : IsrPc) : (s.goto pc).boundAddr = s.boundAddr := rfl
@[simp] theorem State.goto_result (s : State) (pc : IsrPc) : (s.goto pc).result = s.result := rfl
@[simp] theorem State.goto_err (s : State) (pc : IsrPc) : (s.goto pc).err = s.err := rfl
@[simp] theorem State.goto_faultCause (s : State) (pc : IsrPc) : (s.goto pc).faultCause = s.faultCause := rfl
@[simp] theorem State.goto_faultInfo (s : State) (pc : IsrPc) : (s.goto pc).faultInfo = s.faultInfo := rfl
@[simp] theorem State.goto_isrPc (s : State) (pc : IsrPc) : (s.goto pc).isrPc = pc := rfl
@[simp] theorem State.goto_isrS (s : State) (pc : IsrPc) : (s.goto pc).isrS = s.isrS := rfl
@[simp] theorem State.goto_split (s : State) (pc : IsrPc) : (s.goto pc).split = s.split := rfl
@[simp] theorem State.goto_devCtrl (s : State) (pc : IsrPc) : (s.goto pc).devCtrl = s.devCtrl := rfl
@[simp] theorem State.goto_devImask (s : State) (pc : IsrPc) : (s.goto pc).devImask = s.devImask := rfl
@[simp] theorem State.goto_ev (s : State) (pc : IsrPc) : (s.goto pc).ev = s.ev := rfl
@[simp] theorem State.goto_cmds (s : State) (pc : IsrPc) : (s.goto pc).cmds = s.cmds := rfl
@[simp] theorem State.goto_moves (s : State) (pc : IsrPc) : (s.goto pc).moves = s.moves := rfl
@[simp] theorem State.goto_later (s : State) (pc : IsrPc) : (s.goto pc).later = s.later := rfl
@[simp] theorem State.goto_moveCount (s : State) (pc : IsrPc) : (s.goto pc).moveCount = s.moveCount := rfl
@[simp] theorem State.goto_draws (s : State) (pc : IsrPc) : (s.goto pc).draws = s.draws := rfl
@[simp] theorem State.goto_drawCount (s : State) (pc : IsrPc) : (s.goto pc).drawCount = s.drawCount := rfl

/-! Taking a draw. -/

@[simp] theorem State.draw_cfg (s : State) : (s.draw.2).cfg = s.cfg := by unfold State.draw; cases s.draws <;> rfl
@[simp] theorem State.draw_life (s : State) : (s.draw.2).life = s.life := by unfold State.draw; cases s.draws <;> rfl
@[simp] theorem State.draw_tx (s : State) : (s.draw.2).tx = s.tx := by unfold State.draw; cases s.draws <;> rfl
@[simp] theorem State.draw_rx (s : State) : (s.draw.2).rx = s.rx := by unfold State.draw; cases s.draws <;> rfl
@[simp] theorem State.draw_boundAddr (s : State) : (s.draw.2).boundAddr = s.boundAddr := by unfold State.draw; cases s.draws <;> rfl
@[simp] theorem State.draw_result (s : State) : (s.draw.2).result = s.result := by unfold State.draw; cases s.draws <;> rfl
@[simp] theorem State.draw_err (s : State) : (s.draw.2).err = s.err := by unfold State.draw; cases s.draws <;> rfl
@[simp] theorem State.draw_faultCause (s : State) : (s.draw.2).faultCause = s.faultCause := by unfold State.draw; cases s.draws <;> rfl
@[simp] theorem State.draw_faultInfo (s : State) : (s.draw.2).faultInfo = s.faultInfo := by unfold State.draw; cases s.draws <;> rfl
@[simp] theorem State.draw_isrPc (s : State) : (s.draw.2).isrPc = s.isrPc := by unfold State.draw; cases s.draws <;> rfl
@[simp] theorem State.draw_isrS (s : State) : (s.draw.2).isrS = s.isrS := by unfold State.draw; cases s.draws <;> rfl
@[simp] theorem State.draw_split (s : State) : (s.draw.2).split = s.split := by unfold State.draw; cases s.draws <;> rfl
@[simp] theorem State.draw_devCtrl (s : State) : (s.draw.2).devCtrl = s.devCtrl := by unfold State.draw; cases s.draws <;> rfl
@[simp] theorem State.draw_devImask (s : State) : (s.draw.2).devImask = s.devImask := by unfold State.draw; cases s.draws <;> rfl
@[simp] theorem State.draw_ev (s : State) : (s.draw.2).ev = s.ev := by unfold State.draw; cases s.draws <;> rfl
@[simp] theorem State.draw_cmds (s : State) : (s.draw.2).cmds = s.cmds := by unfold State.draw; cases s.draws <;> rfl
@[simp] theorem State.draw_moves (s : State) : (s.draw.2).moves = s.moves := by unfold State.draw; cases s.draws <;> rfl
@[simp] theorem State.draw_later (s : State) : (s.draw.2).later = s.later := by unfold State.draw; cases s.draws <;> rfl
@[simp] theorem State.draw_moveCount (s : State) : (s.draw.2).moveCount = s.moveCount := by unfold State.draw; cases s.draws <;> rfl
@[simp] theorem State.draw_draws (s : State) : (s.draw.2).draws = s.draws.tail := by unfold State.draw; cases s.draws <;> rfl
@[simp] theorem State.draw_drawCount (s : State) : (s.draw.2).drawCount = s.drawCount + 1 := by unfold State.draw; cases s.draws <;> rfl

/-! A write at the device, and the two bus accesses. -/

@[simp] theorem State.deviceWrite_cfg (s : State) (r : Reg) (v : Word) : (s.deviceWrite r v).cfg = s.cfg := by cases r <;> rfl
@[simp] theorem State.deviceWrite_life (s : State) (r : Reg) (v : Word) : (s.deviceWrite r v).life = s.life := by cases r <;> rfl
@[simp] theorem State.deviceWrite_tx (s : State) (r : Reg) (v : Word) : (s.deviceWrite r v).tx = s.tx := by cases r <;> rfl
@[simp] theorem State.deviceWrite_rx (s : State) (r : Reg) (v : Word) : (s.deviceWrite r v).rx = s.rx := by cases r <;> rfl
@[simp] theorem State.deviceWrite_boundAddr (s : State) (r : Reg) (v : Word) : (s.deviceWrite r v).boundAddr = s.boundAddr := by cases r <;> rfl
@[simp] theorem State.deviceWrite_result (s : State) (r : Reg) (v : Word) : (s.deviceWrite r v).result = s.result := by cases r <;> rfl
@[simp] theorem State.deviceWrite_err (s : State) (r : Reg) (v : Word) : (s.deviceWrite r v).err = s.err := by cases r <;> rfl
@[simp] theorem State.deviceWrite_faultCause (s : State) (r : Reg) (v : Word) : (s.deviceWrite r v).faultCause = s.faultCause := by cases r <;> rfl
@[simp] theorem State.deviceWrite_faultInfo (s : State) (r : Reg) (v : Word) : (s.deviceWrite r v).faultInfo = s.faultInfo := by cases r <;> rfl
@[simp] theorem State.deviceWrite_isrPc (s : State) (r : Reg) (v : Word) : (s.deviceWrite r v).isrPc = s.isrPc := by cases r <;> rfl
@[simp] theorem State.deviceWrite_isrS (s : State) (r : Reg) (v : Word) : (s.deviceWrite r v).isrS = s.isrS := by cases r <;> rfl
@[simp] theorem State.deviceWrite_split (s : State) (r : Reg) (v : Word) : (s.deviceWrite r v).split = s.split := by cases r <;> rfl
@[simp] theorem State.deviceWrite_ev (s : State) (r : Reg) (v : Word) : (s.deviceWrite r v).ev = s.ev := by cases r <;> rfl
@[simp] theorem State.deviceWrite_cmds (s : State) (r : Reg) (v : Word) : (s.deviceWrite r v).cmds = s.cmds := by cases r <;> rfl
@[simp] theorem State.deviceWrite_moves (s : State) (r : Reg) (v : Word) : (s.deviceWrite r v).moves = s.moves := by cases r <;> rfl
@[simp] theorem State.deviceWrite_later (s : State) (r : Reg) (v : Word) : (s.deviceWrite r v).later = s.later := by cases r <;> rfl
@[simp] theorem State.deviceWrite_moveCount (s : State) (r : Reg) (v : Word) : (s.deviceWrite r v).moveCount = s.moveCount := by cases r <;> rfl
@[simp] theorem State.deviceWrite_draws (s : State) (r : Reg) (v : Word) : (s.deviceWrite r v).draws = s.draws := by cases r <;> rfl
@[simp] theorem State.deviceWrite_drawCount (s : State) (r : Reg) (v : Word) : (s.deviceWrite r v).drawCount = s.drawCount := by cases r <;> rfl
@[simp] theorem State.deviceRead_cfg (s : State) (r : Reg) : (s.deviceRead r).2.cfg = s.cfg := by cases r <;> simp [State.deviceRead]
@[simp] theorem State.deviceRead_life (s : State) (r : Reg) : (s.deviceRead r).2.life = s.life := by cases r <;> simp [State.deviceRead]
@[simp] theorem State.deviceRead_tx (s : State) (r : Reg) : (s.deviceRead r).2.tx = s.tx := by cases r <;> simp [State.deviceRead]
@[simp] theorem State.deviceRead_rx (s : State) (r : Reg) : (s.deviceRead r).2.rx = s.rx := by cases r <;> simp [State.deviceRead]
@[simp] theorem State.deviceRead_boundAddr (s : State) (r : Reg) : (s.deviceRead r).2.boundAddr = s.boundAddr := by cases r <;> simp [State.deviceRead]
@[simp] theorem State.deviceRead_result (s : State) (r : Reg) : (s.deviceRead r).2.result = s.result := by cases r <;> simp [State.deviceRead]
@[simp] theorem State.deviceRead_err (s : State) (r : Reg) : (s.deviceRead r).2.err = s.err := by cases r <;> simp [State.deviceRead]
@[simp] theorem State.deviceRead_faultCause (s : State) (r : Reg) : (s.deviceRead r).2.faultCause = s.faultCause := by cases r <;> simp [State.deviceRead]
@[simp] theorem State.deviceRead_faultInfo (s : State) (r : Reg) : (s.deviceRead r).2.faultInfo = s.faultInfo := by cases r <;> simp [State.deviceRead]
@[simp] theorem State.deviceRead_isrPc (s : State) (r : Reg) : (s.deviceRead r).2.isrPc = s.isrPc := by cases r <;> simp [State.deviceRead]
@[simp] theorem State.deviceRead_isrS (s : State) (r : Reg) : (s.deviceRead r).2.isrS = s.isrS := by cases r <;> simp [State.deviceRead]
@[simp] theorem State.deviceRead_split (s : State) (r : Reg) : (s.deviceRead r).2.split = s.split := by cases r <;> simp [State.deviceRead]
@[simp] theorem State.deviceRead_devCtrl (s : State) (r : Reg) : (s.deviceRead r).2.devCtrl = s.devCtrl := by cases r <;> simp [State.deviceRead]
@[simp] theorem State.deviceRead_devImask (s : State) (r : Reg) : (s.deviceRead r).2.devImask = s.devImask := by cases r <;> simp [State.deviceRead]
@[simp] theorem State.deviceRead_ev (s : State) (r : Reg) : (s.deviceRead r).2.ev = s.ev := by cases r <;> simp [State.deviceRead]
@[simp] theorem State.deviceRead_cmds (s : State) (r : Reg) : (s.deviceRead r).2.cmds = s.cmds := by cases r <;> simp [State.deviceRead]
@[simp] theorem State.deviceRead_moves (s : State) (r : Reg) : (s.deviceRead r).2.moves = s.moves := by cases r <;> simp [State.deviceRead]
@[simp] theorem State.deviceRead_later (s : State) (r : Reg) : (s.deviceRead r).2.later = s.later := by cases r <;> simp [State.deviceRead]
@[simp] theorem State.deviceRead_moveCount (s : State) (r : Reg) : (s.deviceRead r).2.moveCount = s.moveCount := by cases r <;> simp [State.deviceRead]
@[simp] theorem busRead_cfg (ctx : Ctx) (r : Reg) (s : State) : (busRead ctx r s).2.cfg = s.cfg := by simp [busRead]
@[simp] theorem busRead_life (ctx : Ctx) (r : Reg) (s : State) : (busRead ctx r s).2.life = s.life := by simp [busRead]
@[simp] theorem busRead_tx (ctx : Ctx) (r : Reg) (s : State) : (busRead ctx r s).2.tx = s.tx := by simp [busRead]
@[simp] theorem busRead_rx (ctx : Ctx) (r : Reg) (s : State) : (busRead ctx r s).2.rx = s.rx := by simp [busRead]
@[simp] theorem busRead_boundAddr (ctx : Ctx) (r : Reg) (s : State) : (busRead ctx r s).2.boundAddr = s.boundAddr := by simp [busRead]
@[simp] theorem busRead_result (ctx : Ctx) (r : Reg) (s : State) : (busRead ctx r s).2.result = s.result := by simp [busRead]
@[simp] theorem busRead_err (ctx : Ctx) (r : Reg) (s : State) : (busRead ctx r s).2.err = s.err := by simp [busRead]
@[simp] theorem busRead_faultCause (ctx : Ctx) (r : Reg) (s : State) : (busRead ctx r s).2.faultCause = s.faultCause := by simp [busRead]
@[simp] theorem busRead_faultInfo (ctx : Ctx) (r : Reg) (s : State) : (busRead ctx r s).2.faultInfo = s.faultInfo := by simp [busRead]
@[simp] theorem busRead_isrPc (ctx : Ctx) (r : Reg) (s : State) : (busRead ctx r s).2.isrPc = s.isrPc := by simp [busRead]
@[simp] theorem busRead_isrS (ctx : Ctx) (r : Reg) (s : State) : (busRead ctx r s).2.isrS = s.isrS := by simp [busRead]
@[simp] theorem busRead_split (ctx : Ctx) (r : Reg) (s : State) : (busRead ctx r s).2.split = s.split := by simp [busRead]
@[simp] theorem busRead_devCtrl (ctx : Ctx) (r : Reg) (s : State) : (busRead ctx r s).2.devCtrl = s.devCtrl := by simp [busRead]
@[simp] theorem busRead_devImask (ctx : Ctx) (r : Reg) (s : State) : (busRead ctx r s).2.devImask = s.devImask := by simp [busRead]
@[simp] theorem busRead_cmds (ctx : Ctx) (r : Reg) (s : State) : (busRead ctx r s).2.cmds = s.cmds := by simp [busRead]
@[simp] theorem busRead_moves (ctx : Ctx) (r : Reg) (s : State) : (busRead ctx r s).2.moves = s.moves := by simp [busRead]
@[simp] theorem busRead_later (ctx : Ctx) (r : Reg) (s : State) : (busRead ctx r s).2.later = s.later := by simp [busRead]
@[simp] theorem busRead_moveCount (ctx : Ctx) (r : Reg) (s : State) : (busRead ctx r s).2.moveCount = s.moveCount := by simp [busRead]
@[simp] theorem busWrite_cfg (ctx : Ctx) (r : Reg) (v : Word) (s : State) : (busWrite ctx r v s).cfg = s.cfg := by simp [busWrite]
@[simp] theorem busWrite_life (ctx : Ctx) (r : Reg) (v : Word) (s : State) : (busWrite ctx r v s).life = s.life := by simp [busWrite]
@[simp] theorem busWrite_tx (ctx : Ctx) (r : Reg) (v : Word) (s : State) : (busWrite ctx r v s).tx = s.tx := by simp [busWrite]
@[simp] theorem busWrite_rx (ctx : Ctx) (r : Reg) (v : Word) (s : State) : (busWrite ctx r v s).rx = s.rx := by simp [busWrite]
@[simp] theorem busWrite_boundAddr (ctx : Ctx) (r : Reg) (v : Word) (s : State) : (busWrite ctx r v s).boundAddr = s.boundAddr := by simp [busWrite]
@[simp] theorem busWrite_result (ctx : Ctx) (r : Reg) (v : Word) (s : State) : (busWrite ctx r v s).result = s.result := by simp [busWrite]
@[simp] theorem busWrite_err (ctx : Ctx) (r : Reg) (v : Word) (s : State) : (busWrite ctx r v s).err = s.err := by simp [busWrite]
@[simp] theorem busWrite_faultCause (ctx : Ctx) (r : Reg) (v : Word) (s : State) : (busWrite ctx r v s).faultCause = s.faultCause := by simp [busWrite]
@[simp] theorem busWrite_faultInfo (ctx : Ctx) (r : Reg) (v : Word) (s : State) : (busWrite ctx r v s).faultInfo = s.faultInfo := by simp [busWrite]
@[simp] theorem busWrite_isrPc (ctx : Ctx) (r : Reg) (v : Word) (s : State) : (busWrite ctx r v s).isrPc = s.isrPc := by simp [busWrite]
@[simp] theorem busWrite_isrS (ctx : Ctx) (r : Reg) (v : Word) (s : State) : (busWrite ctx r v s).isrS = s.isrS := by simp [busWrite]
@[simp] theorem busWrite_split (ctx : Ctx) (r : Reg) (v : Word) (s : State) : (busWrite ctx r v s).split = s.split := by simp [busWrite]
@[simp] theorem busWrite_cmds (ctx : Ctx) (r : Reg) (v : Word) (s : State) : (busWrite ctx r v s).cmds = s.cmds := by simp [busWrite]
@[simp] theorem busWrite_moves (ctx : Ctx) (r : Reg) (v : Word) (s : State) : (busWrite ctx r v s).moves = s.moves := by simp [busWrite]
@[simp] theorem busWrite_later (ctx : Ctx) (r : Reg) (v : Word) (s : State) : (busWrite ctx r v s).later = s.later := by simp [busWrite]
@[simp] theorem busWrite_moveCount (ctx : Ctx) (r : Reg) (v : Word) (s : State) : (busWrite ctx r v s).moveCount = s.moveCount := by simp [busWrite]
@[simp] theorem busWrite_draws (ctx : Ctx) (r : Reg) (v : Word) (s : State) : (busWrite ctx r v s).draws = s.draws := by simp [busWrite]
@[simp] theorem busWrite_drawCount (ctx : Ctx) (r : Reg) (v : Word) (s : State) : (busWrite ctx r v s).drawCount = s.drawCount := by simp [busWrite]

end Sys2Proof.Machine
end

