-- ==== Sys2Proof/Laws/Ops.lean ====
section
/-! SUPPORT. One lemma for each shared operation that says everything it can do, so that later proofs cite
it and do not unfold the operation. -/

namespace Sys2Proof.Machine

/-! The buffers. -/

/-- A ring read of a slot that exists. -/
theorem ringRead_eq {s : State} {sel : Sel} {i : Nat} (h : i < s.cfg.capacity) :
    s.ringRead sel i = .ok ((s.ring sel).store.read i) := if_pos h

/-- A ring write of a slot that exists. -/
theorem ringWrite_eq {s : State} {sel : Sel} {i : Nat} (v : Byte) (h : i < s.cfg.capacity) :
    s.ringWrite sel i v =
      .ok (s.setRing sel { s.ring sel with store := (s.ring sel).store.write i v }) := if_pos h

/-- The buffer after a PUSH. -/
def Ring.pushed (r : Ring) (cap : Nat) (b : Byte) : Ring :=
  { store := r.store.write r.wc b, rc := r.rc, wc := (r.wc + 1) % cap }

/-- The buffer after a POP. -/
def Ring.popped (r : Ring) (cap : Nat) : Ring :=
  { store := r.store.write r.rc 0, rc := if r.rc = r.wc then r.rc else (r.rc + 1) % cap, wc := r.wc }

/-- A PUSH primitive at a write cursor below C. -/
theorem pushByte_eq {sel : Sel} {s : State} (b : Byte) (h : (s.ring sel).wc < s.cfg.capacity) :
    pushByte sel b s = .ok (s.setRing sel ((s.ring sel).pushed s.cfg.capacity b)) := by
  simp [pushByte, ringWrite_eq b h, State.advanceWc, State.advance, Ring.pushed]

/-- A POP primitive at a read cursor below C. -/
theorem popByte_eq {sel : Sel} {s : State} (h : (s.ring sel).rc < s.cfg.capacity) :
    popByte sel s = .ok ((s.ring sel).store.read (s.ring sel).rc, !(s.ring sel).empty,
      s.setRing sel ((s.ring sel).popped s.cfg.capacity)) := by
  simp only [popByte, ringRead_eq h, ringWrite_eq 0 h]
  by_cases he : (s.ring sel).rc = (s.ring sel).wc <;>
    simp [Ring.empty, Ring.popped, State.advanceRcFrom, State.advance, he]

/-- When a PUSH primitive answers, the write cursor was below C. -/
theorem pushByte_ok {sel : Sel} {b : Byte} {s t : State} (h : pushByte sel b s = .ok t) :
    (s.ring sel).wc < s.cfg.capacity ∧
      t = s.setRing sel ((s.ring sel).pushed s.cfg.capacity b) := by
  by_cases hc : (s.ring sel).wc < s.cfg.capacity
  · rw [pushByte_eq b hc] at h
    exact ⟨hc, (Except.ok.inj h).symm⟩
  · simp [pushByte, State.ringWrite, hc] at h

/-- When a POP primitive answers, the read cursor was below C. -/
theorem popByte_ok {sel : Sel} {s t : State} {v : Byte} {found : Bool}
    (h : popByte sel s = .ok (v, found, t)) :
    (s.ring sel).rc < s.cfg.capacity ∧ v = (s.ring sel).store.read (s.ring sel).rc ∧
      found = !(s.ring sel).empty ∧ t = s.setRing sel ((s.ring sel).popped s.cfg.capacity) := by
  by_cases hc : (s.ring sel).rc < s.cfg.capacity
  · rw [popByte_eq hc] at h
    simp only [Except.ok.injEq, Prod.mk.injEq] at h
    exact ⟨hc, h.1.symm, h.2.1.symm, h.2.2.symm⟩
  · simp [popByte, State.ringRead, hc] at h

/-- A well-formed buffer stays so after a PUSH. -/
theorem RingOk.pushed {cap : Nat} {r : Ring} (b : Byte) (h : RingOk cap r) : RingOk cap (r.pushed cap b) :=
  ⟨Memory.wf_write h.store h.wc, h.rc, Nat.mod_lt _ (by have := h.rc; omega)⟩

/-- A well-formed buffer stays so after a POP. -/
theorem RingOk.popped {cap : Nat} {r : Ring} (h : RingOk cap r) : RingOk cap (r.popped cap) := by
  refine ⟨Memory.wf_write h.store h.rc, ?_, h.wc⟩
  simp only [Ring.popped]
  split
  · exact h.rc
  · exact Nat.mod_lt _ (by have := h.rc; omega)

/-! The bus. -/

/-- A draw gives the next scripted answer or the free value. -/
theorem draw_fst (s : State) : s.draw.1 = nextDraw s := by
  unfold State.draw nextDraw
  cases s.draws <;> rfl

/-- A draw takes that answer and nothing else. -/
theorem draw_snd (s : State) :
    s.draw.2 = { s with draws := s.draws.tail, drawCount := s.drawCount + 1 } := by
  unfold State.draw
  cases s.draws <;> rfl

/-- The value the device gives to a read. -/
theorem deviceRead_fst (s : State) (r : Reg) : (s.deviceRead r).1 = deviceAnswer s r := by
  cases r <;> simp [State.deviceRead, deviceAnswer, truncTo, Reg.width, draw_fst]

/-- What a device read changes: a draw is taken for a volatile register. -/
theorem deviceRead_snd (s : State) (r : Reg) :
    (s.deviceRead r).2 =
      if isVolatile r then { s with draws := s.draws.tail, drawCount := s.drawCount + 1 } else s := by
  cases r <;> simp [State.deviceRead, isVolatile, draw_snd]

/-- The value a bus read gives. -/
theorem busRead_fst (ctx : Ctx) (r : Reg) (s : State) : (busRead ctx r s).1 = deviceAnswer s r :=
  deviceRead_fst s r

/-- What a bus read records. -/
theorem busRead_ev (ctx : Ctx) (r : Reg) (s : State) :
    (busRead ctx r s).2.ev = s.ev ++ [.rd ctx r (s.boundAddr.get r) r.width (deviceAnswer s r)] := by
  simp [busRead, deviceRead_fst]

/-- What a bus read takes from the environment. -/
theorem busRead_draws (ctx : Ctx) (r : Reg) (s : State) :
    (busRead ctx r s).2.draws = if isVolatile r then s.draws.tail else s.draws := by
  simp only [busRead, deviceRead_snd]
  split <;> rfl

/-- How far a bus read moves the draw counter. -/
theorem busRead_drawCount (ctx : Ctx) (r : Reg) (s : State) :
    (busRead ctx r s).2.drawCount = if isVolatile r then s.drawCount + 1 else s.drawCount := by
  simp only [busRead, deviceRead_snd]
  split <;> rfl

/-- What a bus write records. -/
theorem busWrite_ev (ctx : Ctx) (r : Reg) (v : Word) (s : State) :
    (busWrite ctx r v s).ev = s.ev ++ [.wr ctx r (s.boundAddr.get r) r.width (truncTo r v)] := by
  simp [busWrite]

/-- What a bus write leaves in UART_CTRL. -/
theorem busWrite_devCtrl (ctx : Ctx) (r : Reg) (v : Word) (s : State) :
    (busWrite ctx r v s).devCtrl = if r = .uartCtrl then v else s.devCtrl := by
  cases r <;> simp [busWrite, State.deviceWrite, truncTo, Reg.width]

/-- What a bus write leaves in INT_MASK. -/
theorem busWrite_devImask (ctx : Ctx) (r : Reg) (v : Word) (s : State) :
    (busWrite ctx r v s).devImask = if r = .intMask then lowByte v else s.devImask := by
  cases r <;> simp [busWrite, State.deviceWrite, truncTo, Reg.width, lowByte, zext32]

/-! The checks of a command. -/

/-- A command in FAULTED. -/
theorem onCommand_faulted {i : Instr} {s : State} {f : State → Result} (h : s.life = .faulted) :
    onCommand i s f = .next (answerError s) := if_pos h

/-- A command whose check fails. -/
theorem onCommand_check {i : Instr} {s : State} {f : State → Result} {c : FaultCause}
    (h : s.life ≠ .faulted) (hc : commandCheck i s = some c) :
    onCommand i s f = .next (commandFault c (cmdWord i) s) := by
  simp [onCommand, h, hc]

/-- A command that passes its checks. -/
theorem onCommand_perform {i : Instr} {s : State} {f : State → Result}
    (h : s.life ≠ .faulted) (hc : commandCheck i s = none) : onCommand i s f = f s := by
  simp [onCommand, h, hc]

/-- Everything a command can do: answer in FAULTED, take a fault, or be performed. -/
theorem onCommand_cases {i : Instr} {s : State} {f : State → Result} :
    (s.life = .faulted ∧ onCommand i s f = .next (answerError s)) ∨
    (s.life ≠ .faulted ∧ ∃ c, commandCheck i s = some c ∧
      onCommand i s f = .next (commandFault c (cmdWord i) s)) ∨
    (s.life ≠ .faulted ∧ commandCheck i s = none ∧ onCommand i s f = f s) := by
  by_cases h : s.life = .faulted
  · exact .inl ⟨h, onCommand_faulted h⟩
  · cases hc : commandCheck i s with
    | some c => exact .inr (.inl ⟨h, c, rfl, onCommand_check h hc⟩)
    | none => exact .inr (.inr ⟨h, rfl, onCommand_perform h hc⟩)

/-- In READY a command but INIT, in a role the SPSC check admits, passes. -/
theorem commandCheck_ready {i : Instr} {s : State} (h : s.life = .ready) (hi : i ≠ .init)
    (hr : s.cfg.strictSpsc = true → wrongRole i = false) : commandCheck i s = none := by
  unfold commandCheck
  rw [if_neg (by simp [h]), if_neg (by simp [hi]), if_neg]
  rintro ⟨hs, hw⟩
  simp [hr hs] at hw

/-- In UNINIT only INIT passes. -/
theorem commandCheck_uninit {s : State} (h : s.life = .uninit) (i : Instr) :
    commandCheck i s = if i = .init then none else some .notInit := by
  cases i <;> simp [commandCheck, h, wrongRole]

/-- A command that passes its checks in a state that is not FAULTED is INIT in UNINIT or another command in
READY. -/
theorem commandCheck_none {i : Instr} {s : State} (h : s.life ≠ .faulted) (hc : commandCheck i s = none) :
    (s.life = .uninit ∧ i = .init) ∨ (s.life = .ready ∧ i ≠ .init) := by
  unfold commandCheck at hc
  by_cases hi : i = .init <;> cases hl : s.life <;> simp_all

end Sys2Proof.Machine
end

