-- ==== Sys2Proof/Laws/Isr.lean ====
section
/-! SUPPORT. What a step of the sequencer can do, said once. -/

namespace Sys2Proof.Machine

/-- Everything a step of the sequencer can lead to, state by state. -/
inductive IsrStepped (s : State) : State → Prop where
  | idle : s.isrPc = .idle → IsrStepped s s
  | entry : s.isrPc = .entry → IsrStepped s
      ({ (busRead .isr .intStat s).2 with isrS := lowByte (deviceAnswer s .intStat) }.goto
        (if bitSet (lowByte (deviceAnswer s .intStat)) s.cfg.intRx then .rxAck else .txTest))
  | rxAck : s.isrPc = .rxAck → IsrStepped s
      ((busWrite .isr .intAck (zext32 s.cfg.intRx) s).goto .fillTest)
  | fillTest : s.isrPc = .fillTest → IsrStepped s
      ((busRead .isr .uartStat s).2.goto
        (if bitSet (deviceAnswer s .uartStat) s.cfg.dataReady then .fillMove else .txTest))
  | fillMove : s.isrPc = .fillMove → s.rx.wc < s.cfg.capacity → IsrStepped s
      (((busRead .isr .uartRxd s).2.setRing .rx
        (s.rx.pushed s.cfg.capacity (lowByte (deviceAnswer s .uartRxd)))).goto .fillTest)
  | txTest : s.isrPc = .txTest → IsrStepped s
      (s.goto (if bitSet s.isrS s.cfg.intTx then .txAck else .ret))
  | txAck : s.isrPc = .txAck → IsrStepped s
      ((busWrite .isr .intAck (zext32 s.cfg.intTx) s).goto .drainTrig)
  | drainTrig : s.isrPc = .drainTrig → IsrStepped s
      ((busRead .isr .uartStat s).2.goto
        (if bitSet (deviceAnswer s .uartStat) s.cfg.fifoEmpty then .drainTest else .ret))
  | drainTest : s.isrPc = .drainTest → IsrStepped s
      ((busRead .isr .uartStat s).2.goto
        (if bitSet (deviceAnswer s .uartStat) s.cfg.fifoFull then .drainEnd
          else if s.txEmpty then .drainEnd else .drainMove))
  | drainMove : s.isrPc = .drainMove → s.tx.rc < s.cfg.capacity → IsrStepped s
      ((busWrite .isr .uartTxd (zext32 (s.tx.store.read s.tx.rc))
        (s.setRing .tx (s.tx.popped s.cfg.capacity))).goto .drainTest)
  | disarm : s.isrPc = .drainEnd → s.txEmpty = true → IsrStepped s
      ((busWrite .isr .intMask (zext32 s.devImask &&& ~~~(truncTo .intMask (zext32 s.cfg.intTx)))
        (busRead .isr .intMask s).2).goto .ret)
  | keepArmed : s.isrPc = .drainEnd → s.txEmpty = false → IsrStepped s (s.goto .ret)
  | ret : s.isrPc = .ret → IsrStepped s (isrReturn s)

/-- Everything a step of the sequencer can do when it answers a next state. -/
theorem isrStep_next {s t : State} (h : isrStep s = .next t) : IsrStepped s t := by
  unfold isrStep at h
  split at h <;> rename_i hpc
  · cases h; exact .idle hpc
  · have e := IsrStepped.entry hpc
    rw [← busRead_fst .isr .intStat s] at e
    cases h; exact e
  · cases h; exact .rxAck hpc
  · have e := IsrStepped.fillTest hpc
    rw [← busRead_fst .isr .uartStat s] at e
    cases h; exact e
  · simp only [isrFillMove, busRead_fst] at h
    split at h
    · cases h
    · rename_i s'' hs
      obtain ⟨hc, rfl⟩ := pushByte_ok hs
      cases h
      simp only [State.ring_rx, busRead_rx, busRead_cfg] at hc ⊢
      exact .fillMove hpc hc
  · cases h; exact .txTest hpc
  · cases h; exact .txAck hpc
  · have e := IsrStepped.drainTrig hpc
    rw [← busRead_fst .isr .uartStat s] at e
    cases h; exact e
  · have e := IsrStepped.drainTest hpc
    have htx : (busRead .isr .uartStat s).2.txEmpty = s.txEmpty := by simp [State.txEmpty]
    rw [← busRead_fst .isr .uartStat s, ← htx] at e
    cases h; exact e
  · simp only [isrDrainMove] at h
    split at h
    · cases h
    · rename_i b found s' hs
      obtain ⟨hc, rfl, rfl, rfl⟩ := popByte_ok hs
      cases h
      exact .drainMove hpc hc
  · simp only [isrDrainEnd] at h
    split at h
    · cases h; exact .disarm hpc ‹_›
    · cases h; exact .keepArmed hpc (Bool.not_eq_true _ ▸ ‹¬ s.txEmpty = true›)
  · cases h; exact .ret hpc

end Sys2Proof.Machine
end

