-- ==== Sys2Proof/Laws/Launch.lean ====
section
/-! SUPPORT. What the test for a one-bit value says. -/

namespace Sys2Proof

/-- A one-bit value is a power of 2 below 2 to its width. -/
theorem isOneBit_iff {w : Nat} (v : BitVec w) : isOneBit v = true ↔ ∃ i, i < w ∧ v.toNat = 2 ^ i := by
  have h0 : v = 0 ↔ v.toNat = 0 := by
    constructor
    · rintro rfl
      simp
    · intro h
      exact BitVec.eq_of_toNat_eq (by simpa using h)
  have hs : ∀ h : v.toNat ≠ 0, (v - 1).toNat = v.toNat - 1 := fun h => by
    have := v.isLt
    have hw : 0 < w := by
      rcases Nat.eq_zero_or_pos w with rfl | hw
      · omega
      · exact hw
    have h1 : (1 : BitVec w).toNat = 1 := by
      simpa using Nat.mod_eq_of_lt (Nat.one_lt_two_pow hw.ne')
    rw [BitVec.toNat_sub_of_le (by rw [BitVec.le_def, h1]; omega), h1]
  have ha : v.toNat ≠ 0 → (v &&& (v - 1) = 0 ↔ v.toNat &&& (v.toNat - 1) = 0) := fun h => by
    rw [← hs h, ← BitVec.toNat_and]
    constructor
    · intro e
      rw [e]
      rfl
    · exact fun e => BitVec.eq_of_toNat_eq e
  simp only [isOneBit, Bool.and_eq_true, bne_iff_ne, ne_eq, beq_iff_eq, h0]
  constructor
  · rintro ⟨hn, he⟩
    obtain ⟨i, hi⟩ := (Nat.and_sub_one_eq_zero_iff_isPowerOfTwo hn).1 ((ha hn).1 he)
    refine ⟨i, ?_, hi⟩
    have := v.isLt
    rw [hi] at this
    exact (Nat.pow_lt_pow_iff_right (by omega)).1 this
  · rintro ⟨i, -, hi⟩
    have hn : v.toNat ≠ 0 := by
      rw [hi]
      exact (Nat.two_pow_pos i).ne'
    exact ⟨hn, (ha hn).2 ((Nat.and_sub_one_eq_zero_iff_isPowerOfTwo hn).2 ⟨i, hi⟩)⟩

end Sys2Proof
end

