-- ==== Sys2Proof/Laws/PerInstr.lean ====
section
/-! SUPPORT. Facts about every command as syntax, one lemma for each constructor of `Instr`. -/

namespace Sys2Proof.Laws.CommandWord

/-- The command word is legal in its own right: its operation is 1 to 7, its register field names a register,
and every reserved bit is 0 (30_encoding.md R71, R72, R76). -/
def Statement (i : Instr) : Prop :=
  1 ≤ (cmdOp (cmdWord i)).toNat ∧ (cmdOp (cmdWord i)).toNat ≤ 7 ∧ cmdReg (cmdWord i) ≠ 7 ∧
    cmdWord i &&& 0x08FEFFFF = 0

theorem init : Statement .init := by unfold Statement; decide

theorem push (sel : Sel) (b : Byte) : Statement (.push sel b) := by
  cases sel <;> (unfold Statement; simp only [cmdWord]; decide)

theorem pop (sel : Sel) : Statement (.pop sel) := by
  cases sel <;> (unfold Statement; simp only [cmdWord]; decide)

theorem rread (r : Reg) : Statement (.rread r) := by
  cases r <;> (unfold Statement; simp only [cmdWord]; decide)

theorem rwrite (r : Reg) (v : Word) : Statement (.rwrite r v) := by
  cases r <;> (unfold Statement; simp only [cmdWord]; decide)

theorem ror (r : Reg) (m : Word) : Statement (.ror r m) := by
  cases r <;> (unfold Statement; simp only [cmdWord]; decide)

theorem randc (r : Reg) (m : Word) : Statement (.randc r m) := by
  cases r <;> (unfold Statement; simp only [cmdWord]; decide)

end Sys2Proof.Laws.CommandWord
end

