-- ==== Sys2Proof/Laws/Ring.lean ====
section
/-! SUPPORT. The arithmetic of cursors below C, and what a PUSH and a POP do to a buffer's occupancy and to
its unread bytes, said once. -/

namespace Sys2Proof.Machine

/-- The remainder of a number below twice the modulus. -/
theorem mod_of_lt_two_mul {a cap : Nat} (h : a < 2 * cap) : a % cap = if a < cap then a else a - cap := by
  split
  · exact Nat.mod_eq_of_lt ‹_›
  · rw [Nat.mod_eq_sub_mod (by omega), Nat.mod_eq_of_lt (by omega)]

/-- The advance of a cursor, without a remainder. -/
theorem succ_mod {a cap : Nat} (h : a < cap) : (a + 1) % cap = if a + 1 = cap then 0 else a + 1 := by
  split
  · simp [*]
  · exact Nat.mod_eq_of_lt (by omega)

/-- The occupancy, without a remainder. -/
theorem RingOk.occ_eq {r : Ring} {cap : Nat} (h : RingOk cap r) :
    r.occ cap = if r.rc ≤ r.wc then r.wc - r.rc else r.wc + cap - r.rc := by
  have := h.rc
  have := h.wc
  unfold Ring.occ
  split
  · rw [show r.wc + cap - r.rc = (r.wc - r.rc) + cap by omega, Nat.add_mod_right,
      Nat.mod_eq_of_lt (by omega)]
  · rw [Nat.mod_eq_of_lt (by omega)]

/-- The occupancy is at most C - 1. -/
theorem RingOk.occ_lt {r : Ring} {cap : Nat} (h : RingOk cap r) : r.occ cap < cap := by
  have := h.rc
  have := h.wc
  rw [h.occ_eq]
  split <;> omega

/-- The occupancy is 0 exactly when the cursors are equal. -/
theorem RingOk.occ_zero {r : Ring} {cap : Nat} (h : RingOk cap r) : r.occ cap = 0 ↔ r.rc = r.wc := by
  have := h.rc
  have := h.wc
  rw [h.occ_eq]
  split <;> omega

/-- There are as many unread bytes as the occupancy says. -/
theorem Ring.contents_length (r : Ring) (cap : Nat) : (r.contents cap).length = r.occ cap := by
  simp [Ring.contents]

/-- The occupancy after a PUSH. -/
theorem RingOk.occ_pushed {r : Ring} {cap : Nat} (b : Byte) (h : RingOk cap r) :
    (r.pushed cap b).occ cap = (r.occ cap + 1) % cap := by
  have := h.rc
  have := h.wc
  rw [(h.pushed b).occ_eq, succ_mod h.occ_lt, h.occ_eq]
  simp only [Ring.pushed, succ_mod h.wc]
  split <;> split <;> (try split) <;> (try split) <;> omega

/-- The unread bytes after a PUSH. -/
theorem RingOk.contents_pushed {r : Ring} {cap : Nat} (b : Byte) (h : RingOk cap r) :
    (r.pushed cap b).contents cap =
      if r.occ cap + 1 = cap then [] else r.contents cap ++ [b] := by
  have h1 := h.rc
  have h2 := h.wc
  have ho := h.occ_pushed b
  have hl := h.occ_lt
  rw [succ_mod hl] at ho
  unfold Ring.contents
  rw [ho]
  split
  · simp
  · rw [List.range_succ, List.map_append]
    congr 1
    · apply List.map_congr_left
      intro k hk
      have hk' := List.mem_range.1 hk
      have hk := hk'
      rw [h.occ_eq] at hk
      simp only [Ring.pushed]
      apply Memory.read_write_other
      rw [mod_of_lt_two_mul (by omega)]
      split at hk <;> split <;> omega
    · simp only [Ring.pushed, List.map_cons, List.map_nil]
      have hw : (r.rc + r.occ cap) % cap = r.wc := by
        rw [mod_of_lt_two_mul (by omega), h.occ_eq]
        split <;> split <;> omega
      rw [hw, Memory.read_write_same h.store]

/-- An empty buffer has no unread bytes. -/
theorem RingOk.contents_empty {r : Ring} {cap : Nat} (h : RingOk cap r) (he : r.rc = r.wc) :
    r.contents cap = [] := by
  unfold Ring.contents
  rw [h.occ_zero.2 he]
  rfl

/-- A POP that finds a byte takes the oldest. -/
theorem RingOk.contents_popped {r : Ring} {cap : Nat} (h : RingOk cap r) (he : r.rc ≠ r.wc) :
    r.contents cap = r.store.read r.rc :: (r.popped cap).contents cap := by
  have h1 := h.rc
  have h2 := h.wc
  have e := succ_mod h1
  have ho : r.occ cap = (r.popped cap).occ cap + 1 := by
    rw [h.occ_eq, h.popped.occ_eq]
    simp only [Ring.popped, if_neg he, e]
    split <;> split <;> (try split) <;> omega
  have hl := h.occ_lt
  unfold Ring.contents
  rw [ho, List.range_succ_eq_map, List.map_cons, List.map_map]
  congr 1
  · simp [Nat.mod_eq_of_lt h1]
  · apply List.map_congr_left
    intro k hk
    have hk := List.mem_range.1 hk
    simp only [Ring.popped, if_neg he, Function.comp, e]
    rw [mod_of_lt_two_mul (by omega)]
    have hs : ((if r.rc + 1 = cap then 0 else r.rc + 1) + k) % cap =
        if r.rc + k.succ < cap then r.rc + k.succ else r.rc + k.succ - cap := by
      rw [mod_of_lt_two_mul (by split <;> omega)]
      split <;> split <;> split <;> omega
    rw [hs]
    rw [ho] at hl
    symm
    apply Memory.read_write_other
    split <;> omega

/-- A POP on an empty buffer only clears the slot. -/
theorem Ring.popped_empty {r : Ring} (cap : Nat) (he : r.rc = r.wc) :
    r.popped cap = { r with store := r.store.write r.rc 0 } := by
  simp [Ring.popped, he]

/-- The value of RESULT after a POP. -/
theorem popResult_toNat (found : Bool) (v : Byte) :
    (popResult found v).toNat = (if found then 2 ^ 8 else 0) + v.toNat := by
  have := v.isLt
  have h := Nat.two_pow_add_eq_or_of_lt (i := 8) this 1
  cases found
  · simp only [popResult, BitVec.toNat_setWidth, BitVec.toNat_append, BitVec.ofBool_false,
      Bool.false_eq_true, if_false]
    simp
    omega
  · simp only [popResult, BitVec.toNat_setWidth, BitVec.toNat_append, BitVec.ofBool_true, if_true]
    simp [Nat.shiftLeft_eq] at h ⊢
    omega

/-- Both buffers are well formed under the invariant. -/
theorem StateInv.ring {s : State} (h : StateInv s) (sel : Sel) : RingOk s.cfg.capacity (s.ring sel) := by
  cases sel
  · exact h.tx
  · exact h.rx

end Sys2Proof.Machine
end

