-- ==== Sys2Proof/Laws/Step.lean ====
section
/-! SUPPORT. What a command and a step can do, each said once: the inversions every proof about a next
state starts from. -/

namespace Sys2Proof.Machine

/-- What performing a command leads to, once its checks have passed. -/
inductive Performed : Instr → State → State → Prop where
  | init (s) : Performed .init s (answer 0 (initialise s))
  | push (s) (sel) (b) : s.cfg.atomicRingOps = true → (s.ring sel).wc < s.cfg.capacity →
      Performed (.push sel b) s (answer 0 (s.setRing sel ((s.ring sel).pushed s.cfg.capacity b)))
  | pushSplit (s) (sel) (b) : s.cfg.atomicRingOps = false → (s.ring sel).wc < s.cfg.capacity →
      Performed (.push sel b) s
        { s.setRing sel { s.ring sel with store := (s.ring sel).store.write (s.ring sel).wc b } with
          split := some (.p2 sel (s.ring sel).wc) }
  | pop (s) (sel) : s.cfg.atomicRingOps = true → (s.ring sel).rc < s.cfg.capacity →
      Performed (.pop sel) s
        (answer (popResult (!(s.ring sel).empty) ((s.ring sel).store.read (s.ring sel).rc))
          (s.setRing sel ((s.ring sel).popped s.cfg.capacity)))
  | popSplit (s) (sel) : s.cfg.atomicRingOps = false → (s.ring sel).rc < s.cfg.capacity →
      Performed (.pop sel) s
        { s with split := some (.q2 sel (s.ring sel).rc ((s.ring sel).store.read (s.ring sel).rc)) }
  | rread (s) (r) : Performed (.rread r) s (answer (deviceAnswer s r) (busRead .app r s).2)
  | rwrite (s) (r) (v) : Performed (.rwrite r v) s (answer 0 (busWrite .app r v s))
  | ror (s) (r) (m) : Performed (.ror r m) s
      (answer 0 (busWrite .app r (deviceAnswer s r ||| truncTo r m) (busRead .app r s).2))
  | randc (s) (r) (m) : Performed (.randc r m) s
      (answer 0 (busWrite .app r (deviceAnswer s r &&& ~~~(truncTo r m)) (busRead .app r s).2))

theorem pushAtomic_next {sel : Sel} {b : Byte} {s t : State} (h : pushAtomic sel b s = .next t) :
    (s.ring sel).wc < s.cfg.capacity ∧
      t = answer 0 (s.setRing sel ((s.ring sel).pushed s.cfg.capacity b)) := by
  unfold pushAtomic at h
  split at h
  · cases h
  · rename_i s' hs
    obtain ⟨hc, rfl⟩ := pushByte_ok hs
    exact ⟨hc, (Host.Outcome.next.inj h).symm⟩

theorem popAtomic_next {sel : Sel} {s t : State} (h : popAtomic sel s = .next t) :
    (s.ring sel).rc < s.cfg.capacity ∧
      t = answer (popResult (!(s.ring sel).empty) ((s.ring sel).store.read (s.ring sel).rc))
        (s.setRing sel ((s.ring sel).popped s.cfg.capacity)) := by
  unfold popAtomic at h
  split at h
  · cases h
  · rename_i v found s' hs
    obtain ⟨hc, rfl, rfl, rfl⟩ := popByte_ok hs
    exact ⟨hc, (Host.Outcome.next.inj h).symm⟩

theorem ringWrite_ok {sel : Sel} {i : Nat} {v : Byte} {s t : State} (h : s.ringWrite sel i v = .ok t) :
    i < s.cfg.capacity ∧
      t = s.setRing sel { s.ring sel with store := (s.ring sel).store.write i v } := by
  unfold State.ringWrite at h
  split at h
  · exact ⟨‹_›, (Except.ok.inj h).symm⟩
  · cases h

theorem pushP1_next {sel : Sel} {b : Byte} {s t : State} (h : pushP1 sel b s = .next t) :
    (s.ring sel).wc < s.cfg.capacity ∧
      t = { s.setRing sel { s.ring sel with store := (s.ring sel).store.write (s.ring sel).wc b } with
        split := some (.p2 sel (s.ring sel).wc) } := by
  simp only [pushP1] at h
  split at h
  · cases h
  · rename_i s' hs
    obtain ⟨hc, rfl⟩ := ringWrite_ok hs
    exact ⟨hc, (Host.Outcome.next.inj h).symm⟩

theorem popQ1_next {sel : Sel} {s t : State} (h : popQ1 sel s = .next t) :
    (s.ring sel).rc < s.cfg.capacity ∧
      t = { s with split := some (.q2 sel (s.ring sel).rc ((s.ring sel).store.read (s.ring sel).rc)) } := by
  simp only [popQ1] at h
  split at h
  · cases h
  · rename_i v hv
    unfold State.ringRead at hv
    split at hv
    · cases Except.ok.inj hv
      exact ⟨‹_›, (Host.Outcome.next.inj h).symm⟩
    · cases hv

theorem popQ3_next {sel : Sel} {i : Nat} {v : Byte} {e : Bool} {s t : State}
    (h : popQ3 sel i v e s = .next t) :
    i < s.cfg.capacity ∧
      t = { s.setRing sel { s.ring sel with store := (s.ring sel).store.write i 0 } with
        split := some (.q4 sel i v e) } := by
  simp only [popQ3] at h
  split at h
  · cases h
  · rename_i s' hs
    obtain ⟨hc, rfl⟩ := ringWrite_ok hs
    exact ⟨hc, (Host.Outcome.next.inj h).symm⟩

/-- Everything a command can do when it answers a next state. -/
theorem exec_next {i : Instr} {s t : State} (h : exec i s = .next t) :
    (s.life = .faulted ∧ t = answerError s) ∨
    (s.life ≠ .faulted ∧ ∃ c, commandCheck i s = some c ∧ t = commandFault c (cmdWord i) s) ∨
    (s.life ≠ .faulted ∧ commandCheck i s = none ∧ Performed i s t) := by
  have key : ∀ f : State → Result, onCommand i s f = .next t → (f s = .next t → Performed i s t) →
      (s.life = .faulted ∧ t = answerError s) ∨
      (s.life ≠ .faulted ∧ ∃ c, commandCheck i s = some c ∧ t = commandFault c (cmdWord i) s) ∨
      (s.life ≠ .faulted ∧ commandCheck i s = none ∧ Performed i s t) := by
    intro f hf hp
    rcases onCommand_cases (i := i) (s := s) (f := f) with ⟨hl, he⟩ | ⟨hl, c, hc, he⟩ | ⟨hl, hc, he⟩
    · exact .inl ⟨hl, (Host.Outcome.next.inj (he.symm.trans hf)).symm⟩
    · exact .inr (.inl ⟨hl, c, hc, (Host.Outcome.next.inj (he.symm.trans hf)).symm⟩)
    · exact .inr (.inr ⟨hl, hc, hp (he.symm.trans hf)⟩)
  cases i with
  | init =>
    simp only [exec, execInit] at h
    exact key _ h fun hp => by cases hp; exact .init s
  | push sel b =>
    simp only [exec, execPush] at h
    refine key _ h fun hp => ?_
    split at hp
    · obtain ⟨hc, rfl⟩ := pushAtomic_next hp; exact .push s sel b ‹_› hc
    · obtain ⟨hc, rfl⟩ := pushP1_next hp; exact .pushSplit s sel b (Bool.not_eq_true _ ▸ ‹¬ s.cfg.atomicRingOps = true›) hc
  | pop sel =>
    simp only [exec, execPop] at h
    refine key _ h fun hp => ?_
    split at hp
    · obtain ⟨hc, rfl⟩ := popAtomic_next hp; exact .pop s sel ‹_› hc
    · obtain ⟨hc, rfl⟩ := popQ1_next hp; exact .popSplit s sel (Bool.not_eq_true _ ▸ ‹¬ s.cfg.atomicRingOps = true›) hc
  | rread r =>
    simp only [exec, execRread] at h
    refine key _ h fun hp => ?_
    rw [← Host.Outcome.next.inj hp, busRead_fst]; exact .rread s r
  | rwrite r v =>
    simp only [exec, execRwrite] at h
    exact key _ h fun hp => by cases hp; exact .rwrite s r v
  | ror r m =>
    simp only [exec, execRor] at h
    refine key _ h fun hp => ?_
    rw [← Host.Outcome.next.inj hp]; simp only [busOr, busRead_fst]; exact .ror s r m
  | randc r m =>
    simp only [exec, execRandc] at h
    refine key _ h fun hp => ?_
    rw [← Host.Outcome.next.inj hp]; simp only [busAndClr, busRead_fst]; exact .randc s r m

/-- What the next step of a split command leads to. -/
inductive Resumed : Split → State → State → Prop where
  | p2 (s) (sel) (i) : Resumed (.p2 sel i) s
      (answer 0 ({ s with split := none }.setRing sel
        { s.ring sel with wc := ((s.ring sel).wc + 1) % s.cfg.capacity }))
  | q2 (s) (sel) (i) (v) : Resumed (.q2 sel i v) s
      { s with split := some (.q3 sel i v (i == (s.ring sel).wc)) }
  | q3 (s) (sel) (i) (v) (e) : i < s.cfg.capacity → Resumed (.q3 sel i v e) s
      { s.setRing sel { s.ring sel with store := (s.ring sel).store.write i 0 } with
        split := some (.q4 sel i v e) }
  | q4 (s) (sel) (i) (v) (e) : Resumed (.q4 sel i v e) s
      (answer (popResult (!e) v) ({ s with split := none }.setRing sel
        { s.ring sel with rc := if e then (s.ring sel).rc else (i + 1) % s.cfg.capacity }))

/-- Everything the next step of a split command can do when it answers a next state. -/
theorem resume_next {p : Split} {s t : State} (h : resume p s = .next t) : Resumed p s t := by
  cases p with
  | p2 sel i =>
    cases h
    cases sel <;> exact .p2 s _ i
  | q2 sel i v => cases h; exact .q2 s sel i v
  | q3 sel i v e => obtain ⟨hc, rfl⟩ := popQ3_next h; exact .q3 s sel i v e hc
  | q4 sel i v e =>
    have h := (Host.Outcome.next.inj h).symm
    subst h
    have := Resumed.q4 s sel i v e
    cases e <;> cases sel <;> exact this

/-- Everything the command port can do with a pair of words when it answers a next state: answer in FAULTED,
fault on an illegal word, fault on a failing check, or perform the command. -/
theorem acceptCommand_next {c o : Word} {s t : State} (h : acceptCommand c o s = .next t) :
    (s.life = .faulted ∧ t = answerError (s.emit (.cmd c o))) ∨
    (s.life ≠ .faulted ∧ ∃ why, decode c o = .error why ∧
      t = commandFault (causeOf why) c (s.emit (.cmd c o))) ∨
    (s.life ≠ .faulted ∧ ∃ i cause, decode c o = .ok i ∧ commandCheck i (s.emit (.cmd c o)) = some cause ∧
      t = commandFault cause (cmdWord i) (s.emit (.cmd c o))) ∨
    (s.life ≠ .faulted ∧ ∃ i, decode c o = .ok i ∧ commandCheck i (s.emit (.cmd c o)) = none ∧
      Performed i (s.emit (.cmd c o)) t) := by
  simp only [acceptCommand] at h
  split at h
  · rename_i why hd
    unfold onIllegal at h
    split at h
    · exact .inl ⟨‹_›, (Host.Outcome.next.inj h).symm⟩
    · exact .inr (.inl ⟨‹_›, why, hd, (Host.Outcome.next.inj h).symm⟩)
  · rename_i i hd
    rcases exec_next h with ⟨hl, ht⟩ | ⟨hl, cause, hc, ht⟩ | ⟨hl, hc, hp⟩
    · exact .inl ⟨hl, ht⟩
    · exact .inr (.inr (.inl ⟨hl, i, cause, hd, hc, ht⟩))
    · exact .inr (.inr (.inr ⟨hl, i, hd, hc, hp⟩))

/-- A scripted move is taken off the list. -/
theorem nextMove_scripted {s : State} {m : Move} {rest : List Move} (h : s.moves = m :: rest) :
    s.nextMove = (m, { s with moves := rest }) := by
  unfold State.nextMove
  rw [h]

/-- With nothing scripted and a schedule that has ended, the block runs. -/
theorem nextMove_runs {s : State} (h : s.moves = []) (hl : s.later = .runs) : s.nextMove = (.run, s) := by
  unfold State.nextMove
  rw [h, hl]

/-- With nothing scripted, a cycle begins anew. -/
theorem nextMove_cycle {s : State} {m : Move} {rest : List Move} (h : s.moves = [])
    (hl : s.later = .cycle m rest) : s.nextMove = (m, { s with moves := rest }) := by
  unfold State.nextMove
  rw [h, hl]

/-- With nothing scripted, an open schedule gives the free value of the number of moves so far. -/
theorem nextMove_free {s : State} (h : s.moves = []) (hl : s.later = .free) :
    s.nextMove = (Config.freeMove s.moveCount, { s with moveCount := s.moveCount + 1 }) := by
  unfold State.nextMove
  rw [h, hl]

/-- A move taken changes nothing but the schedule. -/
theorem nextMove_snd (s : State) : s.nextMove.2 =
    { s with moves := s.nextMove.2.moves, moveCount := s.nextMove.2.moveCount } := by
  unfold State.nextMove
  split <;> rfl

@[simp] theorem nextMove_cfg (s : State) : s.nextMove.2.cfg = s.cfg := by rw [nextMove_snd]
@[simp] theorem nextMove_life (s : State) : s.nextMove.2.life = s.life := by rw [nextMove_snd]
@[simp] theorem nextMove_tx (s : State) : s.nextMove.2.tx = s.tx := by rw [nextMove_snd]
@[simp] theorem nextMove_rx (s : State) : s.nextMove.2.rx = s.rx := by rw [nextMove_snd]
@[simp] theorem nextMove_boundAddr (s : State) : s.nextMove.2.boundAddr = s.boundAddr := by rw [nextMove_snd]
@[simp] theorem nextMove_result (s : State) : s.nextMove.2.result = s.result := by rw [nextMove_snd]
@[simp] theorem nextMove_err (s : State) : s.nextMove.2.err = s.err := by rw [nextMove_snd]
@[simp] theorem nextMove_faultCause (s : State) : s.nextMove.2.faultCause = s.faultCause := by rw [nextMove_snd]
@[simp] theorem nextMove_faultInfo (s : State) : s.nextMove.2.faultInfo = s.faultInfo := by rw [nextMove_snd]
@[simp] theorem nextMove_isrPc (s : State) : s.nextMove.2.isrPc = s.isrPc := by rw [nextMove_snd]
@[simp] theorem nextMove_isrS (s : State) : s.nextMove.2.isrS = s.isrS := by rw [nextMove_snd]
@[simp] theorem nextMove_split (s : State) : s.nextMove.2.split = s.split := by rw [nextMove_snd]
@[simp] theorem nextMove_devCtrl (s : State) : s.nextMove.2.devCtrl = s.devCtrl := by rw [nextMove_snd]
@[simp] theorem nextMove_devImask (s : State) : s.nextMove.2.devImask = s.devImask := by rw [nextMove_snd]
@[simp] theorem nextMove_ev (s : State) : s.nextMove.2.ev = s.ev := by rw [nextMove_snd]
@[simp] theorem nextMove_cmds (s : State) : s.nextMove.2.cmds = s.cmds := by rw [nextMove_snd]
@[simp] theorem nextMove_later (s : State) : s.nextMove.2.later = s.later := by rw [nextMove_snd]
@[simp] theorem nextMove_draws (s : State) : s.nextMove.2.draws = s.draws := by rw [nextMove_snd]
@[simp] theorem nextMove_drawCount (s : State) : s.nextMove.2.drawCount = s.drawCount := by rw [nextMove_snd]

/-- Everything an IRQ can do. -/
theorem irqArrives_cases (s : State) :
    (s.life = .uninit ∧ irqArrives s = raiseFault .irqNotInit 0 s) ∨
    (s.life = .ready ∧ s.isrPc = .idle ∧ irqArrives s = { s with isrPc := .entry }.emit .irq) ∨
    ((s.life = .faulted ∨ s.isrPc ≠ .idle) ∧ irqArrives s = s) := by
  unfold irqArrives
  split
  · exact .inl ⟨‹_›, rfl⟩
  · exact .inr (.inr ⟨.inl ‹_›, rfl⟩)
  · split
    · exact .inr (.inl ⟨‹_›, ‹_›, rfl⟩)
    · exact .inr (.inr ⟨.inr ‹_›, rfl⟩)

/-- Everything a step can do when it answers a next state: the environment's move is taken off, and then a
reset, an IRQ, a step of the ISR, the rest of a split command, nothing, or the command presented. -/
theorem step_next {s t : State} (h : step s = .next t) :
    s.cfg.accepted = true ∧
    ((s.nextMove.1 = .reset ∧ t = hardReset s.nextMove.2) ∨
     (s.nextMove.1 = .irq ∧ t = irqArrives s.nextMove.2) ∨
     (s.nextMove.1 = .run ∧ s.isrPc ≠ .idle ∧ isrStep s.nextMove.2 = .next t) ∨
     (s.nextMove.1 = .run ∧ s.isrPc = .idle ∧ ∃ p, s.split = some p ∧ Resumed p s.nextMove.2 t) ∨
     (s.nextMove.1 = .run ∧ s.isrPc = .idle ∧ s.split = none ∧ s.cmds = [] ∧ t = s.nextMove.2) ∨
     (s.nextMove.1 = .run ∧ s.isrPc = .idle ∧ s.split = none ∧ ∃ c o rest, s.cmds = (c, o) :: rest ∧
       acceptCommand c o { s.nextMove.2 with cmds := rest } = .next t)) := by
  have hpc := nextMove_isrPc s
  have hsp := nextMove_split s
  have hcm := nextMove_cmds s
  unfold step stepMachine at h
  split at h
  case isFalse => cases h
  case isTrue ha =>
  refine ⟨ha, ?_⟩
  generalize hm : s.nextMove.1 = m at h ⊢
  generalize s.nextMove.2 = s' at h hpc hsp hcm ⊢
  rw [← hpc, ← hsp, ← hcm]
  cases m with
  | reset => exact .inl ⟨rfl, (Host.Outcome.next.inj h).symm⟩
  | irq => exact .inr (.inl ⟨rfl, (Host.Outcome.next.inj h).symm⟩)
  | run =>
    change blockStep s' = .next t at h
    unfold blockStep appStep at h
    split at h
    case isFalse hi => exact .inr (.inr (.inl ⟨rfl, hi, h⟩))
    case isTrue hi =>
    split at h
    · rename_i p hp
      exact .inr (.inr (.inr (.inl ⟨rfl, hi, p, hp, resume_next h⟩)))
    · rename_i hp
      split at h
      · rename_i hc
        exact .inr (.inr (.inr (.inr (.inl ⟨rfl, hi, hp, hc, (Host.Outcome.next.inj h).symm⟩))))
      · rename_i c o rest hc
        exact .inr (.inr (.inr (.inr (.inr ⟨rfl, hi, hp, c, o, rest, hc, h⟩))))

end Sys2Proof.Machine
end

