-- ==== Sys2Proof/Laws/Streams.lean ====
section
/-! SUPPORT. The three streams read from the event history, over an appended history. -/

namespace Sys2Proof.Machine

theorem transmitted_append (a b : List Event) : transmitted (a ++ b) = transmitted a ++ transmitted b := by
  induction a with
  | nil => rfl
  | cons e rest ih =>
    cases e with
    | wr ctx r addr w v => cases r <;> simp [transmitted, ih]
    | _ => exact ih

theorem received_append (a b : List Event) : received (a ++ b) = received a ++ received b := by
  induction a with
  | nil => rfl
  | cons e rest ih =>
    cases e with
    | rd ctx r addr w v => cases r <;> simp [received, ih]
    | _ => exact ih

theorem responses_append (a b : List Event) : responses (a ++ b) = responses a ++ responses b := by
  induction a with
  | nil => rfl
  | cons e rest ih =>
    cases e with
    | resp err result => simp [responses, ih]
    | _ => exact ih

end Sys2Proof.Machine
end

