-- ==== Sys2Proof/Tests/Slice0.lean ====
section
/-! SUPPORT. The model's own tests. Part 1: words written out bit by bit from 30_encoding.md R80 decode to
what they stand for, and ill-formed terms are refused. Part 2: the vectors of 95_test_vectors.md, one step
each. Part 3: for every statement with hypotheses, a state and operands that meet all of them. -/

namespace Sys2Proof.Tests

open Sys2Proof Sys2Proof.Machine

/-! Part 1. Encoding. The operation, the register or buffer and the operand are from the tables of
30_encoding.md R72 to R75, the illegal words from 95_test_vectors.md 2.3. -/

theorem test_decode_init :
    decode 0b00010000000000000000000000000000 0 = .ok .init := by decide

theorem test_decode_push :
    decode 0b00100000000000000000000000000000 0x12345678 = .ok (.push .tx 0x78) ∧
    decode 0b00100000000000010000000000000000 0x41 = .ok (.push .rx 0x41) := by decide

theorem test_decode_pop :
    decode 0b00110000000000000000000000000000 0xFFFFFFFF = .ok (.pop .tx) ∧
    decode 0b00110000000000010000000000000000 0 = .ok (.pop .rx) := by decide

theorem test_decode_rread :
    decode 0b01000000000000000000000000000000 0 = .ok (.rread .uartCtrl) ∧
    decode 0b01000001000000000000000000000000 0 = .ok (.rread .uartStat) ∧
    decode 0b01000010000000000000000000000000 0 = .ok (.rread .uartTxd) ∧
    decode 0b01000011000000000000000000000000 0 = .ok (.rread .uartRxd) ∧
    decode 0b01000100000000000000000000000000 0 = .ok (.rread .intMask) ∧
    decode 0b01000101000000000000000000000000 0 = .ok (.rread .intStat) ∧
    decode 0b01000110000000000000000000000000 0 = .ok (.rread .intAck) := by decide

theorem test_decode_rwrite :
    decode 0b01010001000000000000000000000000 0x89ABCDEF = .ok (.rwrite .uartStat 0x89ABCDEF) ∧
    decode 0b01010110000000000000000000000000 0x00000104 = .ok (.rwrite .intAck 0x04) := by decide

theorem test_decode_ror :
    decode 0b01100000000000000000000000000000 0x80 = .ok (.ror .uartCtrl 0x80) ∧
    decode 0b01100100000000000000000000000000 0x08 = .ok (.ror .intMask 0x08) := by decide

theorem test_decode_randc :
    decode 0b01110100000000000000000000000000 0x108 = .ok (.randc .intMask 0x08) ∧
    decode 0b01110010000000000000000000000000 0xFF = .ok (.randc .uartTxd 0xFF) := by decide

/-- DC-01 to DC-03. -/
theorem test_decode_illegal_opcode :
    decode 0x00000000 0 = .error .illegalOpcode ∧ decode 0x80000000 0 = .error .illegalOpcode ∧
    decode 0xFFFFFFFF 0 = .error .illegalOpcode := by decide

/-- DC-05, DC-06, DC-09 to DC-11, DC-16 to DC-19. -/
theorem test_decode_reserved_field :
    decode 0x10000001 0 = .error .reservedField ∧ decode 0x10010000 0 = .error .reservedField ∧
    decode 0x20020000 0 = .error .reservedField ∧ decode 0x20000001 0 = .error .reservedField ∧
    decode 0x31000000 0 = .error .reservedField ∧ decode 0x48000000 0 = .error .reservedField ∧
    decode 0x4F000000 0 = .error .reservedField ∧ decode 0x40010000 0 = .error .reservedField ∧
    decode 0x77000001 0 = .error .reservedField := by decide

/-- DC-15, and the same for the other three register commands. -/
theorem test_decode_illegal_reg :
    decode 0x47000000 0 = .error .illegalReg ∧ decode 0x57000000 0 = .error .illegalReg ∧
    decode 0x67000000 0 = .error .illegalReg ∧ decode 0x77000000 0 = .error .illegalReg := by decide

/-- Each check of `Instr.wellFormed` refuses a term: a value above 0xFF for an 8-bit register
(30_encoding.md R87). -/
theorem test_ill_formed_refused :
    (Instr.rwrite .uartTxd 0x100).wellFormed = false ∧
    (Instr.ror .intMask 0x100).wellFormed = false ∧
    (Instr.randc .intAck 0xFFFFFFFF).wellFormed = false ∧
    (Instr.rwrite .uartCtrl 0xFFFFFFFF).wellFormed = true := by decide

/-- PS-02 as text, and the refusals of 30_encoding.md R87. -/
theorem test_assemble :
    assemble Config.default ["SEND \"AB\" ; two bytes".toList, "RANDC INT_MASK, UART_INT_TX".toList] =
      some [(0x20000000, 0x41), (0x20000000, 0x42), (0x60000000, 0x80), (0x64000000, 0x08),
        (0x74000000, 0x08)] ∧
    assembleLine Config.default "PUSH TX, 0x100".toList = none ∧
    assembleLine Config.default "RWRITE INT_ACK, 256".toList = none := by decide

/-! Part 2. States. C = 4, and reset contents that are not 0. -/

/-- A configuration with four slots, `S_TX` = 0x11, 0x22, 0x33, 0x44 and `S_RX` = 0x77, 0x88, 0, 0. -/
def config : Config :=
  { capacity := 4
    storeInitTx := [(0, 0x11), (1, 0x22), (2, 0x33), (3, 0x44)]
    storeInitRx := [(0, 0x77), (1, 0x88)]
    devImaskInit := 0x04 }

/-- The same with split ring operations. -/
def splitConfig : Config := { config with atomicRingOps := false }

/-- The same with the SPSC check. -/
def strictConfig : Config := { config with strictSpsc := true }

/-- READY, both buffers empty, as INIT leaves a launch. -/
def ready (c : Config) : State := initialise (State.launch c)

/-- READY with `rc = 2`, `wc = 1`, so occupancy C - 1, in both buffers. -/
def nearlyFull : State :=
  { ready config with
    tx := ⟨[(0, 0x0A), (1, 0x0B), (2, 0x0C), (3, 0x0D)], 2, 1⟩
    rx := ⟨[(0, 0x0A), (1, 0x0B), (2, 0x0C), (3, 0x0D)], 2, 1⟩ }

/-- READY with both cursors of both buffers at C - 1. -/
def emptyAtTop : State :=
  { ready config with tx := ⟨[(3, 0x5E)], 3, 3⟩, rx := ⟨[(3, 0x5E)], 3, 3⟩ }

/-- READY with the sequencer in a state, both interrupt bits latched, and `ring[TX]` holding bytes. -/
def serving (pc : IsrPc) (draws : List Word) : State :=
  { nearlyFull with isrPc := pc, isrS := 0x0C, draws := draws }

/-- The same with both buffers empty. -/
def servingEmpty (pc : IsrPc) (draws : List Word) : State :=
  { ready config with isrPc := pc, isrS := 0x0C, draws := draws }

/-- FAULTED by a PUSH before INIT. -/
def faulted : State := afterFault .notInit 4 0x20000000 (State.launch config)

/-- The state an outcome holds, or the reset state where it holds none. -/
def after (r : Result) : State :=
  match r with
  | .next t => t
  | .fault _ => State.reset
  | .refused _ => State.reset

/-! Part 2. Vectors. -/

/-- 45_init.md R230, example. -/
theorem test_init :
    (after (exec .init (State.launch config))).life = .ready ∧
    (after (exec .init (State.launch config))).boundAddr = config.regAddr ∧
    (after (exec .init (State.launch config))).ev = [.resp false 0] := by decide

/-- LF-04: the second INIT. -/
theorem test_reinit :
    (after (exec .init (ready config))).faultCause = 5 ∧
    (after (exec .init (ready config))).faultInfo = 0x10000000 ∧
    (after (exec .init (ready config))).err = true := by decide

/-- RB-11: a PUSH into C - 1 unread bytes makes the buffer read empty. -/
theorem test_push_overrun :
    (after (exec (.push .tx 0x55) nearlyFull)).tx.store.read 1 = 0x55 ∧
    (after (exec (.push .tx 0x55) nearlyFull)).tx.wc = 2 ∧
    (after (exec (.push .tx 0x55) nearlyFull)).tx.empty = true := by decide

/-- RB-04: a PUSH at C - 1 wraps the write cursor. -/
theorem test_push_wraps :
    (after (exec (.push .tx 0xAA) emptyAtTop)).tx = ⟨[(3, 0xAA)], 3, 0⟩ := by decide

/-- RB-01: an empty POP gives the stale byte, clears the slot and stays. -/
theorem test_pop_empty :
    (after (exec (.pop .tx) (ready config))).result = 0x00000011 ∧
    (after (exec (.pop .tx) (ready config))).tx = ⟨[(1, 0x22), (2, 0x33), (3, 0x44)], 0, 0⟩ := by decide

/-- 40_circular_buffer.md R104, example, at C = 4: a found POP at C - 1 wraps the read cursor. -/
theorem test_pop_wraps :
    (after (exec (.pop .rx) { ready config with rx := ⟨[(3, 0x59)], 3, 0⟩ })).result = 0x00000159 ∧
    (after (exec (.pop .rx) { ready config with rx := ⟨[(3, 0x59)], 3, 0⟩ })).rx = ⟨[], 0, 0⟩ := by decide

/-- RG-01. -/
theorem test_rread_stat :
    (after (exec (.rread .uartStat) { ready config with draws := [0x90] })).result = 0x90 ∧
    (after (exec (.rread .uartStat) { ready config with draws := [0x90] })).draws = [] := by decide

/-- RG-03, with bits of the draw above the register's width. -/
theorem test_rread_rxd :
    (after (exec (.rread .uartRxd) { ready config with draws := [0xFFFFFF5A, 1] })).result = 0x5A ∧
    (after (exec (.rread .uartRxd) { ready config with draws := [0xFFFFFF5A, 1] })).draws = [1] := by decide

/-- RG-04. -/
theorem test_rwrite_ack :
    (after (exec (.rwrite .intAck 0x104) (ready config))).ev =
      [.wr .app .intAck 0xC 8 0x04, .resp false 0] := by decide

/-- RG-05. -/
theorem test_rwrite_mask :
    (after (exec (.rwrite .intMask 0xFFFFFF0C) (ready config))).devImask = 0x0C := by decide

/-- RG-07. -/
theorem test_ror_mask :
    (after (exec (.ror .intMask 0x08) (ready config))).devImask = 0x0C ∧
    (after (exec (.ror .intMask 0x08) (ready config))).ev =
      [.rd .app .intMask 0xA 8 0x04, .wr .app .intMask 0xA 8 0x0C, .resp false 0] := by decide

/-- RG-16. -/
theorem test_ror_stat :
    (after (exec (.ror .uartStat 0x01) { ready config with draws := [0x90] })).ev =
      [.rd .app .uartStat 0x4 32 0x90, .wr .app .uartStat 0x4 32 0x91, .resp false 0] := by decide

/-- RG-13. -/
theorem test_randc_mask :
    (after (exec (.randc .intMask 0xFF) { ready config with devImask := 0xF3 })).ev =
      [.rd .app .intMask 0xA 8 0xF3, .wr .app .intMask 0xA 8 0x00, .resp false 0] := by decide

/-- RG-14. -/
theorem test_randc_ctrl :
    (after (exec (.randc .uartCtrl 0) { ready config with devCtrl := 0xDEADBEEF })).devCtrl = 0xDEADBEEF := by
  decide

/-- LF-05: an IRQ in UNINIT. -/
theorem test_irq_before_init :
    (irqArrives (State.launch config)).ev = [.fault .irqNotInit 0] ∧
    (irqArrives (State.launch config)).isrPc = .idle := by decide

/-- LF-03 and LF-08: an illegal word in UNINIT reports its decode cause, and RESULT is kept. -/
theorem test_illegal_word :
    (after (acceptCommand 0 0 (State.launch config))).faultCause = 1 ∧
    (after (acceptCommand 0x90000000 0 { ready config with result := 0x141 })).result = 0x141 := by decide

/-- LF-06. -/
theorem test_spsc :
    (after (exec (.push .rx 0x55) (ready strictConfig))).faultInfo = 0x20010000 := by decide

/-- IS-04, its DRAIN_MOVE: the byte goes to UART_TXD and the slot is cleared. -/
theorem test_drain_move :
    (after (isrStep (serving .drainMove []))).ev = [.wr .isr .uartTxd 0x8 8 0x0C] ∧
    (after (isrStep (serving .drainMove []))).tx.store.read 2 = 0 ∧
    (after (isrStep (serving .drainMove []))).tx.rc = 3 := by decide

/-- IS-03, its DRAIN_END: the TX bit is cleared. -/
theorem test_drain_end :
    (after (isrStep { servingEmpty .drainEnd [] with devImask := 0x0C })).ev =
      [.rd .isr .intMask 0xA 8 0x0C, .wr .isr .intMask 0xA 8 0x04] := by decide

/-- RC-A, its second step: with an ISR PUSH between Q1 and Q2 the emptiness test reads the new `wc`. -/
theorem test_split_race :
    (after (resume (.q2 .rx 0 0x77) { ready splitConfig with rx := ⟨[(0, 0x58)], 0, 1⟩ })).split =
      some (.q3 .rx 0 0x77 false) := by decide

/-- The very next step after `withFetchWord` runs the word: INIT from reset. -/
theorem test_with_fetch_word :
    (after (step (State.reset.withFetchWord 32 0x10000000))).life = .ready ∧
    (after (step (State.reset.withFetchWord 32 0x46000000))).faultCause = 4 := by decide

/-- 40_circular_buffer.md R112: P2 advances `wc` as it is now (here 2, after an ISR PUSH at the index 1 that P1
took), modulo C. -/
theorem test_split_p2 :
    (after (resume (.p2 .rx 1) { ready splitConfig with rx := ⟨[], 0, 2⟩ })).rx.wc = 3 ∧
    (after (resume (.p2 .rx 1) { ready splitConfig with rx := ⟨[], 0, 3⟩ })).rx.wc = 0 := by decide

/-- 10_state.md R23: 10 bits for C = 1024. -/
theorem test_cursor_width :
    Config.default.cursorWidth = 10 ∧ { config with capacity := 2 }.cursorWidth = 1 ∧
    { config with capacity := 5 }.cursorWidth = 3 := by decide

/-- The memories of the reset state are in canonical form. -/
theorem test_reset_memory :
    State.reset.tx.store.wf 1024 = true ∧ State.reset.rx.store.wf 1024 = true := by decide

/-! Part 3. Witnesses: the hypotheses of every statement can be met, each clause at its boundaries. -/

theorem inv_ready : StateInv (ready config) where
  accepted := by decide
  tx := ⟨by decide, by decide, by decide⟩
  rx := ⟨by decide, by decide, by decide⟩
  bound := by decide
  cause := by decide
  info := by decide
  isr := by decide
  split := by intro p h; cases h
  drainMove := by decide
  fill := by decide
  drain := by decide

theorem inv_ready_split : StateInv (ready splitConfig) where
  accepted := by decide
  tx := ⟨by decide, by decide, by decide⟩
  rx := ⟨by decide, by decide, by decide⟩
  bound := by decide
  cause := by decide
  info := by decide
  isr := by decide
  split := by intro p h; cases h
  drainMove := by decide
  fill := by decide
  drain := by decide

theorem inv_nearlyFull : StateInv nearlyFull where
  accepted := by decide
  tx := ⟨by decide, by decide, by decide⟩
  rx := ⟨by decide, by decide, by decide⟩
  bound := by decide
  cause := by decide
  info := by decide
  isr := by decide
  split := by intro p h; cases h
  drainMove := by decide
  fill := by decide
  drain := by decide

theorem inv_emptyAtTop : StateInv emptyAtTop where
  accepted := by decide
  tx := ⟨by decide, by decide, by decide⟩
  rx := ⟨by decide, by decide, by decide⟩
  bound := by decide
  cause := by decide
  info := by decide
  isr := by decide
  split := by intro p h; cases h
  drainMove := by decide
  fill := by decide
  drain := by decide

theorem inv_serving (pc : IsrPc) (draws : List Word) : StateInv (serving pc draws) where
  accepted := inv_nearlyFull.accepted
  tx := inv_nearlyFull.tx
  rx := inv_nearlyFull.rx
  bound := inv_nearlyFull.bound
  cause := inv_nearlyFull.cause
  info := inv_nearlyFull.info
  isr := fun _ => rfl
  split := by intro p h; cases h
  drainMove := fun _ => rfl
  fill := fun _ => show bitSet (0x0C : Byte) 0x04 = true by decide
  drain := fun _ => show bitSet (0x0C : Byte) 0x08 = true by decide

theorem inv_faulted : StateInv faulted where
  accepted := by decide
  tx := ⟨by decide, by decide, by decide⟩
  rx := ⟨by decide, by decide, by decide⟩
  bound := by decide
  cause := by decide
  info := by decide
  isr := by decide
  split := by intro p h; cases h
  drainMove := by decide
  fill := by decide
  drain := by decide

/-- A split POP of RX between Q2 and Q3. -/
def betweenQ2Q3 : State := { ready splitConfig with split := some (.q3 .rx 0 0x77 true) }

theorem inv_betweenQ2Q3 : StateInv betweenQ2Q3 where
  accepted := inv_ready_split.accepted
  tx := inv_ready_split.tx
  rx := inv_ready_split.rx
  bound := inv_ready_split.bound
  cause := inv_ready_split.cause
  info := inv_ready_split.info
  isr := by decide
  split := by
    intro p h
    cases Option.some.inj h
    decide
  drainMove := by decide
  fill := by decide
  drain := by decide

theorem ringReady_push (sel : Sel) (b : Byte) : RingReady (.push sel b) (ready config) :=
  ⟨rfl, rfl, fun h => by cases h⟩

theorem ringReady_pop (sel : Sel) : RingReady (.pop sel) (ready config) :=
  ⟨rfl, rfl, fun h => by cases h⟩

theorem splitReady_push (sel : Sel) (b : Byte) : SplitReady (.push sel b) (ready splitConfig) :=
  ⟨rfl, rfl, fun h => by cases h⟩

theorem splitReady_pop (sel : Sel) : SplitReady (.pop sel) (ready splitConfig) :=
  ⟨rfl, rfl, fun h => by cases h⟩

theorem witness_EncodedCommandDecodesToItself :
    ∀ i ∈ [Instr.init, .push .rx 0xFF, .pop .rx, .rread .intAck, .rwrite .intAck 0xFF,
      .ror .uartStat 0xFFFFFFFF, .randc .intMask 0x08], i.wellFormed = true := by decide

theorem witness_DecodedCommandKeepsItsWords :
    decode 0x10000000 5 = .ok .init ∧ decode 0x20010000 0xFFFFFFFF = .ok (.push .rx 0xFF) ∧
    decode 0x30000000 9 = .ok (.pop .tx) ∧ decode 0x46000000 9 = .ok (.rread .intAck) ∧
    decode 0x56000000 0x1FF = .ok (.rwrite .intAck 0xFF) ∧
    decode 0x61000000 0xFFFFFFFF = .ok (.ror .uartStat 0xFFFFFFFF) ∧
    decode 0x72000000 0x100 = .ok (.randc .uartTxd 0) := by decide

theorem witness_IllegalOpcode :
    (State.launch config).life ≠ .faulted ∧ (ready config).life ≠ .faulted ∧
    (∀ c ∈ [(0x00000000 : Word), 0x0FFFFFFF, 0x80000000, 0xFFFFFFFF],
      c.toNat / 2 ^ 28 = 0 ∨ 8 ≤ c.toNat / 2 ^ 28) :=
  ⟨by decide, by decide, by simp⟩

theorem witness_ReservedField :
    (∀ c ∈ [(0x10000001 : Word), 0x18000000], c.toNat / 2 ^ 28 = 1 ∧ c &&& 0x0FFFFFFF ≠ 0) ∧
    (∀ c ∈ [(0x20000001 : Word), 0x20020000, 0x38000000],
      (c.toNat / 2 ^ 28 = 2 ∨ c.toNat / 2 ^ 28 = 3) ∧ c &&& 0x0FFEFFFF ≠ 0) := by simp

theorem witness_ReservedFieldOfRegisterCommand :
    ∀ c ∈ [(0x40000001 : Word), 0x4F000000, 0x7F800000],
      (4 ≤ c.toNat / 2 ^ 28 ∧ c.toNat / 2 ^ 28 ≤ 7) ∧ c &&& 0x08FFFFFF ≠ 0 := by simp

theorem witness_IllegalReg :
    ∀ c ∈ [(0x47000000 : Word), 0x77000000],
      (4 ≤ c.toNat / 2 ^ 28 ∧ c.toNat / 2 ^ 28 ≤ 7) ∧ c &&& 0x08FFFFFF = 0 ∧
        c.toNat / 2 ^ 24 % 8 = 7 := by simp

/-- A READY machine with a command presented, under a schedule. -/
def presented (moves : List Move) (later : Later) : State :=
  { ready config with cmds := [(0x20000000, 0x41)], moves := moves, later := later }

theorem witness_StepRunsTheDecodedCommand :
    ∀ s ∈ [presented [] .runs, presented [.run, .irq] .free, presented [] (.cycle .run [.irq])],
      s.cfg.accepted = true ∧ s.isrPc = .idle ∧ s.split = none ∧ s.nextMove.1 = .run ∧
      s.cmds = [(0x20000000, 0x41)] ∧ decode 0x20000000 0x41 = .ok (.push .tx 0x41) := by decide

/-- An illegal word presented, and a split command with a command waiting behind it. -/
theorem witness_StepOfAnIllegalWordAndOfASplitCommand :
    (∀ s ∈ [({ ready config with cmds := [(0, 0)] } : State),
        { State.launch config with cmds := [(0xFFFFFFFF, 0)] }, { faulted with cmds := [(0, 0)] }],
      s.cfg.accepted = true ∧ s.isrPc = .idle ∧ s.split = none ∧ s.nextMove.1 = .run ∧
      s.cmds.length = 1) ∧
    (∀ p ∈ [Split.p2 .tx 0, .q2 .rx 0 0x77, .q3 .rx 3 0x77 true, .q4 .rx 0 0x77 false],
      ({ ready splitConfig with split := some p, cmds := [(0x10000000, 0)] } : State).cfg.accepted = true ∧
      ({ ready splitConfig with split := some p, cmds := [(0x10000000, 0)] } : State).isrPc = .idle ∧
      ({ ready splitConfig with split := some p, cmds := [(0x10000000, 0)] } : State).nextMove.1 = .run ∧
      ∃ t, step { ready splitConfig with split := some p, cmds := [(0x10000000, 0)] } = .next t) := by
  refine ⟨by decide, fun p h => ?_⟩
  fin_cases h <;> exact ⟨by decide, rfl, rfl, _, rfl⟩

/-- The endless schedule of 70_reset_and_hazards.md R308, in its two turns. -/
theorem witness_Starved :
    (StateInv (presented [] (.cycle .irq [.run])) ∧ Starved (presented [] (.cycle .irq [.run]))) ∧
    (StateInv { serving .entry [] with moves := [.run], later := .cycle .irq [.run] } ∧
      Starved { serving .entry [] with moves := [.run], later := .cycle .irq [.run] }) :=
  ⟨⟨{ inv_ready with }, ⟨rfl, rfl, .inl rfl⟩⟩,
    ⟨{ inv_serving .entry [] with }, ⟨rfl, rfl, .inr ⟨rfl, nofun⟩⟩⟩⟩

theorem witness_CommandIsHeldWhileIsrRuns :
    ∀ pc ∈ [IsrPc.entry, .txTest, .drainMove, .ret],
      (serving pc [0x08]).cfg.accepted = true ∧ (serving pc [0x08]).isrPc ≠ .idle ∧
      (serving pc [0x08]).nextMove.1 = .run ∧
      step (serving pc [0x08]) = .next (after (step (serving pc [0x08]))) := by
  intro pc h
  fin_cases h <;> exact ⟨by decide, by decide, by decide, rfl⟩

/-- One state for each case an IRQ can meet. -/
theorem witness_IrqIsAcceptedFaultsOrIsIgnored :
    (∀ s ∈ [State.launch config, ready config, serving .entry [], faulted, betweenQ2Q3],
      ({ s with moves := [.irq] } : State).cfg.accepted = true ∧
      ({ s with moves := [.irq] } : State).nextMove.1 = .irq) ∧
    (State.launch config).life = .uninit ∧
    ((ready config).life = .ready ∧ (ready config).isrPc = .idle) ∧
    (serving .entry []).isrPc ≠ .idle ∧ faulted.life = .faulted := by decide

theorem witness_HardwareResetGivesTheResetState :
    ({ serving .drainMove [] with moves := [.reset] } : State).nextMove.1 = .reset ∧
    ({ serving .drainMove [] with moves := [.reset] } : State).cfg.accepted = true ∧
    step { serving .drainMove [] with moves := [.reset] } =
      .next (after (step { serving .drainMove [] with moves := [.reset] })) ∧
    step { faulted with moves := [.reset] } = .next (after (step { faulted with moves := [.reset] })) :=
  ⟨rfl, by decide, rfl, rfl⟩

/-- C below 2, a two-bit constant, a misaligned and an overlapping address, and an accepted launch. -/
theorem witness_OnlyARefusedLaunchIsRefused :
    ({ config with capacity := 1, storeInitTx := [], storeInitRx := [] } : Config).accepted = false ∧
    ({ config with intTx := 0x0C } : Config).accepted = false ∧
    ({ config with regAddr := { config.regAddr with uartStat := 0x6 } } : Config).accepted = false ∧
    ({ config with regAddr := { config.regAddr with uartTxd := 0x3 } } : Config).accepted = false ∧
    config.accepted = true := by decide

/-- Nothing in flight, and a FAULTED block with a command still presented. -/
theorem witness_QuiescentBlockStays :
    ((ready config).cfg.accepted = true ∧ NothingInFlight (ready config) ∧
      (ready config).nextMove.1 = .run) ∧
    (StateInv { faulted with cmds := [(0x10000000, 0)] } ∧
      ({ faulted with cmds := [(0x10000000, 0)] } : State).nextMove.1 = .run ∧
      ({ faulted with moves := [.irq] } : State).nextMove.1 = .irq) ∧
    (StateInv { ready config with moves := [.irq] } ∧ Quiescent { ready config with moves := [.irq] } ∧
      step { ready config with moves := [.irq] } =
        .next (after (step { ready config with moves := [.irq] }))) :=
  ⟨⟨by decide, ⟨rfl, rfl, rfl⟩, rfl⟩, ⟨{ inv_faulted with }, rfl, rfl⟩,
    { inv_ready with }, .inl ⟨rfl, rfl, rfl⟩, rfl⟩

theorem witness_SecondInitFaultsWithReinit : (ready config).life = .ready := rfl

theorem witness_InitLeadsFromCleanLaunchToReadyEmpty : CleanLaunch (State.launch config) :=
  ⟨rfl, rfl, rfl, rfl, rfl, rfl, rfl, rfl⟩

theorem witness_InitFrame :
    exec .init (State.launch config) = .next (after (exec .init (State.launch config))) ∧
    exec .init (ready config) = .next (after (exec .init (ready config))) ∧
    exec .init faulted = .next (after (exec .init faulted)) := ⟨rfl, rfl, rfl⟩

/-- For PushStoresAndAdvances and PushRaisesOccupancyOrEmpties: occupancy 0 and C - 1, and a cursor at
C - 1. -/
theorem witness_Push :
    (StateInv (ready config) ∧ RingReady (.push .tx 1) (ready config)) ∧
    (StateInv nearlyFull ∧ RingReady (.push .rx 1) nearlyFull ∧
      nearlyFull.rx.occ nearlyFull.cfg.capacity + 1 = nearlyFull.cfg.capacity ∧
      exec (.push .rx 1) nearlyFull = .next (after (exec (.push .rx 1) nearlyFull))) ∧
    (StateInv emptyAtTop ∧ RingReady (.push .tx 1) emptyAtTop ∧ emptyAtTop.tx.wc = 3) :=
  ⟨⟨inv_ready, ringReady_push .tx 1⟩,
    ⟨inv_nearlyFull, ⟨rfl, rfl, fun h => by cases h⟩, by decide, rfl⟩,
    ⟨inv_emptyAtTop, ⟨rfl, rfl, fun h => by cases h⟩, rfl⟩⟩

/-- Whole, split, faulting and in FAULTED. -/
theorem witness_PushFrame :
    ∀ s ∈ [ready config, ready splitConfig, ready strictConfig, State.launch config, faulted],
      ∃ t, exec (.push .rx 1) s = .next t := by
  intro s h
  fin_cases h <;> exact ⟨_, rfl⟩

/-- For PopReturnsByteAndFound and PopClearsSlotAndAdvancesIfFound: an empty buffer, and a found byte; and
the split steps Q3 and Q4. -/
theorem witness_Pop :
    (StateInv (ready config) ∧ RingReady (.pop .rx) (ready config) ∧
      (ready config).rx.rc = (ready config).rx.wc ∧
      exec (.pop .rx) (ready config) = .next (after (exec (.pop .rx) (ready config)))) ∧
    (StateInv nearlyFull ∧ RingReady (.pop .tx) nearlyFull ∧ nearlyFull.tx.rc ≠ nearlyFull.tx.wc) ∧
    (StateInv betweenQ2Q3 ∧ betweenQ2Q3.split = some (.q3 .rx 0 0x77 true) ∧
      resume (.q3 .rx 0 0x77 true) betweenQ2Q3 =
        .next (after (resume (.q3 .rx 0 0x77 true) betweenQ2Q3))) ∧
    (resume (.q4 .rx 0 0x77 true) betweenQ2Q3 =
        .next (after (resume (.q4 .rx 0 0x77 true) betweenQ2Q3)) ∧
      resume (.q4 .rx 3 0x77 false) betweenQ2Q3 =
        .next (after (resume (.q4 .rx 3 0x77 false) betweenQ2Q3))) :=
  ⟨⟨inv_ready, ringReady_pop .rx, rfl, rfl⟩,
    ⟨inv_nearlyFull, ⟨rfl, rfl, fun h => by cases h⟩, by decide⟩,
    ⟨inv_betweenQ2Q3, rfl, rfl⟩, ⟨rfl, rfl⟩⟩

theorem witness_PopFrame :
    ∀ s ∈ [ready config, nearlyFull, ready splitConfig, ready strictConfig, State.launch config, faulted],
      ∃ t, exec (.pop .tx) s = .next t := by
  intro s h
  fin_cases h <;> exact ⟨_, rfl⟩

/-- For EmptyPopsAreIdempotent, PushesThenPopsAreFirstInFirstOut (N = 0 and N = C - 1) and
OverrunOutcomeIsExact. -/
theorem witness_EmptyBuffer :
    StateInv (ready config) ∧ RingReady (.push .tx 0) (ready config) ∧ RingReady (.pop .tx) (ready config) ∧
    ((ready config).ring .tx).rc = ((ready config).ring .tx).wc ∧
    ([] : List Byte).length + 1 ≤ (ready config).cfg.capacity ∧
    ([1, 2, 3] : List Byte).length + 1 ≤ (ready config).cfg.capacity :=
  ⟨inv_ready, ringReady_push .tx 0, ringReady_pop .tx, rfl, by decide, by decide⟩

/-- For UninterruptedSplitEqualsAtomic and SplitPopRacesLoseTheByte. -/
theorem witness_Split :
    StateInv (ready splitConfig) ∧ SplitReady (.push .tx 1) (ready splitConfig) ∧
    SplitReady (.pop .rx) (ready splitConfig) ∧ (ready splitConfig).split = none ∧
    (ready splitConfig).rx.rc = (ready splitConfig).rx.wc ∧ 3 < (ready splitConfig).cfg.capacity ∧
    exec (.pop .rx) (ready splitConfig) = .next (after (exec (.pop .rx) (ready splitConfig))) :=
  ⟨inv_ready_split, splitReady_push .tx 1, splitReady_pop .rx, rfl, rfl, by decide, rfl⟩

/-- For RreadReturnsTheDeviceAnswer, RwriteWritesTheOperand, RorSetsBits, RandcClearsBits,
StorageRegisterReadsBackLastWrite and ArmAndDisarmTouchTheirBitsAlone. -/
theorem witness_RegisterCommands :
    (ready config).life = .ready ∧ (Reg.uartCtrl = .uartCtrl ∨ Reg.uartCtrl = .intMask) ∧
    (Reg.intMask = .uartCtrl ∨ Reg.intMask = .intMask) := ⟨rfl, by decide, by decide⟩

theorem witness_RegisterCommandFrame :
    ∀ i ∈ [Instr.rread .intMask, .rwrite .intMask 1, .ror .intMask 1, .randc .intMask 1],
      (i = .rread .intMask ∨ i = .rwrite .intMask 1 ∨ i = .ror .intMask 1 ∨ i = .randc .intMask 1) ∧
      (∃ t, exec i (ready config) = .next t) ∧ (∃ t, exec i (State.launch config) = .next t) ∧
      ∃ t, exec i faulted = .next t := by
  intro i h
  fin_cases h <;> exact ⟨by decide, ⟨_, rfl⟩, ⟨_, rfl⟩, ⟨_, rfl⟩⟩

theorem witness_UseBeforeInitFaults :
    (State.launch config).life = .uninit ∧ (∀ i ∈ [Instr.push .tx 1, .pop .rx, .rread .intAck,
      .rwrite .intAck 1, .ror .intAck 1, .randc .intAck 1], i ≠ .init) := by decide

theorem witness_WrongRoleFaultsWhenStrict :
    (ready strictConfig).life = .ready ∧ (ready strictConfig).cfg.strictSpsc = true ∧
    exec (.push .tx 1) (ready strictConfig) = .next (after (exec (.push .tx 1) (ready strictConfig))) ∧
    exec (.pop .rx) (ready strictConfig) = .next (after (exec (.pop .rx) (ready strictConfig))) :=
  ⟨rfl, rfl, rfl, rfl⟩

theorem witness_FaultingCommandKeepsResult :
    faulted.life = .faulted ∧
    acceptCommand 0 0 (ready config) = .next (after (acceptCommand 0 0 (ready config))) ∧
    (ready config).life ≠ .faulted ∧ (after (acceptCommand 0 0 (ready config))).life = .faulted :=
  ⟨rfl, rfl, by decide, by decide⟩

/-- A command, an IRQ and nothing at all in FAULTED. -/
theorem witness_OnlyResetLeavesFaulted :
    StateInv faulted ∧ faulted.life = .faulted ∧ faulted.nextMove.1 ≠ .reset ∧
    step faulted = .next (after (step faulted)) ∧
    step { faulted with cmds := [(0x10000000, 0)] } =
      .next (after (step { faulted with cmds := [(0x10000000, 0)] })) ∧
    step { faulted with moves := [.irq] } = .next (after (step { faulted with moves := [.irq] })) :=
  ⟨inv_faulted, rfl, by decide, rfl, rfl, rfl⟩

/-- For LifecycleOnlyMovesForward, HistoryIsOnlyAppendedTo and ConfigurationNeverChanges: INIT taking
UNINIT to READY, an IRQ taking UNINIT to FAULTED, and a PUSH in READY. -/
theorem witness_Steps :
    (∀ s ∈ [({ State.launch config with cmds := [(0x10000000, 0)] } : State),
        { State.launch config with moves := [.irq] }, presented [] .runs, serving .ret []],
      (∃ t, step s = .next t) ∧ s.nextMove.1 ≠ .reset) ∧
    (after (step { State.launch config with cmds := [(0x10000000, 0)] })).life = .ready ∧
    (after (step { State.launch config with moves := [.irq] })).life = .faulted := by
  refine ⟨?_, by decide, by decide⟩
  intro s h
  fin_cases h <;> exact ⟨⟨_, rfl⟩, by decide⟩

/-- For every statement about one state of the sequencer, with both outcomes of its test. -/
theorem witness_Isr :
    (servingEmpty .entry [0x0C]).isrPc = .entry ∧
    ((serving .txTest []).isrPc ≠ .entry ∧
      isrStep (serving .txTest []) = .next (after (isrStep (serving .txTest [])))) ∧
    (serving .rxAck []).isrPc = .rxAck ∧ (serving .txAck []).isrPc = .txAck ∧
    (serving .fillTest [0x10]).isrPc = .fillTest ∧
    (StateInv (serving .fillMove [0x61]) ∧ (serving .fillMove [0x61]).isrPc = .fillMove) ∧
    (serving .txTest []).isrPc = .txTest ∧ (serving .drainTrig [0x80]).isrPc = .drainTrig ∧
    (serving .drainTest [0x40]).isrPc = .drainTest ∧
    (StateInv (serving .drainMove []) ∧ (serving .drainMove []).isrPc = .drainMove) ∧
    ((servingEmpty .drainEnd []).isrPc = .drainEnd ∧
      (servingEmpty .drainEnd []).tx.rc = (servingEmpty .drainEnd []).tx.wc) ∧
    ((serving .drainEnd []).isrPc = .drainEnd ∧
      (serving .drainEnd []).tx.rc ≠ (serving .drainEnd []).tx.wc) ∧
    (serving .ret []).isrPc = .ret :=
  ⟨rfl, ⟨by decide, rfl⟩, rfl, rfl, rfl, ⟨inv_serving _ _, rfl⟩, rfl, rfl, rfl,
    ⟨inv_serving _ _, rfl⟩, ⟨rfl, rfl⟩, ⟨rfl, by decide⟩, rfl⟩

/-- IS-02: 0xF3 has neither bit. -/
theorem witness_SpuriousInterruptCostsOneRead :
    (serving .entry [0xF3]).isrPc = .entry ∧
    lowByte (nextDraw (serving .entry [0xF3])) &&&
      ((serving .entry [0xF3]).cfg.intRx ||| (serving .entry [0xF3]).cfg.intTx) = 0 := by decide

theorem witness_IsrFrame :
    ∀ pc ∈ [IsrPc.entry, .rxAck, .fillTest, .fillMove, .txTest, .txAck, .drainTrig, .drainTest, .drainMove,
      .drainEnd, .ret], ∃ t, isrStep (serving pc [0x10]) = .next t := by
  intro pc h
  fin_cases h <;> exact ⟨_, rfl⟩

/-- Both ways INT_MASK changes: DRAIN_END on an empty buffer, and a command of the APP. -/
theorem witness_MaskIsClearedOnlyWhenTxEmpty :
    ((∃ t, step { servingEmpty .drainEnd [] with devImask := 0x0C } = .next t) ∧
      (after (step { servingEmpty .drainEnd [] with devImask := 0x0C })).devImask ≠ 0x0C) ∧
    ((∃ t, step { ready config with cmds := [(0x54000000, 0)] } = .next t) ∧
      ({ ready config with cmds := [(0x54000000, 0)] } : State).nextMove.1 ≠ .reset ∧
      (after (step { ready config with cmds := [(0x54000000, 0)] })).devImask ≠ 0x04) :=
  ⟨⟨⟨_, rfl⟩, by decide⟩, ⟨_, rfl⟩, by decide, by decide⟩

theorem witness_DrainTransmitsOldestBytesInOrder :
    StateInv (serving .drainTest [0x80]) ∧ (∃ t, isrSteps 2 (serving .drainTest [0x80]) = .next t) ∧
    transmitted (after (isrSteps 2 (serving .drainTest [0x80]))).ev = [0x0C] :=
  ⟨inv_serving _ _, ⟨_, rfl⟩, by decide⟩

/-- No byte, as many as fit, and an overrun, whose first byte is overwritten and whose last C are not. -/
theorem witness_SendEnqueuesThenArms :
    StateInv (ready config) ∧ RingReady (.push .tx 0) (ready config) ∧
    (∀ bs ∈ [[], ([1, 2, 3] : List Byte)],
      (ready config).tx.occ (ready config).cfg.capacity + bs.length < (ready config).cfg.capacity) ∧
    (([1, 2, 3, 4, 5] : List Byte).length ≤ 1 + (ready config).cfg.capacity ∧
      ¬ ([1, 2, 3, 4, 5] : List Byte).length ≤ 0 + (ready config).cfg.capacity) :=
  ⟨inv_ready, ringReady_push .tx 0, by decide, by decide⟩

theorem witness_AssembledLinesDecodeToTheirCommands :
    assembleLine Config.default "ROR UART_CTRL, XMT_FIFO_EMPTY".toList = some [.ror .uartCtrl 0x80] ∧
    Instr.ror .uartCtrl 0x80 ∈ [Instr.ror .uartCtrl 0x80] := by decide

theorem witness_LaunchHasTheInvariant : config.accepted = true ∧ Config.default.accepted = true := by decide

/-- For EveryStepKeepsTheInvariant and InvariantStatesAlwaysStep: in each LIFE, in the ISR and between two
split steps. -/
theorem witness_EveryStepKeepsTheInvariant :
    (StateInv (ready config) ∧ ∃ t, step (ready config) = .next t) ∧
    (StateInv faulted ∧ ∃ t, step faulted = .next t) ∧
    (StateInv (serving .fillMove [1]) ∧ ∃ t, step (serving .fillMove [1]) = .next t) ∧
    (StateInv betweenQ2Q3 ∧ ∃ t, step betweenQ2Q3 = .next t) :=
  ⟨⟨inv_ready, _, rfl⟩, ⟨inv_faulted, _, rfl⟩, ⟨inv_serving _ _, _, rfl⟩, inv_betweenQ2Q3, _, rfl⟩

/-- For CursorsOnlyAdvanceByOne and UnreadBytesChangeOnlyAtTheEnds: a fill and a drain move at occupancy
C - 1. -/
theorem witness_CursorsOnlyAdvanceByOne :
    2 ≤ config.capacity ∧ ∀ pc ∈ [IsrPc.fillMove, .drainMove],
      StateInv (serving pc [1]) ∧ (serving pc [1]).cfg.atomicRingOps = true ∧
      (serving pc [1]).life = .ready ∧ (∃ t, step (serving pc [1]) = .next t) ∧
      (serving pc [1]).nextMove.1 ≠ .reset := by
  refine ⟨by decide, fun pc h => ?_⟩
  fin_cases h <;> exact ⟨inv_serving _ _, rfl, rfl, ⟨_, rfl⟩, by decide⟩

end Sys2Proof.Tests
end

section
/-! The launch: each test of `Config.accepted` in the terms of the rules it checks. -/

namespace Sys2Proof

/-- Every register is in the list of all registers. -/
theorem Reg.mem_all (r : Reg) : r ∈ Reg.all := by cases r <;> decide

/-- A test of all registers in the list is a test of every register. -/
theorem Reg.all_all_iff (p : Reg → Bool) : Reg.all.all p = true ↔ ∀ r, p r = true := by
  rw [List.all_eq_true]
  exact ⟨fun h r => h r r.mem_all, fun h r _ => h r⟩

/-- Two one-bit values differ exactly when their bits do. -/
theorem ne_iff_of_toNat_eq_two_pow {w i j : Nat} {v u : BitVec w} (hv : v.toNat = 2 ^ i)
    (hu : u.toNat = 2 ^ j) : v ≠ u ↔ i ≠ j := by
  rw [← BitVec.toNat_ne_iff_ne, hv, hu, (Nat.pow_right_injective (le_refl 2)).ne_iff]

/-- The bit constants are powers of 2 below 2 to the width of their register, those of one register different
(00_scope.md R5). -/
theorem Config.bitsOk_iff (c : Config) : c.bitsOk = true ↔
    (∃ i j, i < 8 ∧ j < 8 ∧ i ≠ j ∧ c.intTx.toNat = 2 ^ i ∧ c.intRx.toNat = 2 ^ j) ∧
    (∃ i j k, i < 32 ∧ j < 32 ∧ k < 32 ∧ i ≠ j ∧ i ≠ k ∧ j ≠ k ∧
      c.dataReady.toNat = 2 ^ i ∧ c.fifoFull.toNat = 2 ^ j ∧ c.fifoEmpty.toNat = 2 ^ k) := by
  simp only [Config.bitsOk, Bool.and_eq_true, bne_iff_ne, isOneBit_iff]
  constructor
  · rintro ⟨⟨⟨⟨⟨⟨⟨⟨⟨a, ha, hta⟩, b, hb, hrb⟩, hab⟩, i, hi, hdi⟩, j, hj, hfj⟩, k, hk, hek⟩, hij⟩, hik⟩, hjk⟩
    exact ⟨⟨a, b, ha, hb, (ne_iff_of_toNat_eq_two_pow hta hrb).1 hab, hta, hrb⟩,
      i, j, k, hi, hj, hk, (ne_iff_of_toNat_eq_two_pow hdi hfj).1 hij,
      (ne_iff_of_toNat_eq_two_pow hdi hek).1 hik, (ne_iff_of_toNat_eq_two_pow hfj hek).1 hjk, hdi, hfj, hek⟩
  · rintro ⟨⟨a, b, ha, hb, hab, hta, hrb⟩, i, j, k, hi, hj, hk, hij, hik, hjk, hdi, hfj, hek⟩
    exact ⟨⟨⟨⟨⟨⟨⟨⟨⟨a, ha, hta⟩, b, hb, hrb⟩, (ne_iff_of_toNat_eq_two_pow hta hrb).2 hab⟩, i, hi, hdi⟩,
      j, hj, hfj⟩, k, hk, hek⟩, (ne_iff_of_toNat_eq_two_pow hdi hfj).2 hij⟩,
      (ne_iff_of_toNat_eq_two_pow hdi hek).2 hik⟩, (ne_iff_of_toNat_eq_two_pow hfj hek).2 hjk⟩

/-- The addresses are aligned, apart from each other and within ADDR_W bits (20_memory.md R51, R55, R58). -/
theorem Config.addrsOk_iff (c : Config) : c.addrsOk = true ↔
    (∀ r : Reg, c.regAddr.get r % r.bytes = 0) ∧
    (∀ r q : Reg, r ≠ q → c.regAddr.get r + r.bytes ≤ c.regAddr.get q ∨
      c.regAddr.get q + q.bytes ≤ c.regAddr.get r) ∧
    (∀ r : Reg, c.regAddr.get r + r.bytes ≤ 2 ^ c.addrW) := by
  simp only [Config.addrsOk, Config.apart, Reg.all_all_iff, Bool.and_eq_true, Bool.or_eq_true,
    beq_iff_eq, decide_eq_true_eq, forall_and, or_iff_not_imp_left (a := _ = _)]
  exact ⟨fun ⟨⟨ha, hw⟩, hp⟩ => ⟨ha, hp, hw⟩, fun ⟨ha, hp, hw⟩ => ⟨⟨ha, hw⟩, hp⟩⟩

end Sys2Proof

namespace Sys2Proof.Machine

/-! No function of an accepted machine's step refuses. -/

theorem onCommand_ne_refused {i : Instr} {s : State} {f : State → Result} {r : Refusal}
    (hf : f s ≠ .refused r) : onCommand i s f ≠ .refused r := by
  rcases onCommand_cases (i := i) (s := s) (f := f) with ⟨-, h⟩ | ⟨-, c, -, h⟩ | ⟨-, -, h⟩ <;> rw [h]
  · nofun
  · nofun
  · exact hf

theorem pushAtomic_ne_refused (sel : Sel) (b : Byte) (s : State) (r : Refusal) :
    pushAtomic sel b s ≠ .refused r := by
  unfold pushAtomic
  split <;> nofun

theorem pushP1_ne_refused (sel : Sel) (b : Byte) (s : State) (r : Refusal) :
    pushP1 sel b s ≠ .refused r := by
  unfold pushP1
  dsimp only
  split <;> nofun

theorem popAtomic_ne_refused (sel : Sel) (s : State) (r : Refusal) : popAtomic sel s ≠ .refused r := by
  unfold popAtomic
  split <;> nofun

theorem popQ1_ne_refused (sel : Sel) (s : State) (r : Refusal) : popQ1 sel s ≠ .refused r := by
  unfold popQ1
  dsimp only
  split <;> nofun

theorem popQ3_ne_refused (sel : Sel) (i : Nat) (v : Byte) (e : Bool) (s : State) (r : Refusal) :
    popQ3 sel i v e s ≠ .refused r := by
  unfold popQ3
  split <;> nofun

theorem resume_ne_refused (p : Split) (s : State) (r : Refusal) : resume p s ≠ .refused r := by
  cases p with
  | p2 sel i => nofun
  | q2 sel i v => nofun
  | q3 sel i v e => exact popQ3_ne_refused sel i v e s r
  | q4 sel i v e => nofun

/-- Every command has a meaning. -/
theorem exec_ne_refused (i : Instr) (s : State) (r : Refusal) : exec i s ≠ .refused r := by
  cases i with
  | init => unfold exec execInit; exact onCommand_ne_refused nofun
  | push sel b =>
    unfold exec execPush
    refine onCommand_ne_refused ?_
    split
    · exact pushAtomic_ne_refused sel b s r
    · exact pushP1_ne_refused sel b s r
  | pop sel =>
    unfold exec execPop
    refine onCommand_ne_refused ?_
    split
    · exact popAtomic_ne_refused sel s r
    · exact popQ1_ne_refused sel s r
  | rread q => unfold exec execRread; exact onCommand_ne_refused nofun
  | rwrite q v => unfold exec execRwrite; exact onCommand_ne_refused nofun
  | ror q m => unfold exec execRor; exact onCommand_ne_refused nofun
  | randc q m => unfold exec execRandc; exact onCommand_ne_refused nofun

theorem onIllegal_ne_refused (why : Illegal) (c : Word) (s : State) (r : Refusal) :
    onIllegal why c s ≠ .refused r := by
  unfold onIllegal
  split <;> nofun

theorem acceptCommand_ne_refused (c o : Word) (s : State) (r : Refusal) :
    acceptCommand c o s ≠ .refused r := by
  unfold acceptCommand
  dsimp only
  split
  · exact onIllegal_ne_refused _ _ _ r
  · exact exec_ne_refused _ _ r

theorem appStep_ne_refused (s : State) (r : Refusal) : appStep s ≠ .refused r := by
  unfold appStep
  split
  · exact resume_ne_refused _ _ r
  · split
    · nofun
    · exact acceptCommand_ne_refused _ _ _ r

theorem isrFillMove_ne_refused (s : State) (r : Refusal) : isrFillMove s ≠ .refused r := by
  unfold isrFillMove
  dsimp only
  split <;> nofun

theorem isrDrainMove_ne_refused (s : State) (r : Refusal) : isrDrainMove s ≠ .refused r := by
  unfold isrDrainMove
  split <;> nofun

theorem isrStep_ne_refused (s : State) (r : Refusal) : isrStep s ≠ .refused r := by
  unfold isrStep
  cases s.isrPc
  case fillMove => exact isrFillMove_ne_refused s r
  case drainMove => exact isrDrainMove_ne_refused s r
  all_goals nofun

theorem blockStep_ne_refused (s : State) (r : Refusal) : blockStep s ≠ .refused r := by
  unfold blockStep
  split
  · exact appStep_ne_refused s r
  · exact isrStep_ne_refused s r

theorem stepUnder_ne_refused (m : Move) (s : State) (r : Refusal) : stepUnder m s ≠ .refused r := by
  cases m with
  | run => exact blockStep_ne_refused s r
  | irq => nofun
  | reset => nofun

/-- A machine whose configuration the launch accepts steps as its next move says. -/
theorem step_of_accepted {s : State} (h : s.cfg.accepted = true) :
    step s = stepUnder s.nextMove.1 s.nextMove.2 := if_pos h

/-- A machine whose configuration the launch refuses has no step. -/
theorem step_of_not_accepted {s : State} (h : s.cfg.accepted = false) :
    step s = .refused .configRefused := if_neg (by simp [h])

end Sys2Proof.Machine

open Sys2Proof Sys2Proof.Machine

/-- Settles O11: the tests of the launch one by one, and no branch of a step but the launch's own refuses. -/
theorem onlyARefusedLaunchIsRefused : Obligations.OnlyARefusedLaunchIsRefused := by
  refine ⟨fun c => ?_, fun s => ⟨fun h => ⟨step_of_not_accepted h, fun he => ?_⟩, fun h r => ?_⟩⟩
  · simp only [Config.accepted, Config.storesOk, Bool.and_eq_true, decide_eq_true_eq, c.bitsOk_iff,
      c.addrsOk_iff, Reg.bytes, and_assoc]
  · obtain ⟨-, ha⟩ := he
    simp [h] at ha
  · rw [step_of_accepted h]
    exact stepUnder_ne_refused _ _ r
end

section
/-! Cursors: what each operation of the block does to the cursors of a buffer, and their width. -/

namespace Sys2Proof.Machine

/-! What leaves both buffers alone. -/

/-- A buffer by its selector, from both buffers. -/
theorem State.ring_congr {s t : State} (htx : t.tx = s.tx) (hrx : t.rx = s.rx) (sel : Sel) :
    t.ring sel = s.ring sel := by
  cases sel
  · exact htx
  · exact hrx

@[simp] theorem emit_ring (s : State) (e : Event) (sel : Sel) : (s.emit e).ring sel = s.ring sel := by
  cases sel <;> rfl
@[simp] theorem goto_ring (s : State) (pc : IsrPc) (sel : Sel) : (s.goto pc).ring sel = s.ring sel := by
  cases sel <;> rfl
@[simp] theorem answer_ring (v : Word) (s : State) (sel : Sel) : (answer v s).ring sel = s.ring sel := by
  cases sel <;> rfl
@[simp] theorem answerError_ring (s : State) (sel : Sel) : (answerError s).ring sel = s.ring sel := by
  cases sel <;> rfl
@[simp] theorem raiseFault_ring (c : FaultCause) (info : Word) (s : State) (sel : Sel) :
    (raiseFault c info s).ring sel = s.ring sel := by cases sel <;> rfl
@[simp] theorem commandFault_ring (c : FaultCause) (cmd : Word) (s : State) (sel : Sel) :
    (commandFault c cmd s).ring sel = s.ring sel := by cases sel <;> rfl
@[simp] theorem isrReturn_ring (s : State) (sel : Sel) : (isrReturn s).ring sel = s.ring sel := by
  cases sel <;> rfl
@[simp] theorem busRead_ring (ctx : Ctx) (r : Reg) (s : State) (sel : Sel) :
    (busRead ctx r s).2.ring sel = s.ring sel :=
  State.ring_congr (busRead_tx ctx r s) (busRead_rx ctx r s) sel
@[simp] theorem busWrite_ring (ctx : Ctx) (r : Reg) (v : Word) (s : State) (sel : Sel) :
    (busWrite ctx r v s).ring sel = s.ring sel :=
  State.ring_congr (busWrite_tx ctx r v s) (busWrite_rx ctx r v s) sel
@[simp] theorem nextMove_ring (s : State) (sel : Sel) : s.nextMove.2.ring sel = s.ring sel :=
  State.ring_congr (nextMove_tx s) (nextMove_rx s) sel
@[simp] theorem irqArrives_ring (s : State) (sel : Sel) : (irqArrives s).ring sel = s.ring sel := by
  rcases irqArrives_cases s with ⟨-, h⟩ | ⟨-, -, h⟩ | ⟨-, h⟩ <;> rw [h]
  · exact raiseFault_ring _ _ s sel
  · cases sel <;> rfl

/-! The movement of the cursors. -/

/-- Each cursor of the buffer stands where it stood or one further modulo C (40_circular_buffer.md R108). -/
structure Ring.Moved (cap : Nat) (r q : Ring) : Prop where
  rc : q.rc = r.rc ∨ q.rc = (r.rc + 1) % cap
  wc : q.wc = r.wc ∨ q.wc = (r.wc + 1) % cap

theorem Ring.Moved.refl (cap : Nat) (r : Ring) : r.Moved cap r := ⟨.inl rfl, .inl rfl⟩

theorem Ring.Moved.of_eq {cap : Nat} {r q : Ring} (h : q = r) : r.Moved cap q := h ▸ .refl cap r

theorem Ring.moved_pushed (cap : Nat) (r : Ring) (b : Byte) : r.Moved cap (r.pushed cap b) :=
  ⟨.inl rfl, .inr rfl⟩

theorem Ring.moved_popped (cap : Nat) (r : Ring) : r.Moved cap (r.popped cap) := by
  refine ⟨?_, .inl rfl⟩
  simp only [Ring.popped]
  split
  · exact .inl rfl
  · exact .inr rfl

/-- Replacing one buffer by one with moved cursors moves the cursors of that buffer alone. -/
theorem Ring.Moved.setRing {cap : Nat} {s : State} {sel : Sel} {q : Ring} (h : (s.ring sel).Moved cap q)
    (sel' : Sel) : (s.ring sel').Moved cap ((s.setRing sel q).ring sel') := by
  by_cases he : sel' = sel
  · subst he
    rwa [State.ring_setRing_same]
  · exact .of_eq (State.ring_setRing_other s q he)

/-- A step of the sequencer moves a cursor only in FILL_MOVE and DRAIN_MOVE. -/
theorem IsrStepped.moved {s t : State} (h : IsrStepped s t) (sel : Sel) :
    (s.ring sel).Moved s.cfg.capacity (t.ring sel) := by
  cases h with
  | fillMove hpc hc =>
    have hr : ((busRead .isr .uartRxd s).2.ring .rx).Moved s.cfg.capacity
        (s.rx.pushed s.cfg.capacity (lowByte (deviceAnswer s .uartRxd))) := by
      simpa [State.ring_rx] using s.rx.moved_pushed _ _
    simpa using hr.setRing sel
  | drainMove hpc hc =>
    have hr : (s.ring .tx).Moved s.cfg.capacity (s.tx.popped s.cfg.capacity) := s.tx.moved_popped _
    simpa using hr.setRing sel
  | entry hpc => cases sel <;> exact .of_eq (by simp [State.ring_tx, State.ring_rx])
  | idle hpc => exact .of_eq (by simp)
  | rxAck hpc => exact .of_eq (by simp)
  | fillTest hpc => exact .of_eq (by simp)
  | txTest hpc => exact .of_eq (by simp)
  | txAck hpc => exact .of_eq (by simp)
  | drainTrig hpc => exact .of_eq (by simp)
  | drainTest hpc => exact .of_eq (by simp)
  | disarm hpc he => exact .of_eq (by simp)
  | keepArmed hpc he => exact .of_eq (by simp)
  | ret hpc => exact .of_eq (by simp)

/-- With indivisible ring operations a command but INIT moves a cursor only in PUSH and POP. -/
theorem Performed.moved {i : Instr} {s t : State} (h : Performed i s t) (hi : i ≠ .init)
    (ha : s.cfg.atomicRingOps = true) (sel : Sel) : (s.ring sel).Moved s.cfg.capacity (t.ring sel) := by
  cases h with
  | init => exact absurd rfl hi
  | push _ sel' b _ hc => simpa using ((s.ring sel').moved_pushed _ b).setRing sel
  | pop _ sel' _ hc => simpa using ((s.ring sel').moved_popped _).setRing sel
  | pushSplit _ sel' b hn => simp [ha] at hn
  | popSplit _ sel' hn => simp [ha] at hn
  | rread _ r => exact .of_eq (by simp)
  | rwrite _ r v => exact .of_eq (by simp)
  | ror _ r m => exact .of_eq (by simp)
  | randc _ r m => exact .of_eq (by simp)

/-- INIT enters READY with every cursor 0 (45_init.md R230). -/
theorem Performed.init_cursors {s t : State} (h : Performed .init s t) (sel : Sel) :
    t.life = .ready ∧ (t.ring sel).rc = 0 ∧ (t.ring sel).wc = 0 := by
  cases h
  cases sel <;> exact ⟨rfl, rfl, rfl⟩

/-- With indivisible ring operations the command port moves the cursors, or performs INIT in UNINIT. -/
theorem acceptCommand_moved {c o : Word} {s t : State} (h : acceptCommand c o s = .next t)
    (ha : s.cfg.atomicRingOps = true) (sel : Sel) :
    (s.ring sel).Moved s.cfg.capacity (t.ring sel) ∨
      s.life = .uninit ∧ t.life = .ready ∧ (t.ring sel).rc = 0 ∧ (t.ring sel).wc = 0 := by
  rcases acceptCommand_next h with
    ⟨-, rfl⟩ | ⟨-, why, -, rfl⟩ | ⟨-, i, cause, -, -, rfl⟩ | ⟨hl, i, -, hc, hp⟩
  · exact .inl (.of_eq (by simp))
  · exact .inl (.of_eq (by simp))
  · exact .inl (.of_eq (by simp))
  · rcases commandCheck_none hl hc with ⟨hu, rfl⟩ | ⟨-, hi⟩
    · exact .inr ⟨hu, hp.init_cursors sel⟩
    · exact .inl (by simpa using hp.moved hi ha sel)

/-- Under the invariant, with indivisible ring operations, no command is split. -/
theorem StateInv.split_none {s : State} (hi : StateInv s) (ha : s.cfg.atomicRingOps = true) :
    s.split = none := by
  rw [Option.eq_none_iff_forall_ne_some]
  intro p hp
  obtain ⟨-, hn, -⟩ := hi.split p hp
  simp [ha] at hn

/-- With indivisible ring operations a step that is no reset moves the cursors, or performs INIT in UNINIT. -/
theorem step_moved {s t : State} (hi : StateInv s) (ha : s.cfg.atomicRingOps = true) (h : step s = .next t)
    (hm : s.nextMove.1 ≠ .reset) (sel : Sel) :
    (s.ring sel).Moved s.cfg.capacity (t.ring sel) ∨
      s.life = .uninit ∧ t.life = .ready ∧ (t.ring sel).rc = 0 ∧ (t.ring sel).wc = 0 := by
  obtain ⟨-, ⟨hr, -⟩ | ⟨-, rfl⟩ | ⟨-, -, hs⟩ | ⟨-, -, p, hp, -⟩ | ⟨-, -, -, -, rfl⟩ |
    ⟨-, -, -, c, o, rest, -, hc⟩⟩ := step_next h
  · exact absurd hr hm
  · exact .inl (.of_eq (by simp))
  · exact .inl (by simpa using (isrStep_next hs).moved sel)
  · simp [hi.split_none ha] at hp
  · exact .inl (.of_eq (by simp))
  · have hring : ({ s.nextMove.2 with cmds := rest } : State).ring sel = s.ring sel :=
      State.ring_congr (nextMove_tx s) (nextMove_rx s) sel
    have hmoved := acceptCommand_moved hc (by simpa using ha) sel
    rw [hring] at hmoved
    simpa using hmoved

end Sys2Proof.Machine

namespace Sys2Proof

/-- CW is the least width whose numbers reach C (00_scope.md R5). -/
theorem Config.capacity_le_two_pow_iff {c : Config} (hc : 2 ≤ c.capacity) (w : Nat) :
    c.capacity ≤ 2 ^ w ↔ c.cursorWidth ≤ w := by
  have hlog : (c.capacity - 1).log2 < w ↔ c.capacity - 1 < 2 ^ w := Nat.log2_lt (by omega)
  rw [Config.cursorWidth, if_neg (by omega)]
  omega

/-- An accepted configuration has a capacity of at least 2. -/
theorem Config.two_le_capacity {c : Config} (h : c.accepted = true) : 2 ≤ c.capacity := by
  simp only [Config.accepted, Bool.and_eq_true, decide_eq_true_eq] at h
  obtain ⟨⟨⟨hcap, -⟩, -⟩, -⟩ := h
  exact hcap

/-- C is at most 2 to the CW. -/
theorem Config.capacity_le_two_pow_cursorWidth {c : Config} (h : c.accepted = true) :
    c.capacity ≤ 2 ^ c.cursorWidth :=
  (capacity_le_two_pow_iff (two_le_capacity h) _).2 le_rfl

end Sys2Proof

open Sys2Proof Sys2Proof.Machine

/-- Settles O59: a step moves the cursors or performs INIT, and a cursor below C fits CW. -/
theorem cursorsOnlyAdvanceByOne : Obligations.CursorsOnlyAdvanceByOne := by
  refine ⟨fun s t sel hi ha h hm => ?_, fun s sel hi => ?_, fun c w hc => c.capacity_le_two_pow_iff hc w⟩
  · rcases step_moved hi ha h hm sel with hmoved | ⟨hu, hr, hrc, hwc⟩
    · exact ⟨hmoved.rc.imp_right .inl, hmoved.wc.imp_right .inl⟩
    · exact ⟨.inr (.inr ⟨hu, hr, hrc⟩), .inr (.inr ⟨hu, hr, hwc⟩)⟩
  · have hcap := Config.capacity_le_two_pow_cursorWidth hi.accepted
    exact ⟨(hi.ring sel).rc.trans_le hcap, (hi.ring sel).wc.trans_le hcap⟩
end

section
/-! What a response, a fault, INIT and the return from the ISR set and leave. -/

namespace Sys2Proof.Machine

/-! A response, field by field. -/

@[simp] theorem answer_cfg (v : Word) (s : State) : (answer v s).cfg = s.cfg := rfl
@[simp] theorem answer_life (v : Word) (s : State) : (answer v s).life = s.life := rfl
@[simp] theorem answer_tx (v : Word) (s : State) : (answer v s).tx = s.tx := rfl
@[simp] theorem answer_rx (v : Word) (s : State) : (answer v s).rx = s.rx := rfl
@[simp] theorem answer_boundAddr (v : Word) (s : State) : (answer v s).boundAddr = s.boundAddr := rfl
@[simp] theorem answer_result (v : Word) (s : State) : (answer v s).result = v := rfl
@[simp] theorem answer_err (v : Word) (s : State) : (answer v s).err = false := rfl
@[simp] theorem answer_faultCause (v : Word) (s : State) : (answer v s).faultCause = s.faultCause := rfl
@[simp] theorem answer_faultInfo (v : Word) (s : State) : (answer v s).faultInfo = s.faultInfo := rfl
@[simp] theorem answer_isrPc (v : Word) (s : State) : (answer v s).isrPc = s.isrPc := rfl
@[simp] theorem answer_isrS (v : Word) (s : State) : (answer v s).isrS = s.isrS := rfl
@[simp] theorem answer_split (v : Word) (s : State) : (answer v s).split = s.split := rfl
@[simp] theorem answer_ev (v : Word) (s : State) : (answer v s).ev = s.ev ++ [.resp false v] := rfl
@[simp] theorem answer_cmds (v : Word) (s : State) : (answer v s).cmds = s.cmds := rfl

@[simp] theorem answerError_cfg (s : State) : (answerError s).cfg = s.cfg := rfl
@[simp] theorem answerError_life (s : State) : (answerError s).life = s.life := rfl
@[simp] theorem answerError_tx (s : State) : (answerError s).tx = s.tx := rfl
@[simp] theorem answerError_rx (s : State) : (answerError s).rx = s.rx := rfl
@[simp] theorem answerError_boundAddr (s : State) : (answerError s).boundAddr = s.boundAddr := rfl
@[simp] theorem answerError_result (s : State) : (answerError s).result = s.result := rfl
@[simp] theorem answerError_err (s : State) : (answerError s).err = true := rfl
@[simp] theorem answerError_faultCause (s : State) : (answerError s).faultCause = s.faultCause := rfl
@[simp] theorem answerError_faultInfo (s : State) : (answerError s).faultInfo = s.faultInfo := rfl
@[simp] theorem answerError_isrPc (s : State) : (answerError s).isrPc = s.isrPc := rfl
@[simp] theorem answerError_isrS (s : State) : (answerError s).isrS = s.isrS := rfl
@[simp] theorem answerError_split (s : State) : (answerError s).split = s.split := rfl
@[simp] theorem answerError_devCtrl (s : State) : (answerError s).devCtrl = s.devCtrl := rfl
@[simp] theorem answerError_devImask (s : State) : (answerError s).devImask = s.devImask := rfl
@[simp] theorem answerError_ev (s : State) : (answerError s).ev = s.ev ++ [.resp true s.result] := rfl
@[simp] theorem answerError_cmds (s : State) : (answerError s).cmds = s.cmds := rfl
@[simp] theorem answerError_draws (s : State) : (answerError s).draws = s.draws := rfl

/-! A fault, INIT and the return from the ISR. -/

@[simp] theorem raiseFault_cfg (c : FaultCause) (w : Word) (s : State) : (raiseFault c w s).cfg = s.cfg := rfl
@[simp] theorem raiseFault_life (c : FaultCause) (w : Word) (s : State) :
    (raiseFault c w s).life = .faulted := rfl
@[simp] theorem raiseFault_faultCause (c : FaultCause) (w : Word) (s : State) :
    (raiseFault c w s).faultCause = c.code := rfl
@[simp] theorem raiseFault_faultInfo (c : FaultCause) (w : Word) (s : State) :
    (raiseFault c w s).faultInfo = w := rfl
@[simp] theorem raiseFault_isrPc (c : FaultCause) (w : Word) (s : State) :
    (raiseFault c w s).isrPc = s.isrPc := rfl
@[simp] theorem raiseFault_split (c : FaultCause) (w : Word) (s : State) :
    (raiseFault c w s).split = s.split := rfl
@[simp] theorem raiseFault_ev (c : FaultCause) (w : Word) (s : State) :
    (raiseFault c w s).ev = s.ev ++ [.fault c w] := rfl

@[simp] theorem commandFault_cfg (c : FaultCause) (w : Word) (s : State) :
    (commandFault c w s).cfg = s.cfg := rfl
@[simp] theorem commandFault_life (c : FaultCause) (w : Word) (s : State) :
    (commandFault c w s).life = .faulted := rfl
@[simp] theorem commandFault_faultCause (c : FaultCause) (w : Word) (s : State) :
    (commandFault c w s).faultCause = c.code := rfl
@[simp] theorem commandFault_faultInfo (c : FaultCause) (w : Word) (s : State) :
    (commandFault c w s).faultInfo = w := rfl
@[simp] theorem commandFault_isrPc (c : FaultCause) (w : Word) (s : State) :
    (commandFault c w s).isrPc = s.isrPc := rfl
@[simp] theorem commandFault_ev (c : FaultCause) (w : Word) (s : State) :
    (commandFault c w s).ev = s.ev ++ [.fault c w] ++ [.resp true s.result] := rfl

@[simp] theorem initialise_cfg (s : State) : (initialise s).cfg = s.cfg := rfl
@[simp] theorem initialise_life (s : State) : (initialise s).life = .ready := rfl
@[simp] theorem initialise_isrPc (s : State) : (initialise s).isrPc = s.isrPc := rfl
@[simp] theorem initialise_ev (s : State) : (initialise s).ev = s.ev := rfl

@[simp] theorem isrReturn_cfg (s : State) : (isrReturn s).cfg = s.cfg := rfl
@[simp] theorem isrReturn_life (s : State) : (isrReturn s).life = s.life := rfl
@[simp] theorem isrReturn_tx (s : State) : (isrReturn s).tx = s.tx := rfl
@[simp] theorem isrReturn_rx (s : State) : (isrReturn s).rx = s.rx := rfl
@[simp] theorem isrReturn_boundAddr (s : State) : (isrReturn s).boundAddr = s.boundAddr := rfl
@[simp] theorem isrReturn_faultCause (s : State) : (isrReturn s).faultCause = s.faultCause := rfl
@[simp] theorem isrReturn_faultInfo (s : State) : (isrReturn s).faultInfo = s.faultInfo := rfl
@[simp] theorem isrReturn_isrPc (s : State) : (isrReturn s).isrPc = .idle := rfl
@[simp] theorem isrReturn_isrS (s : State) : (isrReturn s).isrS = s.isrS := rfl
@[simp] theorem isrReturn_split (s : State) : (isrReturn s).split = s.split := rfl
@[simp] theorem isrReturn_ev (s : State) : (isrReturn s).ev = s.ev ++ [.ret] := rfl

end Sys2Proof.Machine
end

section
/-! The launch and hardware reset, and the step of the APP port. -/

namespace Sys2Proof.Machine

/-- A state a launch or a hardware reset leaves is CleanLaunch. -/
theorem cleanLaunch_hardReset (s : State) : CleanLaunch (hardReset s) :=
  ⟨rfl, rfl, rfl, rfl, rfl, rfl, rfl, rfl⟩

/-- With nothing to come, a launch is what a hardware reset of itself leaves. -/
theorem hardReset_launch (c : Config) : hardReset (State.launch c) = State.launch c := rfl

theorem cleanLaunch_launch (c : Config) : CleanLaunch (State.launch c) := by
  rw [← hardReset_launch c]
  exact cleanLaunch_hardReset _

/-- A step under a reset is the hardware reset (70_reset_and_hazards.md R290). -/
theorem step_reset {s : State} (ha : s.cfg.accepted = true) (hm : s.nextMove.1 = .reset) :
    step s = .next (hardReset s.nextMove.2) := by
  rw [step_of_accepted ha, hm]
  rfl

/-- With the ISR idle a step under the move `run` is the APP's. -/
theorem step_run_idle {s : State} (ha : s.cfg.accepted = true) (hpc : s.isrPc = .idle)
    (hm : s.nextMove.1 = .run) : step s = appStep s.nextMove.2 := by
  rw [step_of_accepted ha, hm]
  exact if_pos (by simpa using hpc)

theorem appStep_split {s : State} {p : Split} (h : s.split = some p) : appStep s = resume p s := by
  simp [appStep, h]

theorem appStep_command {s : State} {c o : Word} {rest : List (Word × Word)} (hp : s.split = none)
    (hc : s.cmds = (c, o) :: rest) : appStep s = acceptCommand c o { s with cmds := rest } := by
  simp [appStep, hp, hc]

/-- With the ISR idle and no command split, a step under the move `run` accepts the words presented. -/
theorem step_command {s : State} {c o : Word} {rest : List (Word × Word)} (ha : s.cfg.accepted = true)
    (hpc : s.isrPc = .idle) (hp : s.split = none) (hm : s.nextMove.1 = .run)
    (hc : s.cmds = (c, o) :: rest) : step s = acceptCommand c o { s.nextMove.2 with cmds := rest } := by
  rw [step_run_idle ha hpc hm, appStep_command (by simpa using hp) (by simpa using hc)]

/-- Words that decode are recorded and performed (60_exceptions.md R255). -/
theorem acceptCommand_legal {c o : Word} {i : Instr} (h : decode c o = .ok i) (s : State) :
    acceptCommand c o s = exec i (s.emit (.cmd c o)) := by
  simp [acceptCommand, h]

/-- The rest of a split command leaves the commands presented. -/
theorem Resumed.cmds {p : Split} {s t : State} (h : Resumed p s t) : t.cmds = s.cmds := by
  cases h <;> simp

end Sys2Proof.Machine

open Sys2Proof Sys2Proof.Machine

/-- Settles O10: the launch has each value of R43 by definition. -/
theorem launchIsClean : Obligations.LaunchIsClean :=
  ⟨fun c => ⟨cleanLaunch_launch c, rfl, rfl, rfl, rfl⟩, rfl, by decide⟩

/-- Settles O9: the step is the hardware reset of the state with its move taken. -/
theorem hardwareResetGivesTheResetState : Obligations.HardwareResetGivesTheResetState := by
  intro s t ha hm h
  rw [step_reset ha hm] at h
  cases h
  exact ⟨cleanLaunch_hardReset _, by simp [hardReset, State.launch]⟩

/-- Settles O6: the step is the APP's, which resumes a split command or accepts the words presented. -/
theorem stepRunsTheDecodedCommand : Obligations.StepRunsTheDecodedCommand := by
  refine ⟨fun s c o rest i ha hpc hp hm hc hd => ?_, fun s c o rest => step_command,
    fun s p ha hpc hp hm => ?_⟩
  · rw [step_command ha hpc hp hm hc, acceptCommand_legal hd]
    simp [State.emit]
  · have hstep : step s = resume p s.nextMove.2 := by
      rw [step_run_idle ha hpc hm, appStep_split (by simpa using hp)]
    refine ⟨hstep, fun t ht => ?_⟩
    simpa using (resume_next (hstep.symm.trans ht)).cmds
end

section
/-! What every step but a reset does to the configuration, the history and LIFE. -/

namespace Sys2Proof.Machine

/-! The configuration stays and the history grows. -/

/-- The configuration is the same, and the history is the one before followed by some records (10_state.md
R42, R44). -/
structure Continues (s t : State) : Prop where
  cfg : t.cfg = s.cfg
  ev : s.ev <+: t.ev

theorem Continues.trans {s t u : State} (h : Continues s t) (h' : Continues t u) : Continues s u :=
  ⟨h'.cfg.trans h.cfg, h.ev.trans h'.ev⟩

theorem IsrStepped.continues {s t : State} (h : IsrStepped s t) : Continues s t := by
  cases h <;> exact ⟨by simp, by simp [busRead_ev, busWrite_ev]⟩

theorem Performed.continues {i : Instr} {s t : State} (h : Performed i s t) : Continues s t := by
  cases h <;> exact ⟨by simp, by simp [busRead_ev, busWrite_ev]⟩

theorem Resumed.continues {p : Split} {s t : State} (h : Resumed p s t) : Continues s t := by
  cases h <;> exact ⟨by simp, by simp⟩

theorem irqArrives_continues (s : State) : Continues s (irqArrives s) := by
  rcases irqArrives_cases s with ⟨-, h⟩ | ⟨-, -, h⟩ | ⟨-, h⟩ <;> rw [h] <;> exact ⟨by simp, by simp⟩

theorem acceptCommand_continues {c o : Word} {s t : State} (h : acceptCommand c o s = .next t) :
    Continues s t := by
  rcases acceptCommand_next h with
    ⟨-, rfl⟩ | ⟨-, why, -, rfl⟩ | ⟨-, i, cause, -, -, rfl⟩ | ⟨-, i, -, -, hp⟩
  · exact ⟨by simp, by simp⟩
  · exact ⟨by simp, by simp⟩
  · exact ⟨by simp, by simp⟩
  · have recorded : Continues s (s.emit (.cmd c o)) := ⟨by simp, by simp⟩
    exact recorded.trans hp.continues

/-- Every step but a reset keeps the configuration and appends to the history. -/
theorem step_continues {s t : State} (h : step s = .next t) (hm : s.nextMove.1 ≠ .reset) :
    Continues s t := by
  have moved : Continues s s.nextMove.2 := ⟨by simp, by simp⟩
  obtain ⟨-, ⟨hr, -⟩ | ⟨-, rfl⟩ | ⟨-, -, hs⟩ | ⟨-, -, p, -, hp⟩ | ⟨-, -, -, -, rfl⟩ |
    ⟨-, -, -, c, o, rest, -, hc⟩⟩ := step_next h
  · exact absurd hr hm
  · exact moved.trans (irqArrives_continues _)
  · exact moved.trans (isrStep_next hs).continues
  · exact moved.trans hp.continues
  · exact moved
  · have taken : Continues s { s.nextMove.2 with cmds := rest } := ⟨by simp, by simp⟩
    exact taken.trans (acceptCommand_continues hc)

/-! LIFE. -/

/-- FAULTED with the cause and word of a fault the history has (60_exceptions.md R251). -/
structure FaultLatched (s : State) (cause : FaultCause) (info : Word) : Prop where
  life : s.life = .faulted
  recorded : .fault cause info ∈ s.ev
  faultCause : s.faultCause = cause.code
  faultInfo : s.faultInfo = info

theorem faultLatched_raiseFault (c : FaultCause) (w : Word) (s : State) :
    FaultLatched (raiseFault c w s) c w := ⟨rfl, by simp, rfl, rfl⟩

theorem faultLatched_commandFault (c : FaultCause) (w : Word) (s : State) :
    FaultLatched (commandFault c w s) c w := ⟨rfl, by simp, rfl, rfl⟩

theorem IsrStepped.life {s t : State} (h : IsrStepped s t) : t.life = s.life := by
  cases h <;> simp

theorem Resumed.life {p : Split} {s t : State} (h : Resumed p s t) : t.life = s.life := by
  cases h <;> simp

/-- Every performed command but INIT keeps LIFE. -/
theorem Performed.life {i : Instr} {s t : State} (h : Performed i s t) (hi : i ≠ .init) :
    t.life = s.life := by
  cases h with
  | init => exact absurd rfl hi
  | _ => simp

/-- What decoding has tested when it finds INIT. -/
theorem fields_of_decode_init {c o : Word} (h : decode c o = .ok .init) :
    cmdOp c = 1 ∧ initFieldsClear c = true := by
  by_cases hop : cmdOp c = 1
  · refine ⟨hop, ?_⟩
    by_contra hclear
    simp [decode, hop, hclear] at h
  · simp only [decode, hop, if_false] at h
    repeat' split at h
    all_goals cases h

/-- The only word of INIT (30_encoding.md R80). -/
theorem eq_of_decode_init {c o : Word} (h : decode c o = .ok .init) : c = 0x10000000 := by
  obtain ⟨hop, hclear⟩ := fields_of_decode_init h
  have hop := congrArg BitVec.toNat hop
  have hclear := congrArg BitVec.toNat (eq_of_beq hclear)
  have hlt := c.isLt
  apply BitVec.eq_of_toNat_eq
  simp [cmdOp, Nat.shiftRight_eq_div_pow] at hop hclear ⊢
  omega

/-- What a step but a reset does to LIFE: nothing, READY by INIT, or FAULTED by a recorded fault. -/
inductive LifeMoved (s t : State) : Prop where
  | kept : t.life = s.life → LifeMoved s t
  | ready (o : Word) : s.life = .uninit → t.life = .ready → s.cmds.head? = some (0x10000000, o) →
      LifeMoved s t
  | faulted (cause : FaultCause) (info : Word) : s.life ≠ .faulted → FaultLatched t cause info →
      LifeMoved s t

theorem irqArrives_lifeMoved (s : State) : LifeMoved s (irqArrives s) := by
  rcases irqArrives_cases s with ⟨hl, h⟩ | ⟨-, -, h⟩ | ⟨-, h⟩ <;> rw [h]
  · exact .faulted _ _ (by simp [hl]) (faultLatched_raiseFault _ _ _)
  · exact .kept rfl
  · exact .kept rfl

theorem acceptCommand_lifeMoved {c o : Word} {rest : List (Word × Word)} {s s' t : State}
    (hl' : s'.life = s.life) (hcmds : s.cmds = (c, o) :: rest) (h : acceptCommand c o s' = .next t) :
    LifeMoved s t := by
  rcases acceptCommand_next h with
    ⟨-, rfl⟩ | ⟨hl, why, -, rfl⟩ | ⟨hl, i, cause, -, -, rfl⟩ | ⟨hl, i, hd, hc, hp⟩
  · exact .kept (by simpa using hl')
  · exact .faulted _ _ (hl' ▸ hl) (faultLatched_commandFault _ _ _)
  · exact .faulted _ _ (hl' ▸ hl) (faultLatched_commandFault _ _ _)
  · rcases commandCheck_none hl hc with ⟨hu, rfl⟩ | ⟨-, hi⟩
    · obtain ⟨hready, -⟩ := hp.init_cursors .tx
      exact .ready o (hl'.symm.trans hu) hready (by rw [hcmds, eq_of_decode_init hd]; rfl)
    · exact .kept ((hp.life hi).trans hl')

theorem step_lifeMoved {s t : State} (h : step s = .next t) (hm : s.nextMove.1 ≠ .reset) :
    LifeMoved s t := by
  obtain ⟨-, ⟨hr, -⟩ | ⟨-, rfl⟩ | ⟨-, -, hs⟩ | ⟨-, -, p, -, hp⟩ | ⟨-, -, -, -, rfl⟩ |
    ⟨-, -, -, c, o, rest, hcmds, hc⟩⟩ := step_next h
  · exact absurd hr hm
  · cases irqArrives_lifeMoved s.nextMove.2 with
    | kept hl => exact .kept (by simpa using hl)
    | ready o hu hr hh => exact .ready o (by simpa using hu) hr (by simpa using hh)
    | faulted cause info hl hf => exact .faulted cause info (by simpa using hl) hf
  · exact .kept (by simpa using (isrStep_next hs).life)
  · exact .kept (by simpa using hp.life)
  · exact .kept (by simp)
  · exact acceptCommand_lifeMoved (by simp) hcmds hc

/-- The ISR runs only in READY (60_exceptions.md R260). -/
theorem StateInv.isrPc_idle {s : State} (h : StateInv s) (hl : s.life ≠ .ready) : s.isrPc = .idle := by
  by_contra hpc
  exact hl (h.isr hpc)

/-- A command is split only in READY. -/
theorem StateInv.split_none_of_not_ready {s : State} (h : StateInv s) (hl : s.life ≠ .ready) :
    s.split = none :=
  Option.eq_none_iff_forall_ne_some.2 fun p hp => hl (h.split p hp).1

/-- A FAULTED state with the invariant is left as it is by a step, or answers ERR = 1 to the words
presented (60_exceptions.md R251). -/
theorem step_faulted {s t : State} (hi : StateInv s) (hl : s.life = .faulted) (h : step s = .next t)
    (hm : s.nextMove.1 ≠ .reset) :
    t = s.nextMove.2 ∨
      ∃ c o rest, t = answerError ({ s.nextMove.2 with cmds := rest }.emit (.cmd c o)) := by
  have hn : s.life ≠ .ready := by simp [hl]
  obtain ⟨-, ⟨hr, -⟩ | ⟨-, rfl⟩ | ⟨-, hpc, -⟩ | ⟨-, -, p, hp, -⟩ | ⟨-, -, -, -, rfl⟩ |
    ⟨-, -, -, c, o, rest, -, hc⟩⟩ := step_next h
  · exact absurd hr hm
  · simp [irqArrives, hl]
  · exact absurd (hi.isrPc_idle hn) hpc
  · simp [hi.split_none_of_not_ready hn] at hp
  · exact .inl rfl
  · rcases acceptCommand_next hc with ⟨-, rfl⟩ | ⟨hn, -⟩ | ⟨hn, -⟩ | ⟨hn, -⟩
    · exact .inr ⟨c, o, rest, rfl⟩
    all_goals exact absurd (by simpa using hl) hn

end Sys2Proof.Machine

open Sys2Proof Sys2Proof.Machine

/-- Settles O57: a reset launches the same configuration, and no other step writes it. -/
theorem configurationNeverChanges : Obligations.ConfigurationNeverChanges := by
  intro s t h
  by_cases hm : s.nextMove.1 = .reset
  · obtain ⟨ha, -⟩ := step_next h
    rw [step_reset ha hm] at h
    cases h
    exact nextMove_cfg s
  · exact (step_continues h hm).cfg

/-- Settles O58: the history after begins with the history before. -/
theorem historyIsOnlyAppendedTo : Obligations.HistoryIsOnlyAppendedTo := by
  intro s t h hm
  obtain ⟨more, hmore⟩ := (step_continues h hm).ev
  exact ⟨more, hmore.symm⟩

/-- Settles O38: by the three ways LIFE moves. -/
theorem lifecycleOnlyMovesForward : Obligations.LifecycleOnlyMovesForward := by
  intro s t h hm
  cases step_lifeMoved h hm with
  | kept hl => exact ⟨(hl ▸ ·), fun hr => .inl (hl ▸ hr), (hl ▸ ·), fun hf => .inl (hl ▸ hf)⟩
  | ready o hu hr hh => exact ⟨fun _ => hu, fun _ => .inr ⟨hu, o, hh⟩, by simp [hu], by simp [hr]⟩
  | faulted cause info hl hf =>
    exact ⟨by simp [hf.life], by simp [hf.life], fun _ => hf.life,
      fun _ => .inr ⟨cause, info, hf.recorded, hf.faultCause, hf.faultInfo⟩⟩

/-- Settles O37: in FAULTED the port only answers ERR = 1, and neither the ISR nor a split command runs. -/
theorem onlyResetLeavesFaulted : Obligations.OnlyResetLeavesFaulted := by
  intro s t hi hl hm h
  rcases step_faulted hi hl h hm with rfl | ⟨c, o, rest, rfl⟩
  · simp [hl, EndedSuccessfully, NoFault]
  · simp [hl, EndedSuccessfully, NoFault, received_append, received, transmitted_append,
      transmitted]
end

section
/-! The invariant: what it says of the block's registers and buffers, and what it says of the sequencer, kept
apart because a step of the one leaves most of the other. -/

namespace Sys2Proof

/-- An accepted configuration's stores are canonical (00_scope.md R5). -/
theorem Config.stores_wf {c : Config} (h : c.accepted = true) :
    c.storeInitTx.wf c.capacity = true ∧ c.storeInitRx.wf c.capacity = true := by
  simp only [Config.accepted, Bool.and_eq_true, Config.storesOk] at h
  exact h.2

end Sys2Proof

namespace Sys2Proof.Machine

/-- The clauses of the invariant that do not speak of the sequencer. -/
structure BlockInv (s : State) : Prop where
  accepted : s.cfg.accepted = true
  tx : RingOk s.cfg.capacity s.tx
  rx : RingOk s.cfg.capacity s.rx
  bound : s.life = .ready → s.boundAddr = s.cfg.regAddr
  cause : s.faultCause.toNat ≤ 7 ∧ (s.faultCause = 0 ↔ s.life ≠ .faulted)
  info : s.life ≠ .faulted → s.faultInfo = 0
  split : ∀ p, s.split = some p →
    s.life = .ready ∧ s.cfg.atomicRingOps = false ∧ splitSlot p < s.cfg.capacity

/-- The clauses of the invariant that say when the sequencer may stand at `pc`. -/
structure SequencerOk (s : State) (pc : IsrPc) : Prop where
  isr : pc ≠ .idle → s.life = .ready
  drainMove : pc = .drainMove → s.txEmpty = false
  fill : inFill pc = true → bitSet s.isrS s.cfg.intRx = true
  drain : inDrain pc = true → bitSet s.isrS s.cfg.intTx = true

/-- The invariant is its two parts. -/
theorem stateInv_iff (s : State) : StateInv s ↔ BlockInv s ∧ SequencerOk s s.isrPc := by
  constructor
  · intro h
    exact ⟨⟨h.accepted, h.tx, h.rx, h.bound, h.cause, h.info, h.split⟩,
      ⟨h.isr, h.drainMove, h.fill, h.drain⟩⟩
  · rintro ⟨h, h'⟩
    exact ⟨h.accepted, h.tx, h.rx, h.bound, h.cause, h.info, h'.isr, h.split, h'.drainMove, h'.fill,
      h'.drain⟩

theorem StateInv.block {s : State} (h : StateInv s) : BlockInv s := ((stateInv_iff s).1 h).1

theorem StateInv.sequencer {s : State} (h : StateInv s) : SequencerOk s s.isrPc := ((stateInv_iff s).1 h).2

/-! Where the sequencer may stand. -/

theorem SequencerOk.idle (s : State) : SequencerOk s .idle := ⟨nofun, nofun, nofun, nofun⟩

/-- Outside the routines the sequencer asks for READY alone. -/
theorem SequencerOk.outside {s : State} {pc : IsrPc} (hl : s.life = .ready) (hf : inFill pc = false)
    (hd : inDrain pc = false) : SequencerOk s pc :=
  ⟨fun _ => hl, fun h => by simp [h, inDrain] at hd, by simp [hf], by simp [hd]⟩

/-- In the fill routine it asks for the RX bit too. -/
theorem SequencerOk.filling {s : State} {pc : IsrPc} (hl : s.life = .ready) (hf : inFill pc = true)
    (hb : bitSet s.isrS s.cfg.intRx = true) : SequencerOk s pc :=
  ⟨fun _ => hl, fun h => by simp [h, inFill] at hf, fun _ => hb, fun h => by
    cases pc <;> simp_all [inFill, inDrain]⟩

/-- In the drain routine it asks for the TX bit too, and in DRAIN_MOVE for a byte. -/
theorem SequencerOk.draining {s : State} {pc : IsrPc} (hl : s.life = .ready) (hd : inDrain pc = true)
    (hb : bitSet s.isrS s.cfg.intTx = true) (he : pc = .drainMove → s.txEmpty = false) :
    SequencerOk s pc :=
  ⟨fun _ => hl, he, fun h => by cases pc <;> simp_all [inFill, inDrain], fun _ => hb⟩

theorem SequencerOk.goto {s : State} {pc : IsrPc} (h : SequencerOk s pc) :
    SequencerOk (s.goto pc) (s.goto pc).isrPc :=
  ⟨h.isr, h.drainMove, h.fill, h.drain⟩

/-- With the sequencer idle the invariant is its other part. -/
theorem BlockInv.of_idle {s : State} (h : BlockInv s) (hpc : s.isrPc = .idle) : StateInv s :=
  (stateInv_iff s).2 ⟨h, hpc ▸ .idle s⟩

/-! What keeps the part on the block. -/

/-- Nothing the part on the block speaks of has changed. -/
structure BlockKept (s t : State) : Prop where
  cfg : t.cfg = s.cfg
  tx : t.tx = s.tx
  rx : t.rx = s.rx
  life : t.life = s.life
  boundAddr : t.boundAddr = s.boundAddr
  faultCause : t.faultCause = s.faultCause
  faultInfo : t.faultInfo = s.faultInfo
  split : t.split = s.split

theorem BlockInv.of_kept {s t : State} (h : BlockInv s) (hk : BlockKept s t) : BlockInv t := by
  obtain ⟨hcfg, htx, hrx, hlife, hbound, hcause, hinfo, hsplit⟩ := hk
  constructor
  · simpa [hcfg] using h.accepted
  · simpa [hcfg, htx] using h.tx
  · simpa [hcfg, hrx] using h.rx
  · simpa [hcfg, hlife, hbound] using h.bound
  · simpa [hlife, hcause] using h.cause
  · simpa [hlife, hinfo] using h.info
  · simpa [hcfg, hlife, hsplit] using h.split

theorem BlockInv.emit {s : State} (h : BlockInv s) (e : Event) : BlockInv (s.emit e) :=
  h.of_kept ⟨rfl, rfl, rfl, rfl, rfl, rfl, rfl, rfl⟩

theorem BlockInv.answer {s : State} (h : BlockInv s) (v : Word) : BlockInv (answer v s) :=
  h.of_kept ⟨rfl, rfl, rfl, rfl, rfl, rfl, rfl, rfl⟩

theorem BlockInv.answerError {s : State} (h : BlockInv s) : BlockInv (answerError s) :=
  h.of_kept ⟨rfl, rfl, rfl, rfl, rfl, rfl, rfl, rfl⟩

theorem BlockInv.goto {s : State} (h : BlockInv s) (pc : IsrPc) : BlockInv (s.goto pc) :=
  h.of_kept ⟨rfl, rfl, rfl, rfl, rfl, rfl, rfl, rfl⟩

theorem BlockInv.busRead {s : State} (h : BlockInv s) (ctx : Ctx) (r : Reg) :
    BlockInv (busRead ctx r s).2 :=
  h.of_kept (by constructor <;> simp)

theorem BlockInv.busWrite {s : State} (h : BlockInv s) (ctx : Ctx) (r : Reg) (v : Word) :
    BlockInv (busWrite ctx r v s) :=
  h.of_kept (by constructor <;> simp)

theorem BlockInv.ring {s : State} (h : BlockInv s) (sel : Sel) : RingOk s.cfg.capacity (s.ring sel) := by
  cases sel
  · exact h.tx
  · exact h.rx

theorem BlockInv.setRing {s : State} {sel : Sel} {r : Ring} (h : BlockInv s)
    (hr : RingOk s.cfg.capacity r) : BlockInv (s.setRing sel r) := by
  cases sel
  · exact ⟨h.accepted, hr, h.rx, h.bound, h.cause, h.info, h.split⟩
  · exact ⟨h.accepted, h.tx, hr, h.bound, h.cause, h.info, h.split⟩

theorem BlockInv.unsplit {s : State} (h : BlockInv s) : BlockInv { s with split := none } :=
  ⟨h.accepted, h.tx, h.rx, h.bound, h.cause, h.info, nofun⟩

/-- A command may be split in READY without ATOMIC_RING_OPS, at a slot below C. -/
theorem BlockInv.withSplit {s : State} {p : Split} (h : BlockInv s) (hl : s.life = .ready)
    (ha : s.cfg.atomicRingOps = false) (hp : splitSlot p < s.cfg.capacity) :
    BlockInv { s with split := some p } := by
  refine ⟨h.accepted, h.tx, h.rx, h.bound, h.cause, h.info, ?_⟩
  rintro q ⟨rfl⟩
  exact ⟨hl, ha, hp⟩

/-- Every fault cause has a code of the table that is not NONE (60_exceptions.md R250). -/
theorem FaultCause.code_mem (c : FaultCause) : c.code.toNat ≤ 7 ∧ c.code ≠ 0 := by
  cases c <;> decide

theorem BlockInv.raiseFault {s : State} (h : BlockInv s) (hp : s.split = none) (c : FaultCause)
    (w : Word) : BlockInv (raiseFault c w s) := by
  obtain ⟨hle, hne⟩ := c.code_mem
  refine ⟨h.accepted, h.tx, h.rx, nofun, ⟨hle, ?_⟩, fun hf => absurd rfl hf, ?_⟩
  · exact iff_of_false hne (absurd rfl)
  · simp [hp]

theorem BlockInv.commandFault {s : State} (h : BlockInv s) (hp : s.split = none) (c : FaultCause)
    (w : Word) : BlockInv (commandFault c w s) :=
  (h.raiseFault hp c w).answerError

/-- A store written below C stays canonical. -/
theorem RingOk.write {cap i : Nat} {r : Ring} (h : RingOk cap r) (hi : i < cap) (v : Byte) :
    RingOk cap { r with store := r.store.write i v } :=
  ⟨Memory.wf_write h.store hi, h.rc, h.wc⟩

/-- Cursors below C may be put anywhere below C. -/
theorem RingOk.withCursors {cap rc wc : Nat} {r : Ring} (h : RingOk cap r) (hrc : rc < cap)
    (hwc : wc < cap) : RingOk cap { r with rc := rc, wc := wc } :=
  ⟨h.store, hrc, hwc⟩

theorem BlockInv.initialise {s : State} (h : BlockInv s) (hl : s.life ≠ .faulted) :
    BlockInv (initialise s) := by
  obtain ⟨hle, hzero⟩ := h.cause
  have hpos : 0 < s.cfg.capacity := Nat.zero_lt_of_lt h.tx.rc
  refine ⟨h.accepted, h.tx.withCursors hpos hpos, h.rx.withCursors hpos hpos, fun _ => rfl,
    ⟨hle, iff_of_true (hzero.2 hl) nofun⟩, fun _ => h.info hl, fun p hp => ⟨rfl, (h.split p hp).2⟩⟩

/-! The parts of a step. -/

theorem Performed.blockInv {i : Instr} {s t : State} (h : Performed i s t) (hb : BlockInv s)
    (hl : s.life ≠ .faulted) (hr : i ≠ .init → s.life = .ready) : BlockInv t := by
  cases h with
  | init => exact (hb.initialise hl).answer 0
  | push _ sel b => exact (hb.setRing ((hb.ring sel).pushed b)).answer 0
  | pushSplit _ sel b ha hc =>
    exact (hb.setRing ((hb.ring sel).write hc b)).withSplit (by simpa using hr) (by simpa using ha)
      (by simpa [splitSlot] using hc)
  | pop _ sel => exact (hb.setRing (hb.ring sel).popped).answer _
  | popSplit _ sel ha hc => exact hb.withSplit (hr nofun) ha hc
  | rread _ r => exact (hb.busRead _ _).answer _
  | rwrite _ r v => exact (hb.busWrite _ _ _).answer _
  | ror _ r m => exact ((hb.busRead _ _).busWrite _ _ _).answer _
  | randc _ r m => exact ((hb.busRead _ _).busWrite _ _ _).answer _

theorem Performed.isrPc {i : Instr} {s t : State} (h : Performed i s t) : t.isrPc = s.isrPc := by
  cases h <;> simp

theorem Resumed.blockInv {p : Split} {s t : State} (h : Resumed p s t) (hb : BlockInv s)
    (hp : s.split = some p) : BlockInv t := by
  obtain ⟨hl, ha, hslot⟩ := hb.split p hp
  have advanced (i : Nat) : (i + 1) % s.cfg.capacity < s.cfg.capacity :=
    Nat.mod_lt _ (Nat.zero_lt_of_lt hslot)
  cases h with
  | p2 _ sel i =>
    have hr := hb.ring sel
    exact (hb.unsplit.setRing (hr.withCursors hr.rc (advanced _))).answer 0
  | q2 _ sel i v => exact hb.withSplit hl ha hslot
  | q3 _ sel i v e hi =>
    exact (hb.setRing ((hb.ring sel).write hi 0)).withSplit (by simpa using hl) (by simpa using ha)
      (by simpa [splitSlot] using hi)
  | q4 _ sel i v e =>
    have hr := hb.ring sel
    refine (hb.unsplit.setRing (hr.withCursors ?_ hr.wc)).answer _
    split
    · exact hr.rc
    · exact advanced i

theorem Resumed.isrPc {p : Split} {s t : State} (h : Resumed p s t) : t.isrPc = s.isrPc := by
  cases h <;> simp

theorem acceptCommand_stateInv {c o : Word} {s t : State} (h : acceptCommand c o s = .next t)
    (hb : BlockInv s) (hpc : s.isrPc = .idle) (hp : s.split = none) : StateInv t := by
  have hb := hb.emit (.cmd c o)
  rcases acceptCommand_next h with
    ⟨-, rfl⟩ | ⟨-, why, -, rfl⟩ | ⟨-, i, cause, -, -, rfl⟩ | ⟨hl, i, -, hc, hperf⟩
  · exact hb.answerError.of_idle hpc
  · exact (hb.commandFault hp _ _).of_idle hpc
  · exact (hb.commandFault hp _ _).of_idle hpc
  · have hready : i ≠ .init → (s.emit (.cmd c o)).life = .ready := fun hi => by
      rcases commandCheck_none hl hc with ⟨-, rfl⟩ | ⟨hr, -⟩
      · exact absurd rfl hi
      · exact hr
    exact (hperf.blockInv hb hl hready).of_idle (hperf.isrPc.trans hpc)

theorem irqArrives_stateInv {s : State} (h : StateInv s) : StateInv (irqArrives s) := by
  rcases irqArrives_cases s with ⟨hl, he⟩ | ⟨hl, -, he⟩ | ⟨-, he⟩ <;> rw [he]
  · have hn : s.life ≠ .ready := by simp [hl]
    exact (h.block.raiseFault (h.split_none_of_not_ready hn) _ _).of_idle (h.isrPc_idle hn)
  · exact (stateInv_iff _).2 ⟨(h.block.goto .entry).emit .irq, .outside hl rfl rfl⟩
  · exact h

/-- An idle sequencer does nothing. -/
theorem IsrStepped.eq_of_idle {s t : State} (h : IsrStepped s t) (hpc : s.isrPc = .idle) : t = s := by
  cases h <;> simp_all

theorem IsrStepped.blockInv {s t : State} (h : IsrStepped s t) (hb : BlockInv s) : BlockInv t := by
  cases h with
  | fillMove _ hc =>
    exact ((hb.busRead _ _).setRing (by simpa using hb.rx.pushed _)).goto _
  | drainMove _ hc => exact ((hb.setRing hb.tx.popped).busWrite _ _ _).goto _
  | _ => exact hb.of_kept (by constructor <;> simp)

theorem IsrStepped.sequencerOk {s t : State} (h : IsrStepped s t) (hi : StateInv s) :
    SequencerOk t t.isrPc := by
  by_cases hidle : s.isrPc = .idle
  · obtain rfl := h.eq_of_idle hidle
    exact hi.sequencer
  have hl : t.life = .ready := h.life.trans (hi.isr hidle)
  have hfill := hi.fill
  have hdrain := hi.drain
  cases h with
  | idle hpc => exact absurd hpc hidle
  | entry =>
    apply SequencerOk.goto
    split
    · exact .filling hl rfl (by simpa)
    · exact .outside hl rfl rfl
  | rxAck hpc =>
    rw [hpc] at hfill
    exact .goto (.filling hl rfl (by simpa using hfill rfl))
  | fillTest hpc =>
    rw [hpc] at hfill
    apply SequencerOk.goto
    split
    · exact .filling hl rfl (by simpa using hfill rfl)
    · exact .outside hl rfl rfl
  | fillMove hpc =>
    rw [hpc] at hfill
    exact .goto (.filling hl rfl (by simpa using hfill rfl))
  | txTest =>
    apply SequencerOk.goto
    split
    · exact .draining hl rfl ‹_› nofun
    · exact .outside hl rfl rfl
  | txAck hpc =>
    rw [hpc] at hdrain
    exact .goto (.draining hl rfl (by simpa using hdrain rfl) nofun)
  | drainTrig hpc =>
    rw [hpc] at hdrain
    apply SequencerOk.goto
    split
    · exact .draining hl rfl (by simpa using hdrain rfl) nofun
    · exact .outside hl rfl rfl
  | drainTest hpc =>
    rw [hpc] at hdrain
    apply SequencerOk.goto
    split
    · exact .draining hl rfl (by simpa using hdrain rfl) nofun
    split
    · exact .draining hl rfl (by simpa using hdrain rfl) nofun
    · exact .draining hl rfl (by simpa using hdrain rfl) fun _ => by
        simpa [State.txEmpty] using ‹¬ s.txEmpty = true›
  | drainMove hpc =>
    rw [hpc] at hdrain
    exact .goto (.draining hl rfl (by simpa using hdrain rfl) nofun)
  | disarm => exact .goto (.outside hl rfl rfl)
  | keepArmed => exact .goto (.outside hl rfl rfl)
  | ret => exact .idle _

/-- A move taken keeps the invariant. -/
theorem StateInv.nextMove {s : State} (h : StateInv s) : StateInv s.nextMove.2 := by
  rw [nextMove_snd]
  exact ⟨h.accepted, h.tx, h.rx, h.bound, h.cause, h.info, h.isr, h.split, h.drainMove, h.fill, h.drain⟩

/-- A hardware reset of an accepted configuration leaves the invariant. -/
theorem stateInv_hardReset {s : State} (h : s.cfg.accepted = true) : StateInv (hardReset s) := by
  have hpos : 0 < s.cfg.capacity := Nat.zero_lt_of_lt (s.cfg.two_le_capacity h)
  obtain ⟨htx, hrx⟩ := s.cfg.stores_wf h
  have hb : BlockInv (hardReset s) :=
    ⟨h, ⟨htx, hpos, hpos⟩, ⟨hrx, hpos, hpos⟩, nofun, ⟨Nat.zero_le 7, iff_of_true rfl nofun⟩,
      fun _ => rfl, nofun⟩
  exact hb.of_idle rfl

end Sys2Proof.Machine

open Sys2Proof Sys2Proof.Machine

/-- Settles O54: a launch is what a hardware reset of itself leaves. -/
theorem launchHasTheInvariant : Obligations.LaunchHasTheInvariant := by
  have launched (c : Config) (h : c.accepted = true) : StateInv (State.launch c) := by
    rw [← hardReset_launch c]
    exact stateInv_hardReset h
  exact ⟨launched, launched Config.default (by decide)⟩

/-- Settles O55: each kind of step keeps the part of the invariant on the block, and the sequencer stands
where it may. -/
theorem everyStepKeepsTheInvariant : Obligations.EveryStepKeepsTheInvariant := by
  intro s t hi h
  have moved := hi.nextMove
  obtain ⟨ha, ⟨-, rfl⟩ | ⟨-, rfl⟩ | ⟨-, -, hs⟩ | ⟨-, hpc, p, hp, hr⟩ | ⟨-, -, -, -, rfl⟩ |
    ⟨-, hpc, hp, c, o, rest, -, hc⟩⟩ := step_next h
  · exact stateInv_hardReset (by simpa using ha)
  · exact irqArrives_stateInv moved
  · have hs := isrStep_next hs
    exact (stateInv_iff t).2 ⟨hs.blockInv moved.block, hs.sequencerOk moved⟩
  · exact (hr.blockInv moved.block (by simpa using hp)).of_idle (hr.isrPc.trans (by simpa using hpc))
  · exact moved
  · exact acceptCommand_stateInv hc (moved.block.of_kept ⟨rfl, rfl, rfl, rfl, rfl, rfl, rfl, rfl⟩)
      (by simpa using hpc) (by simpa using hp)
end

section
/-! The four register commands: what they leave, whatever they answer. -/

namespace Sys2Proof.Machine

/-- Is the command one of the four on register `r`, with operand `v` where it has one? -/
def OnRegister (r : Reg) (v : Word) (i : Instr) : Prop :=
  i = .rread r ∨ i = .rwrite r v ∨ i = .ror r v ∨ i = .randc r v

theorem OnRegister.ne_init {r : Reg} {v : Word} {i : Instr} (hi : OnRegister r v i) : i ≠ .init := by
  rcases hi with rfl | rfl | rfl | rfl <;> nofun

theorem OnRegister.wrongRole {r : Reg} {v : Word} {i : Instr} (hi : OnRegister r v i) :
    wrongRole i = false := by
  rcases hi with rfl | rfl | rfl | rfl <;> rfl

/-- A command but INIT, in a role the SPSC check never faults, answers ERR = 1 in FAULTED, faults with NOT_INIT in
UNINIT and is performed in READY (60_exceptions.md R251, R252). -/
theorem exec_next_of_role {i : Instr} {s t : State} (hi : i ≠ .init) (hr : wrongRole i = false)
    (h : exec i s = .next t) :
    (s.life = .faulted ∧ t = answerError s) ∨
    (s.life = .uninit ∧ t = commandFault .notInit (cmdWord i) s) ∨
    (s.life = .ready ∧ Performed i s t) := by
  rcases exec_next h with hf | ⟨hl, c, hc, rfl⟩ | ⟨hl, hc, hp⟩
  · exact .inl hf
  · cases hlife : s.life with
    | faulted => exact absurd hlife hl
    | uninit =>
      rw [commandCheck_uninit hlife, if_neg hi] at hc
      cases hc
      exact .inr (.inl ⟨rfl, rfl⟩)
    | ready => simp [commandCheck_ready hlife hi fun _ => hr] at hc
  · rcases commandCheck_none hl hc with ⟨-, he⟩ | ⟨hready, -⟩
    · exact absurd he hi
    · exact .inr (.inr ⟨hready, hp⟩)

/-- What command `i` on register `r` leaves (20_memory.md R50, 41_register_interface.md R144): every field but LIFE,
the response, the fault registers and the history; of the device, a storage register it does not write and, at a
storage register, the draws. -/
structure RegisterFrame (r : Reg) (i : Instr) (s t : State) : Prop where
  cfg : t.cfg = s.cfg
  tx : t.tx = s.tx
  rx : t.rx = s.rx
  boundAddr : t.boundAddr = s.boundAddr
  isrPc : t.isrPc = s.isrPc
  isrS : t.isrS = s.isrS
  split : t.split = s.split
  cmds : t.cmds = s.cmds
  moves : t.moves = s.moves
  later : t.later = s.later
  moveCount : t.moveCount = s.moveCount
  devCtrl : r ≠ .uartCtrl ∨ i = .rread r → t.devCtrl = s.devCtrl
  devImask : r ≠ .intMask ∨ i = .rread r → t.devImask = s.devImask
  draws : isVolatile r = false → t.draws = s.draws
  drawCount : isVolatile r = false → t.drawCount = s.drawCount

theorem RegisterFrame.trans {r : Reg} {i : Instr} {s t u : State} (h : RegisterFrame r i s t)
    (h' : RegisterFrame r i t u) : RegisterFrame r i s u where
  cfg := h'.cfg.trans h.cfg
  tx := h'.tx.trans h.tx
  rx := h'.rx.trans h.rx
  boundAddr := h'.boundAddr.trans h.boundAddr
  isrPc := h'.isrPc.trans h.isrPc
  isrS := h'.isrS.trans h.isrS
  split := h'.split.trans h.split
  cmds := h'.cmds.trans h.cmds
  moves := h'.moves.trans h.moves
  later := h'.later.trans h.later
  moveCount := h'.moveCount.trans h.moveCount
  devCtrl hr := (h'.devCtrl hr).trans (h.devCtrl hr)
  devImask hr := (h'.devImask hr).trans (h.devImask hr)
  draws hr := (h'.draws hr).trans (h.draws hr)
  drawCount hr := (h'.drawCount hr).trans (h.drawCount hr)

theorem registerFrame_answer (r : Reg) (i : Instr) (v : Word) (s : State) :
    RegisterFrame r i s (answer v s) := by
  constructor <;> intros <;> rfl

theorem registerFrame_answerError (r : Reg) (i : Instr) (s : State) :
    RegisterFrame r i s (answerError s) := by
  constructor <;> intros <;> rfl

theorem registerFrame_commandFault (r : Reg) (i : Instr) (c : FaultCause) (w : Word) (s : State) :
    RegisterFrame r i s (commandFault c w s) := by
  constructor <;> intros <;> rfl

/-- A read takes a draw only at a volatile register. -/
theorem registerFrame_busRead (r : Reg) (i : Instr) (ctx : Ctx) (s : State) :
    RegisterFrame r i s (busRead ctx r s).2 := by
  constructor <;> simp +contextual [busRead_draws, busRead_drawCount]

/-- A command that is no RREAD writes no other register than its own. -/
theorem registerFrame_busWrite {r : Reg} {i : Instr} (hi : i ≠ .rread r) (ctx : Ctx) (v : Word) (s : State) :
    RegisterFrame r i s (busWrite ctx r v s) := by
  constructor <;> simp +contextual [hi, busWrite_devCtrl, busWrite_devImask]

/-- A performed register command is its bus accesses and an answer. -/
theorem Performed.registerFrame {r : Reg} {v : Word} {i : Instr} {s t : State} (h : Performed i s t)
    (hi : OnRegister r v i) : RegisterFrame r i s t := by
  rcases hi with rfl | rfl | rfl | rfl <;> cases h
  case rread => exact (registerFrame_busRead ..).trans (registerFrame_answer ..)
  case rwrite => exact (registerFrame_busWrite (by nofun) ..).trans (registerFrame_answer ..)
  all_goals
    exact ((registerFrame_busRead ..).trans (registerFrame_busWrite (by nofun) ..)).trans
      (registerFrame_answer ..)

/-- A performed command leaves the fault registers. -/
theorem Performed.faultRegisters {i : Instr} {s t : State} (h : Performed i s t) :
    t.faultCause = s.faultCause ∧ t.faultInfo = s.faultInfo := by
  cases h with
  | init => exact ⟨rfl, rfl⟩
  | _ => simp

/-- A register command has its frame in every LIFE. -/
theorem exec_registerFrame {r : Reg} {v : Word} {i : Instr} {s t : State} (hi : OnRegister r v i)
    (h : exec i s = .next t) : RegisterFrame r i s t := by
  rcases exec_next_of_role hi.ne_init hi.wrongRole h with ⟨-, rfl⟩ | ⟨-, rfl⟩ | ⟨-, hp⟩
  · exact registerFrame_answerError r i s
  · exact registerFrame_commandFault r i _ _ s
  · exact hp.registerFrame hi

/-- From READY and FAULTED a register command keeps LIFE and the fault registers. -/
theorem exec_register_life_of_ne_uninit {r : Reg} {v : Word} {i : Instr} {s t : State} (hi : OnRegister r v i)
    (h : exec i s = .next t) (hl : s.life ≠ .uninit) :
    t.life = s.life ∧ t.faultCause = s.faultCause ∧ t.faultInfo = s.faultInfo := by
  rcases exec_next_of_role hi.ne_init hi.wrongRole h with ⟨-, rfl⟩ | ⟨hu, -⟩ | ⟨-, hp⟩
  · exact ⟨rfl, rfl, rfl⟩
  · exact absurd hu hl
  · exact ⟨hp.life hi.ne_init, hp.faultRegisters⟩

/-- In UNINIT a register command latches NOT_INIT with its own word (60_exceptions.md R252). -/
theorem exec_register_fault_of_uninit {r : Reg} {v : Word} {i : Instr} {s t : State} (hi : OnRegister r v i)
    (h : exec i s = .next t) (hl : s.life = .uninit) :
    t.life = .faulted ∧ t.faultCause = 4 ∧ t.faultInfo = cmdWord i := by
  rcases exec_next_of_role hi.ne_init hi.wrongRole h with ⟨hf, -⟩ | ⟨-, rfl⟩ | ⟨hr, -⟩
  · simp [hl] at hf
  · exact ⟨rfl, rfl, rfl⟩
  · simp [hl] at hr

end Sys2Proof.Machine

open Sys2Proof Sys2Proof.Machine

/-- Settles O32: the frame of each bus access and of each answer, put together. -/
theorem registerCommandFrame : Obligations.RegisterCommandFrame := by
  intro s t r v i hi h
  have frame := exec_registerFrame hi h
  have hring := State.ring_congr frame.tx frame.rx
  exact ⟨frame.tx, frame.rx, fun sel a => by rw [hring sel], frame.devCtrl, frame.devImask,
    exec_register_life_of_ne_uninit hi h, exec_register_fault_of_uninit hi h,
    frame.boundAddr, frame.isrPc, frame.isrS, frame.split, frame.cfg, frame.cmds, frame.moves, frame.later,
    frame.moveCount, fun hr => ⟨frame.draws hr, frame.drawCount hr⟩⟩
end

section
/-! The fields of a command word as parts of the number it is (30_encoding.md R71, R76). -/

namespace Sys2Proof

theorem cmdOp_toNat (c : Word) : (cmdOp c).toNat = c.toNat / 2 ^ 28 := by
  have := c.isLt
  simp [cmdOp, Nat.shiftRight_eq_div_pow]
  omega

theorem cmdSel_toNat (c : Word) : (cmdSel c).toNat = c.toNat / 2 ^ 16 % 2 := by
  simp [cmdSel, Nat.shiftRight_eq_div_pow]

theorem cmdReg_toNat (c : Word) : (cmdReg c).toNat = c.toNat / 2 ^ 24 % 8 := by
  simp [cmdReg, Nat.shiftRight_eq_div_pow]

theorem initFieldsClear_iff (c : Word) : initFieldsClear c = true ↔ c.toNat % 2 ^ 28 = 0 := by
  simp [initFieldsClear, ← BitVec.toNat_inj]

theorem ringFieldsClear_iff (c : Word) :
    ringFieldsClear c = true ↔ c.toNat / 2 ^ 17 % 2 ^ 11 = 0 ∧ c.toNat % 2 ^ 16 = 0 := by
  simp [ringFieldsClear, ← BitVec.toNat_inj, Nat.shiftRight_eq_div_pow]

theorem regFieldsClear_iff (c : Word) :
    regFieldsClear c = true ↔ c.toNat / 2 ^ 27 % 2 = 0 ∧ c.toNat % 2 ^ 24 = 0 := by
  simp [regFieldsClear, ← BitVec.toNat_inj, Nat.shiftRight_eq_div_pow]

theorem Sel.ofField_cmdSel_eq_iff (c : Word) (sel : Sel) :
    Sel.ofField (cmdSel c) = sel ↔ c.toNat / 2 ^ 16 % 2 = sel.field := by
  rw [← cmdSel_toNat]
  generalize cmdSel c = f
  cases sel <;> revert f <;> decide

theorem Reg.ofField_cmdReg_eq_some_iff (c : Word) (r : Reg) :
    Reg.ofField (cmdReg c) = some r ↔ c.toNat / 2 ^ 24 % 8 = r.field := by
  rw [← cmdReg_toNat]
  generalize cmdReg c = f
  cases r <;> revert f <;> decide

theorem Reg.ofField_cmdReg_eq_none_iff (c : Word) :
    Reg.ofField (cmdReg c) = none ↔ c.toNat / 2 ^ 24 % 8 = 7 := by
  rw [← cmdReg_toNat]
  generalize cmdReg c = f
  revert f
  decide

/-- A command word is its fields, with every reserved bit 0 (30_encoding.md R71). -/
theorem eq_fieldsWord_iff {c : Word} {op reg sel : Nat} (hop : op < 16) (hreg : reg < 8) (hsel : sel < 2) :
    c = fieldsWord op reg sel ↔
      c.toNat / 2 ^ 28 = op ∧ c.toNat / 2 ^ 24 % 8 = reg ∧ c.toNat / 2 ^ 16 % 2 = sel ∧
      c.toNat / 2 ^ 27 % 2 = 0 ∧ c.toNat / 2 ^ 17 % 2 ^ 7 = 0 ∧ c.toNat % 2 ^ 16 = 0 := by
  have := c.isLt
  rw [← BitVec.toNat_inj, fieldsWord, BitVec.toNat_ofNat]
  omega

theorem Reg.field_lt (r : Reg) : r.field < 7 := by cases r <;> decide

theorem Sel.field_lt (sel : Sel) : sel.field < 2 := by cases sel <;> decide

theorem cmdOp_eq_iff {c : Word} {op : BitVec 4} : cmdOp c = op ↔ c.toNat / 2 ^ 28 = op.toNat := by
  rw [← BitVec.toNat_inj, cmdOp_toNat]

/-- The word of INIT: operation 1 and the tested bits 0. -/
theorem eq_initWord_iff {c : Word} : c = fieldsWord 1 0 0 ↔ cmdOp c = 1 ∧ initFieldsClear c = true := by
  rw [eq_fieldsWord_iff (by decide) (by decide) (by decide), cmdOp_eq_iff, initFieldsClear_iff,
    show (1 : BitVec 4).toNat = 1 from rfl]
  omega

/-- A word of PUSH or POP: the operation, the tested bits 0 and the buffer in SEL. -/
theorem eq_ringWord_iff {c : Word} {op : BitVec 4} {n : Nat} {sel : Sel} (hn : op.toNat = n) :
    c = fieldsWord n 0 sel.field ↔
      cmdOp c = op ∧ ringFieldsClear c = true ∧ Sel.ofField (cmdSel c) = sel := by
  subst hn
  rw [eq_fieldsWord_iff op.isLt (by decide) sel.field_lt, cmdOp_eq_iff, ringFieldsClear_iff,
    Sel.ofField_cmdSel_eq_iff]
  omega

/-- A word of a register command: the operation, the tested bits 0 and the register in REG. -/
theorem eq_regWord_iff {c : Word} {op : BitVec 4} {n : Nat} {r : Reg} (hn : op.toNat = n) :
    c = fieldsWord n r.field 0 ↔
      cmdOp c = op ∧ regFieldsClear c = true ∧ Reg.ofField (cmdReg c) = some r := by
  subst hn
  rw [eq_fieldsWord_iff op.isLt (Nat.lt_succ_of_lt r.field_lt) (by decide), cmdOp_eq_iff, regFieldsClear_iff,
    Reg.ofField_cmdReg_eq_some_iff]
  omega

end Sys2Proof
end

section
/-! Decoding, operation by operation, and the legal words. -/

namespace Sys2Proof

/-- An operation is illegal, one of the three without a register, or one of the four with one (30_encoding.md
R72). -/
theorem cmdOp_cases (c : Word) :
    (cmdOp c = 0 ∨ 8 ≤ cmdOp c) ∨ cmdOp c = 1 ∨ cmdOp c = 2 ∨ cmdOp c = 3 ∨
      (4 ≤ cmdOp c ∧ cmdOp c < 8) := by
  generalize cmdOp c = op
  revert op
  decide

/-- The command of register operation 4, 5, 6 or 7, with its operand from OPND (30_encoding.md R72, R75). -/
def Instr.ofRegOp (op : BitVec 4) (r : Reg) (opnd : Word) : Instr :=
  if op = 4 then .rread r
  else if op = 5 then .rwrite r (Machine.regOperand r opnd)
  else if op = 6 then .ror r (Machine.regOperand r opnd)
  else .randc r (Machine.regOperand r opnd)

theorem cmdWord_ofRegOp {op : BitVec 4} (h : 4 ≤ op ∧ op < 8) (r : Reg) (o : Word) :
    cmdWord (.ofRegOp op r o) = fieldsWord op.toNat r.field 0 := by
  have hop : op = 4 ∨ op = 5 ∨ op = 6 ∨ op = 7 := by
    revert op
    decide
  rcases hop with rfl | rfl | rfl | rfl <;> rfl

theorem decode_of_illegal_op {c : Word} (h : cmdOp c = 0 ∨ 8 ≤ cmdOp c) (o : Word) :
    decode c o = .error .illegalOpcode := if_pos h

theorem decode_of_init_op {c : Word} (h : cmdOp c = 1) (o : Word) :
    decode c o = if initFieldsClear c then .ok .init else .error .reservedField := by
  simp [decode, h]

theorem decode_of_push_op {c : Word} (h : cmdOp c = 2) (o : Word) :
    decode c o = if ringFieldsClear c then .ok (.push (.ofField (cmdSel c)) (Machine.byteOperand o))
      else .error .reservedField := by
  simp [decode, h]

theorem decode_of_pop_op {c : Word} (h : cmdOp c = 3) (o : Word) :
    decode c o = if ringFieldsClear c then .ok (.pop (.ofField (cmdSel c)))
      else .error .reservedField := by
  simp [decode, h]

theorem decode_of_reg_op {c : Word} (h : 4 ≤ cmdOp c ∧ cmdOp c < 8) (o : Word) :
    decode c o = if regFieldsClear c then
        (Reg.ofField (cmdReg c)).elim (.error .illegalReg) fun r => .ok (.ofRegOp (cmdOp c) r o)
      else .error .reservedField := by
  have hop : ¬ (cmdOp c = 0 ∨ 8 ≤ cmdOp c) ∧ cmdOp c ≠ 1 ∧ cmdOp c ≠ 2 ∧ cmdOp c ≠ 3 := by
    revert h
    generalize cmdOp c = op
    revert op
    decide
  obtain ⟨hlegal, hinit, hpush, hpop⟩ := hop
  simp only [decode, hlegal, hinit, hpush, hpop, if_false]
  cases Reg.ofField (cmdReg c) with
  | none => rfl
  | some r =>
    unfold Instr.ofRegOp
    split_ifs <;> rfl

/-- The command with its operand, where it has one, taken from OPND (30_encoding.md R75). -/
def Instr.taking (o : Word) : Instr → Instr
  | .push sel _ => .push sel (Machine.byteOperand o)
  | .rwrite r _ => .rwrite r (Machine.regOperand r o)
  | .ror r _ => .ror r (Machine.regOperand r o)
  | .randc r _ => .randc r (Machine.regOperand r o)
  | i => i

theorem Instr.taking_ofRegOp (op : BitVec 4) (r : Reg) (o : Word) :
    (Instr.ofRegOp op r o).taking o = .ofRegOp op r o := by
  unfold Instr.ofRegOp
  split_ifs <;> rfl

theorem decode_initWord (o : Word) : decode (fieldsWord 1 0 0) o = .ok .init := by
  obtain ⟨hop, hclear⟩ := eq_initWord_iff.1 rfl
  rw [decode_of_init_op hop, if_pos hclear]

theorem decode_pushWord (sel : Sel) (o : Word) :
    decode (fieldsWord 2 0 sel.field) o = .ok (.push sel (Machine.byteOperand o)) := by
  obtain ⟨hop, hclear, hsel⟩ := (eq_ringWord_iff (op := 2) (n := 2) (sel := sel) rfl).1 rfl
  rw [decode_of_push_op hop, if_pos hclear, hsel]

theorem decode_popWord (sel : Sel) (o : Word) :
    decode (fieldsWord 3 0 sel.field) o = .ok (.pop sel) := by
  obtain ⟨hop, hclear, hsel⟩ := (eq_ringWord_iff (op := 3) (n := 3) (sel := sel) rfl).1 rfl
  rw [decode_of_pop_op hop, if_pos hclear, hsel]

theorem decode_regWord {op : BitVec 4} {n : Nat} (hn : op.toNat = n) (h : 4 ≤ op ∧ op < 8) (r : Reg)
    (o : Word) : decode (fieldsWord n r.field 0) o = .ok (.ofRegOp op r o) := by
  obtain ⟨hop, hclear, hreg⟩ := (eq_regWord_iff (r := r) hn).1 rfl
  rw [decode_of_reg_op (by rwa [hop]), if_pos hclear, hreg, hop, Option.elim]

/-- The word of every command is legal, whatever OPND holds. -/
theorem decode_cmdWord (i : Instr) (o : Word) : decode (cmdWord i) o = .ok (i.taking o) := by
  cases i with
  | init => exact decode_initWord o
  | push sel b => exact decode_pushWord sel o
  | pop sel => exact decode_popWord sel o
  | rread r => exact decode_regWord (op := 4) rfl (by decide) r o
  | rwrite r v => exact decode_regWord (op := 5) rfl (by decide) r o
  | ror r m => exact decode_regWord (op := 6) rfl (by decide) r o
  | randc r m => exact decode_regWord (op := 7) rfl (by decide) r o

/-- Only the command's own word decodes to it, with the operand OPND gives. -/
theorem eq_cmdWord_of_decode {c o : Word} {i : Instr} (h : decode c o = .ok i) :
    c = cmdWord i ∧ i.taking o = i := by
  rcases cmdOp_cases c with hop | hop | hop | hop | hop
  · rw [decode_of_illegal_op hop] at h
    cases h
  · rw [decode_of_init_op hop] at h
    split at h <;> cases h
    exact ⟨eq_initWord_iff.2 ⟨hop, ‹_›⟩, rfl⟩
  · rw [decode_of_push_op hop] at h
    split at h <;> cases h
    exact ⟨(eq_ringWord_iff (n := 2) rfl).2 ⟨hop, ‹_›, rfl⟩, rfl⟩
  · rw [decode_of_pop_op hop] at h
    split at h <;> cases h
    exact ⟨(eq_ringWord_iff (n := 3) rfl).2 ⟨hop, ‹_›, rfl⟩, rfl⟩
  · rw [decode_of_reg_op hop] at h
    split at h
    · cases hr : Reg.ofField (cmdReg c) with
      | none =>
        rw [hr] at h
        cases h
      | some r =>
        rw [hr] at h
        cases h
        rw [cmdWord_ofRegOp hop]
        exact ⟨(eq_regWord_iff rfl).2 ⟨rfl, ‹_›, hr⟩, Instr.taking_ofRegOp _ r o⟩
    · cases h

/-- Words decode to a command exactly when CMD is the command's word and its operand is from OPND
(30_encoding.md R75, R80). -/
theorem decode_eq_ok_iff {c o : Word} {i : Instr} :
    decode c o = .ok i ↔ c = cmdWord i ∧ i.taking o = i := by
  refine ⟨eq_cmdWord_of_decode, ?_⟩
  rintro ⟨rfl, hi⟩
  rw [decode_cmdWord, hi]

end Sys2Proof
end

section
/-! Operands, and the round trip between commands and words. -/

namespace Sys2Proof

theorem Machine.lowByte_zext32 (b : Byte) : Machine.lowByte (Machine.zext32 b) = b := by
  simp [Machine.lowByte, Machine.zext32]

/-- What a register command takes of a value is the value modulo 2 to the register's width (30_encoding.md
R75). -/
theorem Machine.truncTo_toNat (r : Reg) (v : Word) :
    (Machine.truncTo r v).toNat = v.toNat % 2 ^ r.width := by
  have hword : v.toNat % 2 ^ 32 = v.toNat := Nat.mod_eq_of_lt v.isLt
  have hbyte : (Machine.zext32 (Machine.lowByte v)).toNat = v.toNat % 2 ^ 8 := by
    simp [Machine.zext32, Machine.lowByte]
    omega
  cases r with
  | uartCtrl => exact hword.symm
  | uartStat => exact hword.symm
  | _ => exact hbyte

theorem Reg.fits_iff (r : Reg) (v : Word) : r.fits v = true ↔ v.toNat < 2 ^ r.width := by
  simp [Reg.fits]

theorem Reg.fits_truncTo (r : Reg) (v : Word) : r.fits (Machine.truncTo r v) = true := by
  rw [r.fits_iff, Machine.truncTo_toNat]
  exact Nat.mod_lt _ (Nat.two_pow_pos _)

theorem Machine.truncTo_of_fits {r : Reg} {v : Word} (h : r.fits v = true) : Machine.truncTo r v = v := by
  apply BitVec.eq_of_toNat_eq
  rw [Machine.truncTo_toNat, Nat.mod_eq_of_lt ((r.fits_iff v).1 h)]

theorem cmdWord_taking (i : Instr) (o : Word) : cmdWord (i.taking o) = cmdWord i := by
  cases i <;> rfl

theorem Instr.wellFormed_taking (i : Instr) (o : Word) : (i.taking o).wellFormed = true := by
  cases i with
  | rwrite r v => exact r.fits_truncTo o
  | ror r m => exact r.fits_truncTo o
  | randc r m => exact r.fits_truncTo o
  | _ => rfl

/-- A well-formed command takes its operand back from its own operand word. -/
theorem Instr.taking_opndWord {i : Instr} (h : i.wellFormed = true) : i.taking (opndWord i) = i := by
  cases i with
  | push sel b => exact congrArg (Instr.push sel) (Machine.lowByte_zext32 b)
  | rwrite r v => exact congrArg (Instr.rwrite r) (Machine.truncTo_of_fits h)
  | ror r m => exact congrArg (Instr.ror r) (Machine.truncTo_of_fits h)
  | randc r m => exact congrArg (Instr.randc r) (Machine.truncTo_of_fits h)
  | _ => rfl

end Sys2Proof

open Sys2Proof Sys2Proof.Machine

/-- Settles O2: the command's word decodes with the operand the operand word gives, which is the command's. -/
theorem encodedCommandDecodesToItself : Obligations.EncodedCommandDecodesToItself :=
  fun _ h => decode_eq_ok_iff.2 ⟨rfl, Instr.taking_opndWord h⟩

/-- Settles O3: the word is the command's, and the operand is the one OPND gives. -/
theorem decodedCommandKeepsItsWords : Obligations.DecodedCommandKeepsItsWords := by
  intro c o i h
  obtain ⟨hc, hi⟩ := decode_eq_ok_iff.1 h
  rw [← hi]
  refine ⟨i.wellFormed_taking o, (cmdWord_taking i o).trans hc.symm, ?_⟩
  cases i with
  | push sel b => exact BitVec.toNat_setWidth 8 o
  | rwrite r v => exact truncTo_toNat r o
  | ror r m => exact truncTo_toNat r o
  | randc r m => exact truncTo_toNat r o
  | _ => trivial
end

section
/-! The masks of the opcode map and of the must-be-zero bits (30_encoding.md R76, R80). -/

namespace Sys2Proof

/-- A mask of the `w` bits from `k` on keeps that field. -/
theorem nat_and_field (x k w : Nat) : x &&& (2 ^ w - 1) * 2 ^ k = x / 2 ^ k % 2 ^ w * 2 ^ k := by
  apply Nat.eq_of_testBit_eq
  intro i
  simp only [Nat.testBit_and, Nat.testBit_mul_two_pow, Nat.testBit_two_pow_sub_one,
    Nat.testBit_mod_two_pow, Nat.testBit_div_two_pow]
  by_cases h : k ≤ i
  · simp [h, Bool.and_comm]
  · simp [h]

/-- A mask of the `w` bits from `k` on and of the low `l` bits keeps those two fields. -/
theorem toNat_and_fields (c : Word) {m : Word} (k w : Nat) {l : Nat} (hl : l ≤ k)
    (hm : m.toNat = 2 ^ k * (2 ^ w - 1) + (2 ^ l - 1)) :
    (c &&& m).toNat = 2 ^ k * (c.toNat / 2 ^ k % 2 ^ w) + c.toNat % 2 ^ l := by
  have hlow (x : Nat) (h : x < 2 ^ l) : x < 2 ^ k := h.trans_le (Nat.pow_le_pow_right two_pos hl)
  have hmask : 2 ^ l - 1 < 2 ^ l := Nat.sub_one_lt (Nat.two_pow_pos l).ne'
  rw [BitVec.toNat_and, hm, Nat.two_pow_add_eq_or_of_lt (hlow _ hmask), Nat.and_or_distrib_left,
    Nat.and_two_pow_sub_one_eq_mod, Nat.mul_comm, nat_and_field, Nat.mul_comm,
    Nat.two_pow_add_eq_or_of_lt (hlow _ (Nat.mod_lt _ (Nat.two_pow_pos l)))]

/-- Under such a mask a word is 0 exactly when both fields are. -/
theorem and_fields_eq_zero_iff (c : Word) {m : Word} (k w : Nat) {l : Nat} (hl : l ≤ k)
    (hm : m.toNat = 2 ^ k * (2 ^ w - 1) + (2 ^ l - 1)) :
    c &&& m = 0 ↔ c.toNat / 2 ^ k % 2 ^ w = 0 ∧ c.toNat % 2 ^ l = 0 := by
  rw [← BitVec.toNat_inj, toNat_and_fields c k w hl hm]
  simp

theorem initFieldsClear_iff_mask (c : Word) : initFieldsClear c = true ↔ c &&& 0x0FFFFFFF = 0 := by
  rw [initFieldsClear_iff, and_fields_eq_zero_iff c 28 0 (l := 28) le_rfl rfl]
  omega

theorem ringFieldsClear_iff_mask (c : Word) : ringFieldsClear c = true ↔ c &&& 0x0FFEFFFF = 0 := by
  rw [ringFieldsClear_iff, and_fields_eq_zero_iff c 17 11 (l := 16) (by decide) rfl]

theorem regFieldsClear_iff_mask (c : Word) : regFieldsClear c = true ↔ c &&& 0x08FFFFFF = 0 := by
  rw [regFieldsClear_iff, and_fields_eq_zero_iff c 27 1 (l := 24) (by decide) rfl, pow_one]

theorem fieldsWord_toNat {op reg sel : Nat} (hop : op < 16) (hreg : reg < 8) (hsel : sel < 2) :
    (fieldsWord op reg sel).toNat = op * 2 ^ 28 + reg * 2 ^ 24 + sel * 2 ^ 16 := by
  rw [fieldsWord, BitVec.toNat_ofNat, Nat.mod_eq_of_lt]
  omega

/-- A word of PUSH or POP by match and mask, and its bit SEL. -/
theorem eq_ringWord_iff_mask {c : Word} {n : Nat} (hn : n < 16) (sel : Sel) :
    c = fieldsWord n 0 sel.field ↔
      c &&& 0xFFFEFFFF = fieldsWord n 0 0 ∧ c.getLsbD 16 = decide (sel = .rx) := by
  have hbit : c.getLsbD 16 = decide (sel = .rx) ↔ c.toNat / 2 ^ 16 % 2 = sel.field := by
    rw [BitVec.getLsbD, Nat.testBit_eq_decide_div_mod_eq]
    cases sel <;> simp [Sel.field]
  have := sel.field_lt
  have := c.isLt
  rw [hbit, ← BitVec.toNat_inj, ← BitVec.toNat_inj, toNat_and_fields c 17 15 (l := 16) (by decide) rfl,
    fieldsWord_toNat hn (by decide) sel.field_lt, fieldsWord_toNat hn (by decide) (by decide)]
  omega

/-- A word of a register command by match and mask, and its field REG. -/
theorem eq_regWord_iff_mask {c : Word} {n : Nat} (hn : n < 16) (r : Reg) :
    c = fieldsWord n r.field 0 ↔
      c &&& 0xF8FFFFFF = fieldsWord n 0 0 ∧ c.toNat / 2 ^ 24 % 8 = r.field := by
  have := r.field_lt
  have := c.isLt
  rw [← BitVec.toNat_inj, ← BitVec.toNat_inj, toNat_and_fields c 27 5 (l := 24) (by decide) rfl,
    fieldsWord_toNat hn (Nat.lt_succ_of_lt r.field_lt) (by decide), fieldsWord_toNat hn (by decide) (by decide)]
  omega

/-- Words decode to a command that takes no other operand exactly when CMD is the command's word. -/
theorem decode_eq_ok_iff_eq_cmdWord {c o : Word} {i : Instr} (hi : i.taking o = i) :
    decode c o = .ok i ↔ c = cmdWord i := by
  simp [decode_eq_ok_iff, hi]

/-- Words decode to a command of a form whose operand OPND gives exactly when CMD is the word of the form. -/
theorem exists_decode_eq_ok_iff {α : Type} {c o : Word} {form : α → Instr} {v : α}
    (hv : ∀ u, (form u).taking o = form v) : (∃ u, decode c o = .ok (form u)) ↔ c = cmdWord (form v) := by
  constructor
  · rintro ⟨u, h⟩
    obtain ⟨rfl, -⟩ := decode_eq_ok_iff.1 h
    rw [← hv u, cmdWord_taking]
  · rintro rfl
    exact ⟨v, by rw [decode_cmdWord, hv]⟩

/-- A command for each legal word (30_encoding.md R80), with operand 0 where there is one. -/
def legalCommands : List Instr :=
  [.init, .push .tx 0, .push .rx 0, .pop .tx, .pop .rx] ++
    Reg.all.flatMap fun r => [.rread r, .rwrite r 0, .ror r 0, .randc r 0]

theorem Machine.regOperand_zero (r : Reg) : Machine.regOperand r 0 = 0 := by cases r <;> rfl

theorem taking_zero_mem_legalCommands (i : Instr) : i.taking 0 ∈ legalCommands := by
  have ofReg (r : Reg) : ∀ j ∈ [Instr.rread r, .rwrite r 0, .ror r 0, .randc r 0], j ∈ legalCommands :=
    fun j hj => List.mem_append_right _ (List.mem_flatMap.2 ⟨r, r.mem_all, hj⟩)
  cases i with
  | init => decide
  | push sel b =>
    rw [Instr.taking, show Machine.byteOperand 0 = 0 from rfl]
    cases sel <;> decide
  | pop sel => cases sel <;> decide
  | rread r => exact ofReg r _ (by simp [Instr.taking])
  | rwrite r v => exact ofReg r _ (by rw [Instr.taking, Machine.regOperand_zero]; simp)
  | ror r m => exact ofReg r _ (by rw [Instr.taking, Machine.regOperand_zero]; simp)
  | randc r m => exact ofReg r _ (by rw [Instr.taking, Machine.regOperand_zero]; simp)

/-- A word is one of theirs exactly when it decodes, whatever OPND holds. -/
theorem mem_legalWords_iff (c o : Word) :
    c ∈ legalCommands.map cmdWord ↔ ∃ i, decode c o = .ok i := by
  constructor
  · intro h
    obtain ⟨i, -, rfl⟩ := List.mem_map.1 h
    exact ⟨_, decode_cmdWord i o⟩
  · rintro ⟨i, hd⟩
    obtain ⟨rfl, -⟩ := decode_eq_ok_iff.1 hd
    exact List.mem_map.2 ⟨_, taking_zero_mem_legalCommands i, cmdWord_taking i 0⟩

end Sys2Proof

open Sys2Proof Sys2Proof.Machine

/-- Settles O4: each row is the command's own word, whose fields the mask and the letter fix. -/
theorem legalWordsAreTheOpcodeMap : Obligations.LegalWordsAreTheOpcodeMap := by
  refine ⟨fun c o => ?_, fun c o sel => ?_, fun c o sel => ?_, fun c o r => ?_, fun c o r => ?_,
    fun c o r => ?_, fun c o r => ?_, fun r => r.field_lt.ne,
    ⟨legalCommands.map cmdWord, by decide, by decide, mem_legalWords_iff⟩⟩
  · rw [show (0xFFFFFFFF : Word) = BitVec.allOnes 32 from rfl, BitVec.and_allOnes]
    exact decode_eq_ok_iff_eq_cmdWord rfl
  · exact Iff.trans (exists_decode_eq_ok_iff fun _ => rfl) (eq_ringWord_iff_mask (n := 2) (by decide) sel)
  · exact (decode_eq_ok_iff_eq_cmdWord rfl).trans (eq_ringWord_iff_mask (n := 3) (by decide) sel)
  · exact (decode_eq_ok_iff_eq_cmdWord rfl).trans (eq_regWord_iff_mask (n := 4) (by decide) r)
  · exact Iff.trans (exists_decode_eq_ok_iff fun _ => rfl) (eq_regWord_iff_mask (n := 5) (by decide) r)
  · exact Iff.trans (exists_decode_eq_ok_iff fun _ => rfl) (eq_regWord_iff_mask (n := 6) (by decide) r)
  · exact Iff.trans (exists_decode_eq_ok_iff fun _ => rfl) (eq_regWord_iff_mask (n := 7) (by decide) r)
end

section
/-! Words that are no command, and commands that fault (60_exceptions.md R251, R253). -/

namespace Sys2Proof

theorem cmdOp_illegal_iff (c : Word) :
    (cmdOp c = 0 ∨ 8 ≤ cmdOp c) ↔ c.toNat / 2 ^ 28 = 0 ∨ 8 ≤ c.toNat / 2 ^ 28 := by
  rw [cmdOp_eq_iff, BitVec.le_def, cmdOp_toNat]
  rfl

theorem cmdOp_register_iff (c : Word) :
    (4 ≤ cmdOp c ∧ cmdOp c < 8) ↔ 4 ≤ c.toNat / 2 ^ 28 ∧ c.toNat / 2 ^ 28 ≤ 7 := by
  rw [BitVec.le_def, BitVec.lt_def, cmdOp_toNat, ← Nat.lt_succ_iff (n := 7)]
  rfl

theorem decode_reservedField_of_init {c : Word} (hop : c.toNat / 2 ^ 28 = 1) (hm : c &&& 0x0FFFFFFF ≠ 0)
    (o : Word) : decode c o = .error .reservedField := by
  rw [decode_of_init_op (cmdOp_eq_iff.2 hop), if_neg (mt (initFieldsClear_iff_mask c).1 hm)]

theorem decode_reservedField_of_ring {c : Word} (hop : c.toNat / 2 ^ 28 = 2 ∨ c.toNat / 2 ^ 28 = 3)
    (hm : c &&& 0x0FFEFFFF ≠ 0) (o : Word) : decode c o = .error .reservedField := by
  have hclear := mt (ringFieldsClear_iff_mask c).1 hm
  rcases hop with hop | hop
  · rw [decode_of_push_op (cmdOp_eq_iff.2 hop), if_neg hclear]
  · rw [decode_of_pop_op (cmdOp_eq_iff.2 hop), if_neg hclear]

theorem decode_reservedField_of_register {c : Word} (hop : 4 ≤ c.toNat / 2 ^ 28 ∧ c.toNat / 2 ^ 28 ≤ 7)
    (hm : c &&& 0x08FFFFFF ≠ 0) (o : Word) : decode c o = .error .reservedField := by
  rw [decode_of_reg_op ((cmdOp_register_iff c).2 hop), if_neg (mt (regFieldsClear_iff_mask c).1 hm)]

theorem decode_illegalReg {c : Word} (hop : 4 ≤ c.toNat / 2 ^ 28 ∧ c.toNat / 2 ^ 28 ≤ 7)
    (hm : c &&& 0x08FFFFFF = 0) (hr : c.toNat / 2 ^ 24 % 8 = 7) (o : Word) :
    decode c o = .error .illegalReg := by
  rw [decode_of_reg_op ((cmdOp_register_iff c).2 hop), if_pos ((regFieldsClear_iff_mask c).2 hm),
    (Reg.ofField_cmdReg_eq_none_iff c).2 hr]
  rfl

end Sys2Proof

namespace Sys2Proof.Machine

/-- What a command's fault leaves, in the spec's own terms. -/
theorem commandFault_eq_afterFault (cause : FaultCause) (w : Word) (s : State) :
    commandFault cause w s = afterFault cause cause.code w s := by
  simp [commandFault, answerError, respond, raiseFault, afterFault, State.emit]

/-- Outside FAULTED an illegal word is recorded and faults with its own cause. -/
theorem acceptCommand_illegal {c o : Word} {why : Illegal} {s : State} (hd : decode c o = .error why)
    (hl : s.life ≠ .faulted) : acceptCommand c o s =
      .next (afterFault (causeOf why) (causeOf why).code c { s with ev := s.ev ++ [.cmd c o] }) := by
  simp [acceptCommand, hd, onIllegal, hl, commandFault_eq_afterFault, State.emit]

/-- In FAULTED every command only answers ERR = 1. -/
theorem exec_faulted {s : State} (h : s.life = .faulted) (i : Instr) : exec i s = .next (answerError s) := by
  unfold exec
  split <;> exact onCommand_faulted h

/-- In FAULTED every pair of words, legal or not, is recorded and answered ERR = 1. -/
theorem acceptCommand_faulted {s : State} (h : s.life = .faulted) (c o : Word) :
    acceptCommand c o s = .next (answerError (s.emit (.cmd c o))) := by
  cases hd : decode c o with
  | error why => simp [acceptCommand, hd, onIllegal, h]
  | ok i => rw [acceptCommand_legal hd, exec_faulted (by simpa using h)]

/-- A performed command does not enter FAULTED. -/
theorem Performed.life_ne_faulted {i : Instr} {s t : State} (h : Performed i s t) (hl : s.life ≠ .faulted) :
    t.life ≠ .faulted := by
  by_cases hi : i = .init
  · subst hi
    obtain ⟨hready, -⟩ := h.init_cursors .tx
    simp [hready]
  · rwa [h.life hi]

/-- A pair of words that leads into FAULTED took a command fault with its own CMD. -/
theorem acceptCommand_enters_faulted {c o : Word} {s t : State} (h : acceptCommand c o s = .next t)
    (hl : s.life ≠ .faulted) (ht : t.life = .faulted) :
    ∃ cause, t = commandFault cause c (s.emit (.cmd c o)) := by
  rcases acceptCommand_next h with
    ⟨hf, -⟩ | ⟨-, why, -, rfl⟩ | ⟨-, i, cause, hd, -, rfl⟩ | ⟨-, i, -, -, hp⟩
  · exact absurd hf hl
  · exact ⟨_, rfl⟩
  · obtain ⟨rfl, -⟩ := decode_eq_ok_iff.1 hd
    exact ⟨cause, rfl⟩
  · exact absurd ht (hp.life_ne_faulted hl)

end Sys2Proof.Machine

open Sys2Proof Sys2Proof.Machine

/-- Settles O5: decoding finds the kind of the word, and the port takes the fault of that kind. -/
theorem illegalWordsFaultByCause : Obligations.IllegalWordsFaultByCause := by
  intro c o s hl
  refine ⟨fun hop => ?_, ?_, ?_⟩
  · exact acceptCommand_illegal (decode_of_illegal_op ((cmdOp_illegal_iff c).2 hop) o) hl
  · rintro (⟨hop, hm⟩ | ⟨hop, hm⟩ | ⟨hop, hm⟩)
    · exact acceptCommand_illegal (decode_reservedField_of_init hop hm o) hl
    · exact acceptCommand_illegal (decode_reservedField_of_ring hop hm o) hl
    · exact acceptCommand_illegal (decode_reservedField_of_register hop hm o) hl
  · rintro ⟨hop, hm, hr⟩
    exact acceptCommand_illegal (decode_illegalReg hop hm hr o) hl

/-- Settles O36: in FAULTED the port answers ERR = 1, and FAULTED is entered only by a command fault. -/
theorem faultingCommandKeepsResult : Obligations.FaultingCommandKeepsResult := by
  refine fun c o s => ⟨fun hl => ?_, fun t h hl ht => ?_⟩
  · rw [acceptCommand_faulted hl]
    simp [answerError, respond, State.emit]
  · obtain ⟨cause, rfl⟩ := acceptCommand_enters_faulted h hl ht
    exact ⟨rfl, rfl, cause, by simp⟩
end

section
/-! What the sequencer leaves alone. -/

namespace Sys2Proof.Machine

@[simp] theorem isrReturn_result (s : State) : (isrReturn s).result = s.result := rfl
@[simp] theorem isrReturn_err (s : State) : (isrReturn s).err = s.err := rfl
@[simp] theorem isrReturn_devCtrl (s : State) : (isrReturn s).devCtrl = s.devCtrl := rfl
@[simp] theorem isrReturn_cmds (s : State) : (isrReturn s).cmds = s.cmds := rfl
@[simp] theorem isrReturn_moves (s : State) : (isrReturn s).moves = s.moves := rfl
@[simp] theorem isrReturn_later (s : State) : (isrReturn s).later = s.later := rfl
@[simp] theorem isrReturn_moveCount (s : State) : (isrReturn s).moveCount = s.moveCount := rfl

/-- What no step of the sequencer writes: the response, LIFE, the fault registers and whatever belongs to the APP,
the environment and the configuration (30_encoding.md R90, 60_exceptions.md R259, R260). -/
structure IsrKept (s t : State) : Prop where
  result : t.result = s.result
  err : t.err = s.err
  life : t.life = s.life
  faultCause : t.faultCause = s.faultCause
  faultInfo : t.faultInfo = s.faultInfo
  boundAddr : t.boundAddr = s.boundAddr
  devCtrl : t.devCtrl = s.devCtrl
  split : t.split = s.split
  cfg : t.cfg = s.cfg
  cmds : t.cmds = s.cmds
  moves : t.moves = s.moves
  later : t.later = s.later
  moveCount : t.moveCount = s.moveCount
  responses : responses t.ev = responses s.ev

theorem IsrStepped.kept {s t : State} (h : IsrStepped s t) : IsrKept s t := by
  cases h <;> constructor <;>
    simp [busRead_ev, busWrite_ev, busWrite_devCtrl, responses_append, responses]

/-- Only DRAIN_MOVE changes `ring[TX]`, by a POP. -/
theorem IsrStepped.tx {s t : State} (h : IsrStepped s t) :
    t.tx = s.tx ∨ s.isrPc = .drainMove ∧ t.tx = s.tx.popped s.cfg.capacity := by
  cases h with
  | drainMove hpc => exact .inr ⟨hpc, by simp⟩
  | _ => exact .inl (by simp)

/-- Only FILL_MOVE changes `ring[RX]`, by a PUSH. -/
theorem IsrStepped.rx {s t : State} (h : IsrStepped s t) :
    t.rx = s.rx ∨ s.isrPc = .fillMove ∧ ∃ b, t.rx = s.rx.pushed s.cfg.capacity b := by
  cases h with
  | fillMove hpc => exact .inr ⟨hpc, _, rfl⟩
  | _ => exact .inl (by simp)

/-- A POP clears the slot at the read cursor alone and leaves the write cursor. -/
theorem Ring.popped_frame (r : Ring) (cap : Nat) :
    (r.popped cap).wc = r.wc ∧ ∀ a, a ≠ r.rc → (r.popped cap).store.read a = r.store.read a :=
  ⟨rfl, fun _ ha => r.store.read_write_other 0 ha⟩

/-- A PUSH writes the slot at the write cursor alone and leaves the read cursor. -/
theorem Ring.pushed_frame (r : Ring) (cap : Nat) (b : Byte) :
    (r.pushed cap b).rc = r.rc ∧ ∀ a, a ≠ r.wc → (r.pushed cap b).store.read a = r.store.read a :=
  ⟨rfl, fun _ ha => r.store.read_write_other b ha⟩

theorem IsrStepped.tx_frame {s t : State} (h : IsrStepped s t) :
    t.tx.wc = s.tx.wc ∧ ∀ a, a ≠ s.tx.rc → t.tx.store.read a = s.tx.store.read a := by
  rcases h.tx with he | ⟨-, he⟩ <;> rw [he]
  · exact ⟨rfl, fun _ _ => rfl⟩
  · exact s.tx.popped_frame _

theorem IsrStepped.rx_frame {s t : State} (h : IsrStepped s t) :
    t.rx.rc = s.rx.rc ∧ ∀ a, a ≠ s.rx.wc → t.rx.store.read a = s.rx.store.read a := by
  rcases h.rx with he | ⟨-, b, he⟩ <;> rw [he]
  · exact ⟨rfl, fun _ _ => rfl⟩
  · exact s.rx.pushed_frame _ b

end Sys2Proof.Machine

open Sys2Proof Sys2Proof.Machine

/-- Settles O47: the registers a step of the sequencer keeps, and its one POP and one PUSH. -/
theorem isrFrame : Obligations.IsrFrame := by
  intro s t h
  have hs := isrStep_next h
  have k := hs.kept
  obtain ⟨hwc, htx⟩ := hs.tx_frame
  obtain ⟨hrc, hrx⟩ := hs.rx_frame
  exact ⟨k.result, k.err, k.life, k.faultCause, k.faultInfo, k.boundAddr, k.devCtrl, k.split, k.cfg, k.cmds,
    k.moves, k.later, k.moveCount, hwc, hrc, htx, hrx,
    fun hpc => hs.tx.resolve_right fun hd => hpc hd.1,
    fun hpc => hs.rx.resolve_right fun hf => hpc hf.1, k.responses⟩
end

section
/-! The assembler: every command of an accepted line is well formed (30_encoding.md R87, R89). -/

namespace Sys2Proof.Machine

/-- Every command of the list is well formed. -/
def AllWellFormed (is : List Instr) : Prop := ∀ i ∈ is, i.wellFormed = true

theorem allWellFormed_nil : AllWellFormed [] := nofun

theorem allWellFormed_singleton {i : Instr} : AllWellFormed [i] ↔ i.wellFormed = true := by
  simp [AllWellFormed]

theorem fits_zext32 (r : Reg) (b : Byte) : r.fits (zext32 b) = true := by
  have hz : (zext32 b).toNat = b.toNat := BitVec.toNat_setWidth_of_le (by decide)
  have hw : 8 ≤ r.width := by cases r <;> decide
  rw [r.fits_iff, hz]
  exact b.isLt.trans_le (Nat.pow_le_pow_right two_pos hw)

theorem wellFormed_armTx (c : Config) : AllWellFormed (armTx c) := by
  have hctrl : Reg.uartCtrl.fits c.fifoEmpty = true := decide_eq_true c.fifoEmpty.isLt
  simp [AllWellFormed, armTx, Instr.wellFormed, hctrl, fits_zext32]

theorem wellFormed_expand (c : Config) (p : Pseudo) : AllWellFormed (expand c p) := by
  cases p with
  | send bs =>
    intro i hi
    rcases List.mem_append.1 hi with hi | hi
    · obtain ⟨b, -, rfl⟩ := List.mem_map.1 hi
      rfl
    · exact wellFormed_armTx c i hi
  | armTx => exact wellFormed_armTx c
  | read sel => simp [AllWellFormed, expand, Instr.wellFormed]
  | disarmTx => simp [AllWellFormed, expand, Instr.wellFormed, fits_zext32]

/-- The value of an accepted operand fits its register. -/
theorem fits_of_valueArg {c : Config} {r : Reg} {t : Token} {v : Word} (h : valueArg c r t = some v) :
    r.fits v = true := by
  unfold valueArg at h
  split at h
  · split at h
    · cases h
      rw [Reg.fits, decide_eq_true_eq, BitVec.toNat_ofNat]
      exact (Nat.mod_le _ _).trans_lt ‹_›
    · cases h
  · cases h

/-- A result computed from one operand is that of some value of it. -/
theorem exists_of_do_return {α β : Type} {x : Option α} {f : α → β} {b : β}
    (h : (do return f (← x)) = some b) : ∃ a, f a = b := by
  cases x with
  | none => cases h
  | some a => exact ⟨a, Option.some.inj h⟩

theorem wellFormed_regValueLine {c : Config} {mk : Reg → Word → Instr} {ts : List Token} {is : List Instr}
    (hmk : ∀ r v, r.fits v = true → (mk r v).wellFormed = true) (h : regValueLine c mk ts = some is) :
    AllWellFormed is := by
  unfold regValueLine at h
  split at h
  · simp only [Option.bind_eq_bind, Option.bind_eq_some_iff, Option.pure_def, Option.some.injEq] at h
    obtain ⟨r, -, v, hv, rfl⟩ := h
    simpa [AllWellFormed] using hmk r v (fits_of_valueArg hv)
  · cases h

theorem wellFormed_sendLine {c : Config} {ts : List Token} {is : List Instr} (h : sendLine c ts = some is) :
    AllWellFormed is := by
  unfold sendLine at h
  split at h
  · cases h
    exact wellFormed_expand c _
  · obtain ⟨bs, -, rfl⟩ := Option.map_eq_some_iff.1 h
    exact wellFormed_expand c _
  · obtain ⟨bs, -, rfl⟩ := Option.map_eq_some_iff.1 h
    exact wellFormed_expand c _

/-- Every line that is not refused, mnemonic by mnemonic (30_encoding.md R86, R89). -/
theorem wellFormed_lineCommands {c : Config} {ts : List Token} {is : List Instr}
    (h : lineCommands c ts = some is) : AllWellFormed is := by
  unfold lineCommands at h
  split at h
  case h_1 => -- a blank line
    cases h
    exact allWellFormed_nil
  case h_2 => -- INIT
    cases h
    exact allWellFormed_singleton.2 rfl
  case h_3 => -- PUSH
    simp only [Option.bind_eq_bind, Option.bind_eq_some_iff, Option.pure_def, Option.some.injEq] at h
    obtain ⟨sel, -, b, -, rfl⟩ := h
    exact allWellFormed_singleton.2 rfl
  case h_4 | h_5 => -- POP, RREAD
    obtain ⟨x, rfl⟩ := exists_of_do_return h
    exact allWellFormed_singleton.2 rfl
  case h_6 | h_7 | h_8 => -- RWRITE, ROR, RANDC
    refine wellFormed_regValueLine ?_ h
    exact fun _ _ hv => hv
  case h_9 => exact wellFormed_sendLine h
  case h_10 | h_12 => -- ARM_TX, DISARM_TX
    cases h
    exact wellFormed_expand c _
  case h_11 => -- READ
    obtain ⟨sel, rfl⟩ := exists_of_do_return h
    exact wellFormed_expand c _
  case h_13 => cases h

end Sys2Proof.Machine

open Sys2Proof Sys2Proof.Machine

/-- Settles O53: an accepted line gives well-formed commands, and those are decoded back. -/
theorem assembledLinesDecodeToTheirCommands : Obligations.AssembledLinesDecodeToTheirCommands := by
  intro c line is h i hi
  unfold assembleLine at h
  split at h
  · have hw := wellFormed_lineCommands h i hi
    exact ⟨hw, encodedCommandDecodesToItself i hw⟩
  · cases h
end

section
/-! The locked read-modify-writes of ARM_TX and DISARM_TX. -/

namespace Sys2Proof.Machine

/-- In READY a ROR is its locked read-modify-write and an answer (41_register_interface.md R136). -/
theorem exec_ror_ready {s : State} (h : s.life = .ready) (r : Reg) (m : Word) : exec (.ror r m) s =
    .next (answer 0 (busWrite .app r (deviceAnswer s r ||| truncTo r m) (busRead .app r s).2)) := by
  have hc : commandCheck (.ror r m) s = none := commandCheck_ready h nofun fun _ => rfl
  simp only [exec, execRor, onCommand_perform (by simp [h]) hc, busOr, busRead_fst]

/-- In READY a RANDC is its locked read-modify-write and an answer (41_register_interface.md R140). -/
theorem exec_randc_ready {s : State} (h : s.life = .ready) (r : Reg) (m : Word) : exec (.randc r m) s =
    .next (answer 0 (busWrite .app r (deviceAnswer s r &&& ~~~truncTo r m) (busRead .app r s).2)) := by
  have hc : commandCheck (.randc r m) s = none := commandCheck_ready h nofun fun _ => rfl
  simp only [exec, execRandc, onCommand_perform (by simp [h]) hc, busAndClr, busRead_fst]

/-- A read and then a write of UART_CTRL, answered. -/
theorem answer_rewrite_uartCtrl (v : Word) (s : State) :
    answer 0 (busWrite .app .uartCtrl v (busRead .app .uartCtrl s).2) = { s with
      devCtrl := v
      result := 0
      err := false
      ev := s.ev ++ [.rd .app .uartCtrl (s.boundAddr.get .uartCtrl) 32 s.devCtrl,
        .wr .app .uartCtrl (s.boundAddr.get .uartCtrl) 32 v, .resp false 0] } := by
  simp [answer, respond, busRead, busWrite, State.deviceRead, State.deviceWrite, truncTo, Reg.width, State.emit]

theorem truncTo_zext32 (r : Reg) (b : Byte) : truncTo r (zext32 b) = zext32 b :=
  truncTo_of_fits (fits_zext32 r b)

/-- A read and then a write of INT_MASK, answered. -/
theorem answer_rewrite_intMask (b : Byte) (s : State) :
    answer 0 (busWrite .app .intMask (zext32 b) (busRead .app .intMask s).2) = { s with
      devImask := b
      result := 0
      err := false
      ev := s.ev ++ [.rd .app .intMask (s.boundAddr.get .intMask) 8 (zext32 s.devImask),
        .wr .app .intMask (s.boundAddr.get .intMask) 8 (zext32 b), .resp false 0] } := by
  simp [answer, respond, busRead, busWrite, State.deviceRead, State.deviceWrite, truncTo_zext32, lowByte_zext32,
    Reg.width, State.emit]

theorem zext32_or (a b : Byte) : zext32 a ||| zext32 b = zext32 (a ||| b) := BitVec.setWidth_or.symm

theorem zext32_and_not (a b : Byte) : zext32 a &&& ~~~zext32 b = zext32 (a &&& ~~~b) := by
  apply BitVec.eq_of_getLsbD_eq
  intro i hi
  by_cases h : i < 8
  · simp [zext32, h, hi]
  · simp [zext32, hi, a.getLsbD_of_ge i (Nat.le_of_not_lt h)]

/-- ROR on UART_CTRL sets the bits of its operand. -/
theorem exec_ror_uartCtrl {s : State} (h : s.life = .ready) (m : Word) : exec (.ror .uartCtrl m) s =
    .next { s with
      devCtrl := s.devCtrl ||| m
      result := 0
      err := false
      ev := s.ev ++ [.rd .app .uartCtrl (s.boundAddr.get .uartCtrl) 32 s.devCtrl,
        .wr .app .uartCtrl (s.boundAddr.get .uartCtrl) 32 (s.devCtrl ||| m), .resp false 0] } := by
  rw [exec_ror_ready h, answer_rewrite_uartCtrl]
  rfl

/-- ROR on INT_MASK sets the bits of its byte operand. -/
theorem exec_ror_intMask {s : State} (h : s.life = .ready) (b : Byte) : exec (.ror .intMask (zext32 b)) s =
    .next { s with
      devImask := s.devImask ||| b
      result := 0
      err := false
      ev := s.ev ++ [.rd .app .intMask (s.boundAddr.get .intMask) 8 (zext32 s.devImask),
        .wr .app .intMask (s.boundAddr.get .intMask) 8 (zext32 (s.devImask ||| b)), .resp false 0] } := by
  rw [exec_ror_ready h, truncTo_zext32, deviceAnswer, zext32_or, answer_rewrite_intMask]

/-- RANDC on INT_MASK clears the bits of its byte operand. -/
theorem exec_randc_intMask {s : State} (h : s.life = .ready) (b : Byte) : exec (.randc .intMask (zext32 b)) s =
    .next { s with
      devImask := s.devImask &&& ~~~b
      result := 0
      err := false
      ev := s.ev ++ [.rd .app .intMask (s.boundAddr.get .intMask) 8 (zext32 s.devImask),
        .wr .app .intMask (s.boundAddr.get .intMask) 8 (zext32 (s.devImask &&& ~~~b)), .resp false 0] } := by
  rw [exec_randc_ready h, truncTo_zext32, deviceAnswer, zext32_and_not, answer_rewrite_intMask]

end Sys2Proof.Machine

open Sys2Proof Sys2Proof.Machine

/-- Settles O50: ARM_TX is its ROR on UART_CTRL and then its ROR on INT_MASK, DISARM_TX its RANDC on INT_MASK. -/
theorem armAndDisarmTouchTheirBitsAlone : Obligations.ArmAndDisarmTouchTheirBitsAlone := by
  refine fun s hl => ⟨?_, ?_⟩
  · simp [expand, armTx, execAll, exec_ror_uartCtrl, exec_ror_intMask, hl]
  · simp [expand, execAll, exec_randc_intMask, hl]
end

section
/-! Words written out from the tables (30_encoding.md R77, R80, R89). -/

/-- Settles O1, by evaluation of the decoder on each word. -/
theorem specWordsDecode : Obligations.SpecWordsDecode := by
  unfold Obligations.SpecWordsDecode
  decide

/-- Settles O52, by evaluation of each expansion. -/
theorem pseudoInstructionsExpandToTheirWords : Obligations.PseudoInstructionsExpandToTheirWords := by
  unfold Obligations.PseudoInstructionsExpandToTheirWords
  decide
end

section
/-! The unread bytes of a buffer: what PUSH and POP, the buffer's only operations in READY, do to them
(40_circular_buffer.md R100). -/

namespace Sys2Proof.Machine

/-- The buffer is as it was, or a PUSH or a POP has been done on it. -/
inductive Ring.Operated (cap : Nat) (r : Ring) : Ring → Prop where
  | kept : Ring.Operated cap r r
  | pushed (b : Byte) : Ring.Operated cap r (r.pushed cap b)
  | popped : Ring.Operated cap r (r.popped cap)

theorem Ring.Operated.of_eq {cap : Nat} {r q : Ring} (h : q = r) : r.Operated cap q := h ▸ .kept

/-- Operating on one buffer leaves the other. -/
theorem Ring.Operated.setRing {cap : Nat} {s : State} {sel : Sel} {q : Ring} (h : (s.ring sel).Operated cap q)
    (sel' : Sel) : (s.ring sel').Operated cap ((s.setRing sel q).ring sel') := by
  by_cases he : sel' = sel
  · subst he
    rwa [State.ring_setRing_same]
  · exact .of_eq (State.ring_setRing_other s q he)

/-- The sequencer operates on the buffers only by the POP of DRAIN_MOVE and the PUSH of FILL_MOVE. -/
theorem IsrStepped.operated {s t : State} (h : IsrStepped s t) (sel : Sel) :
    (s.ring sel).Operated s.cfg.capacity (t.ring sel) := by
  cases sel with
  | tx =>
    rcases h.tx with he | ⟨-, he⟩
    · exact .of_eq he
    · exact (State.ring_tx t).trans he ▸ .popped
  | rx =>
    rcases h.rx with he | ⟨-, b, he⟩
    · exact .of_eq he
    · exact (State.ring_rx t).trans he ▸ .pushed b

/-- With indivisible ring operations a command but INIT operates on the buffers only by PUSH and POP. -/
theorem Performed.operated {i : Instr} {s t : State} (h : Performed i s t) (hi : i ≠ .init)
    (ha : s.cfg.atomicRingOps = true) (sel : Sel) : (s.ring sel).Operated s.cfg.capacity (t.ring sel) := by
  cases h with
  | init => exact absurd rfl hi
  | push _ sel' b => simpa using (Ring.Operated.pushed b).setRing sel
  | pop _ sel' => simpa using Ring.Operated.popped.setRing (sel := sel') sel
  | pushSplit _ sel' b hn => simp [ha] at hn
  | popSplit _ sel' hn => simp [ha] at hn
  | rread _ r => exact .of_eq (by simp)
  | rwrite _ r v => exact .of_eq (by simp)
  | ror _ r m => exact .of_eq (by simp)
  | randc _ r m => exact .of_eq (by simp)

/-- In READY, with indivisible ring operations, the command port operates on the buffers only by PUSH and
POP. -/
theorem acceptCommand_operated {c o : Word} {s t : State} (h : acceptCommand c o s = .next t)
    (hl : s.life = .ready) (ha : s.cfg.atomicRingOps = true) (sel : Sel) :
    (s.ring sel).Operated s.cfg.capacity (t.ring sel) := by
  rcases acceptCommand_next h with
    ⟨-, rfl⟩ | ⟨-, why, -, rfl⟩ | ⟨-, i, cause, -, -, rfl⟩ | ⟨hf, i, -, hc, hp⟩
  · exact .of_eq (by simp)
  · exact .of_eq (by simp)
  · exact .of_eq (by simp)
  · rcases commandCheck_none hf hc with ⟨hu, -⟩ | ⟨-, hi⟩
    · simp [hl] at hu
    · simpa using hp.operated hi ha sel

/-- In READY, with indivisible ring operations, a step that is no reset does at most one PUSH or POP on a
buffer. -/
theorem step_operated {s t : State} (hi : StateInv s) (ha : s.cfg.atomicRingOps = true)
    (hl : s.life = .ready) (hm : s.nextMove.1 ≠ .reset) (h : step s = .next t) (sel : Sel) :
    (s.ring sel).Operated s.cfg.capacity (t.ring sel) := by
  obtain ⟨-, ⟨hr, -⟩ | ⟨-, rfl⟩ | ⟨-, -, hs⟩ | ⟨-, -, p, hp, -⟩ | ⟨-, -, -, -, rfl⟩ |
    ⟨-, -, -, c, o, rest, -, hc⟩⟩ := step_next h
  · exact absurd hr hm
  · exact .of_eq (by simp)
  · simpa using (isrStep_next hs).operated sel
  · simp [hi.split_none ha] at hp
  · exact .of_eq (by simp)
  · have hring : ({ s.nextMove.2 with cmds := rest } : State).ring sel = s.ring sel :=
      State.ring_congr (nextMove_tx s) (nextMove_rx s) sel
    have ho := acceptCommand_operated hc (by simpa using hl) (by simpa using ha) sel
    rw [hring] at ho
    simpa using ho

/-- A PUSH or a POP changes the unread bytes at the ends alone, unless a PUSH at occupancy C - 1 overruns
(40_circular_buffer.md R103). -/
theorem Ring.Operated.contents {cap : Nat} {r q : Ring} (h : r.Operated cap q) (hr : RingOk cap r) :
    q.contents cap = r.contents cap ∨
    (∃ b, q.contents cap = r.contents cap ++ [b]) ∨
    (∃ b, r.contents cap = b :: q.contents cap) ∨
    (r.occ cap + 1 = cap ∧ q.contents cap = []) := by
  cases h with
  | kept => exact .inl rfl
  | pushed b =>
    rw [hr.contents_pushed b]
    split
    · exact .inr (.inr (.inr ⟨‹_›, rfl⟩))
    · exact .inr (.inl ⟨b, rfl⟩)
  | popped =>
    by_cases he : r.rc = r.wc
    · have hq : (r.popped cap).rc = (r.popped cap).wc := by simp [Ring.popped, he]
      exact .inl (by rw [hr.contents_empty he, hr.popped.contents_empty hq])
    · exact .inr (.inr (.inl ⟨_, hr.contents_popped he⟩))

end Sys2Proof.Machine

open Sys2Proof Sys2Proof.Machine

/-- Settles O60: a step does at most one PUSH or POP on a buffer. -/
theorem unreadBytesChangeOnlyAtTheEnds : Obligations.UnreadBytesChangeOnlyAtTheEnds :=
  fun _ _ sel hi ha hl hm h => (step_operated hi ha hl hm h sel).contents (hi.ring sel)
end

section
/-! PUSH and POP in one step, as equations. -/

namespace Sys2Proof.Machine

/-- An admitted PUSH in one step is the ring primitive and success (40_circular_buffer.md R102, R111). -/
theorem exec_push_whole {sel : Sel} {b : Byte} {s : State} (h : RingReady (.push sel b) s)
    (hc : (s.ring sel).wc < s.cfg.capacity) : exec (.push sel b) s =
      .next (answer 0 (s.setRing sel ((s.ring sel).pushed s.cfg.capacity b))) := by
  have hcheck : commandCheck (.push sel b) s = none := commandCheck_ready h.life nofun h.role
  simp [exec, execPush, onCommand_perform (by simp [h.life]) hcheck, h.atomic, pushAtomic, pushByte_eq b hc]

/-- An admitted POP in one step is the ring primitive and the byte with its found flag (40_circular_buffer.md
R104, R111). -/
theorem exec_pop_whole {sel : Sel} {s : State} (h : RingReady (.pop sel) s)
    (hc : (s.ring sel).rc < s.cfg.capacity) : exec (.pop sel) s =
      .next (answer (popResult (!(s.ring sel).empty) ((s.ring sel).store.read (s.ring sel).rc))
        (s.setRing sel ((s.ring sel).popped s.cfg.capacity))) := by
  have hcheck : commandCheck (.pop sel) s = none := commandCheck_ready h.life nofun h.role
  simp [exec, execPop, onCommand_perform (by simp [h.life]) hcheck, h.atomic, popAtomic, popByte_eq hc]

/-- The slot a PUSH writes. -/
theorem RingOk.read_pushed_wc {cap : Nat} {r : Ring} (h : RingOk cap r) (b : Byte) :
    (r.pushed cap b).store.read r.wc = b := Memory.read_write_same h.store r.wc b

/-- The slot a POP clears. -/
theorem RingOk.read_popped_rc {cap : Nat} {r : Ring} (h : RingOk cap r) :
    (r.popped cap).store.read r.rc = 0 := Memory.read_write_same h.store r.rc 0

theorem Ring.empty_iff (r : Ring) : r.empty = true ↔ r.rc = r.wc := beq_iff_eq

/-- The found flag of a POP's response. -/
@[simp] theorem foundFlag_popResult (found : Bool) (v : Byte) : foundFlag (popResult found v) = found := by
  simp only [foundFlag, popResult, BitVec.getLsbD_setWidth, BitVec.getLsbD_append]
  cases found <;> rfl

end Sys2Proof.Machine

open Sys2Proof Sys2Proof.Machine

/-- Settles O17: the fields of the state that the ring primitive and the answer leave. -/
theorem pushStoresAndAdvances : Obligations.PushStoresAndAdvances := by
  intro s sel b hi hr
  have hring := hi.ring sel
  exact ⟨_, exec_push_whole hr hring.wc, by simpa using hring.read_pushed_wc b, by simp [Ring.pushed],
    by simp [Ring.pushed], rfl, rfl, by simp, by simp⟩

/-- Settles O19: the occupancy and the unread bytes of a pushed buffer. -/
theorem pushRaisesOccupancyOrEmpties : Obligations.PushRaisesOccupancyOrEmpties := by
  intro s t sel b hi hr h
  have hring := hi.ring sel
  obtain rfl := Host.Outcome.next.inj ((exec_push_whole hr hring.wc).symm.trans h)
  simpa using ⟨hring.occ_pushed b, hring.contents_pushed b⟩

/-- Settles O20: the fields of the state that the ring primitive and the answer leave. -/
theorem popReturnsByteAndFound : Obligations.PopReturnsByteAndFound := by
  intro s sel hi hr
  refine ⟨_, exec_pop_whole hr (hi.ring sel).rc, ?_, ?_, rfl, by simp, by simp [Ring.popped], by simp⟩
  · simp [popResult_toNat, Ring.empty]
  · simp [Ring.empty, beq_eq_decide]
end

section
/-! PUSH and POP in steps, as equations (40_circular_buffer.md R112). -/

namespace Sys2Proof.Machine

/-- The state with the split command replaced. -/
def State.withSplit (s : State) (p : Option Split) : State := { s with split := p }

@[simp] theorem State.withSplit_ring (s : State) (p : Option Split) (sel : Sel) :
    (s.withSplit p).ring sel = s.ring sel := by cases sel <;> rfl
@[simp] theorem State.withSplit_split (s : State) (p : Option Split) : (s.withSplit p).split = p := rfl
@[simp] theorem State.withSplit_cfg (s : State) (p : Option Split) : (s.withSplit p).cfg = s.cfg := rfl
@[simp] theorem State.withSplit_result (s : State) (p : Option Split) : (s.withSplit p).result = s.result := rfl
@[simp] theorem State.withSplit_err (s : State) (p : Option Split) : (s.withSplit p).err = s.err := rfl
@[simp] theorem State.withSplit_ev (s : State) (p : Option Split) : (s.withSplit p).ev = s.ev := rfl

/-- P1 stores the byte at the write cursor. -/
theorem exec_push_split {sel : Sel} {b : Byte} {s : State} (h : SplitReady (.push sel b) s)
    (hc : (s.ring sel).wc < s.cfg.capacity) : exec (.push sel b) s =
      .next ((s.setRing sel { s.ring sel with store := (s.ring sel).store.write (s.ring sel).wc b }).withSplit
        (some (.p2 sel (s.ring sel).wc))) := by
  have hcheck : commandCheck (.push sel b) s = none := commandCheck_ready h.life nofun h.role
  simp [exec, execPush, onCommand_perform (by simp [h.life]) hcheck, h.split, pushP1, ringWrite_eq b hc,
    State.withSplit]

/-- Q1 takes the read cursor and the byte there. -/
theorem exec_pop_split {sel : Sel} {s : State} (h : SplitReady (.pop sel) s)
    (hc : (s.ring sel).rc < s.cfg.capacity) : exec (.pop sel) s =
      .next (s.withSplit (some (.q2 sel (s.ring sel).rc ((s.ring sel).store.read (s.ring sel).rc)))) := by
  have hcheck : commandCheck (.pop sel) s = none := commandCheck_ready h.life nofun h.role
  simp [exec, execPop, onCommand_perform (by simp [h.life]) hcheck, h.split, popQ1, ringRead_eq hc,
    State.withSplit]

/-- P2 advances the write cursor from where it stands. -/
theorem resume_p2 (sel : Sel) (i : Nat) (s : State) : resume (.p2 sel i) s =
    .next (answer 0 ((s.withSplit none).setRing sel
      { s.ring sel with wc := ((s.ring sel).wc + 1) % s.cfg.capacity })) := by
  cases sel <;> rfl

/-- Q2 compares the index Q1 took with the write cursor. -/
theorem resume_q2 (sel : Sel) (i : Nat) (v : Byte) (s : State) : resume (.q2 sel i v) s =
    .next (s.withSplit (some (.q3 sel i v (decide (i = (s.ring sel).wc))))) := by
  simp [resume, popQ2, State.withSplit, beq_eq_decide]

/-- Q3 clears the slot Q1 took. -/
theorem resume_q3 {i : Nat} {s : State} (h : i < s.cfg.capacity) (sel : Sel) (v : Byte) (e : Bool) :
    resume (.q3 sel i v e) s =
      .next ((s.setRing sel { s.ring sel with store := (s.ring sel).store.write i 0 }).withSplit
        (some (.q4 sel i v e))) := by
  simp only [resume, popQ3, ringWrite_eq _ h]
  rfl

/-- Q4 advances the read cursor past the index Q1 took, unless Q2 found the buffer empty. -/
theorem resume_q4 (sel : Sel) (i : Nat) (v : Byte) (e : Bool) (s : State) : resume (.q4 sel i v e) s =
    .next (answer (popResult (!e) v) ((s.withSplit none).setRing sel
      { s.ring sel with rc := if e then (s.ring sel).rc else (i + 1) % s.cfg.capacity })) := by
  cases e <;> cases sel <;> rfl

/-- DRAIN_MOVE pops `ring[TX]` (44_interrupt_handler.md R202). -/
theorem IsrStepped.tx_of_drainMove {s t : State} (h : IsrStepped s t) (hpc : s.isrPc = .drainMove) :
    t.tx = s.tx.popped s.cfg.capacity := by
  cases h with
  | drainMove => simp
  | _ => simp_all

end Sys2Proof.Machine

open Sys2Proof Sys2Proof.Machine

/-- Settles O21: whole, the slot and the cursor of a popped buffer; split, what each step sets; in DRAIN_MOVE,
the invariant gives a byte to move. -/
theorem popClearsSlotAndAdvancesIfFound : Obligations.PopClearsSlotAndAdvancesIfFound := by
  refine ⟨fun s t sel hi hr h => ?_, fun s sel i v => resume_q2 sel i v s, fun s t sel i v e hi hp h => ?_,
    fun s t sel i v e h => ?_, fun s t hi hpc h => ?_⟩
  · have hring := hi.ring sel
    obtain rfl := Host.Outcome.next.inj ((exec_pop_whole hr hring.rc).symm.trans h)
    exact ⟨by simpa using hring.read_popped_rc, by simp [Ring.popped]⟩
  · obtain ⟨-, -, hslot : i < s.cfg.capacity⟩ := hi.split _ hp
    obtain rfl := Host.Outcome.next.inj ((resume_q3 hslot sel v e).symm.trans h)
    simpa using Memory.read_write_same (hi.ring sel).store i 0
  · obtain rfl := Host.Outcome.next.inj ((resume_q4 sel i v e s).symm.trans h)
    simp
  · have htx := (isrStep_next h).tx_of_drainMove hpc
    have hne : s.tx.rc ≠ s.tx.wc := by simpa [State.txEmpty, Ring.empty] using hi.drainMove hpc
    exact ⟨hne, by rw [htx, hi.tx.read_popped_rc], by simp [htx, Ring.popped, hne]⟩
end

section
/-! The frame of PUSH and POP, whole and split, in every LIFE (40_circular_buffer.md R100). -/

namespace Sys2Proof.Machine

/-- A command but INIT answers ERR = 1 in FAULTED, takes a fault, which in UNINIT is NOT_INIT, or is performed
in READY (60_exceptions.md R251, R252). -/
theorem exec_next_of_ne_init {i : Instr} {s t : State} (hi : i ≠ .init) (h : exec i s = .next t) :
    (s.life = .faulted ∧ t = answerError s) ∨
    (s.life ≠ .faulted ∧ ∃ c, (s.life = .uninit → c = .notInit) ∧ t = commandFault c (cmdWord i) s) ∨
    (s.life = .ready ∧ Performed i s t) := by
  rcases exec_next h with hf | ⟨hl, c, hc, rfl⟩ | ⟨hl, hc, hp⟩
  · exact .inl hf
  · refine .inr (.inl ⟨hl, c, fun hu => ?_, rfl⟩)
    rw [commandCheck_uninit hu, if_neg hi] at hc
    exact (Option.some.inj hc).symm
  · rcases commandCheck_none hl hc with ⟨-, he⟩ | ⟨hready, -⟩
    · exact absurd he hi
    · exact .inr (.inr ⟨hready, hp⟩)

theorem otherSel_ne (sel : Sel) : otherSel sel ≠ sel := by cases sel <;> nofun

theorem RestKept.trans {sel : Sel} {s t u : State} (h : RestKept sel s t) (h' : RestKept sel t u) :
    RestKept sel s u where
  other := h'.other.trans h.other
  cfg := h'.cfg.trans h.cfg
  life := h'.life.trans h.life
  faultCause := h'.faultCause.trans h.faultCause
  faultInfo := h'.faultInfo.trans h.faultInfo
  boundAddr := h'.boundAddr.trans h.boundAddr
  isrPc := h'.isrPc.trans h.isrPc
  isrS := h'.isrS.trans h.isrS
  devCtrl := h'.devCtrl.trans h.devCtrl
  devImask := h'.devImask.trans h.devImask
  cmds := h'.cmds.trans h.cmds
  moves := h'.moves.trans h.moves
  later := h'.later.trans h.later
  moveCount := h'.moveCount.trans h.moveCount
  draws := h'.draws.trans h.draws
  drawCount := h'.drawCount.trans h.drawCount

theorem restKept_setRing (sel : Sel) (r : Ring) (s : State) : RestKept sel s (s.setRing sel r) := by
  constructor
  case other => exact State.ring_setRing_other s r (otherSel_ne sel)
  all_goals simp

theorem restKept_answer (sel : Sel) (v : Word) (s : State) : RestKept sel s (answer v s) := by
  constructor
  case other => exact answer_ring v s _
  all_goals rfl

theorem restKept_answerError (sel : Sel) (s : State) : RestKept sel s (answerError s) := by
  constructor
  case other => exact answerError_ring s _
  all_goals rfl

theorem restKept_withSplit (sel : Sel) (p : Option Split) (s : State) : RestKept sel s (s.withSplit p) := by
  constructor
  case other => exact s.withSplit_ring p _
  all_goals rfl

/-- Is the command a PUSH or a POP at buffer `sel`? -/
def OnRing (sel : Sel) (i : Instr) : Prop := (∃ b, i = .push sel b) ∨ i = .pop sel

theorem OnRing.ne_init {sel : Sel} {i : Instr} (hi : OnRing sel i) : i ≠ .init := by
  rcases hi with ⟨b, rfl⟩ | rfl <;> nofun

/-- A performed PUSH or POP, or its first step, leaves the rest of the machine. -/
theorem Performed.restKept {sel : Sel} {i : Instr} {s t : State} (h : Performed i s t) (hi : OnRing sel i) :
    RestKept sel s t := by
  rcases hi with ⟨b, rfl⟩ | rfl <;> cases h
  case push => exact (restKept_setRing ..).trans (restKept_answer ..)
  case pushSplit => exact (restKept_setRing ..).trans (restKept_withSplit ..)
  case pop => exact (restKept_setRing ..).trans (restKept_answer ..)
  case popSplit => exact restKept_withSplit ..

/-- What PUSH or POP `i` at buffer `sel` does outside that buffer, and that without effect the buffer and RESULT
are kept too (60_exceptions.md R251, R252). -/
structure RingCommandFrame (sel : Sel) (i : Instr) (s t : State) : Prop where
  other : t.ring (otherSel sel) = s.ring (otherSel sel)
  life : s.life ≠ .faulted ∧ t.life = .faulted ∨
    t.life = s.life ∧ t.faultCause = s.faultCause ∧ t.faultInfo = s.faultInfo
  uninit : s.life = .uninit → t.life = .faulted ∧ t.faultCause = 4 ∧ t.faultInfo = cmdWord i
  noEffect : t.life ≠ s.life ∨ s.life = .faulted → t.ring sel = s.ring sel ∧ t.result = s.result
  boundAddr : t.boundAddr = s.boundAddr
  devCtrl : t.devCtrl = s.devCtrl
  devImask : t.devImask = s.devImask
  isrPc : t.isrPc = s.isrPc
  isrS : t.isrS = s.isrS
  cfg : t.cfg = s.cfg
  cmds : t.cmds = s.cmds
  moves : t.moves = s.moves
  later : t.later = s.later
  moveCount : t.moveCount = s.moveCount
  draws : t.draws = s.draws
  drawCount : t.drawCount = s.drawCount

/-- Where LIFE and the fault registers stay, the frame asks for the rest of the machine alone. -/
theorem RestKept.ringCommandFrame {sel : Sel} {i : Instr} {s t : State} (h : RestKept sel s t)
    (hu : s.life ≠ .uninit)
    (hf : s.life = .faulted → t.ring sel = s.ring sel ∧ t.result = s.result) : RingCommandFrame sel i s t :=
  ⟨h.other, .inr ⟨h.life, h.faultCause, h.faultInfo⟩, fun hl => absurd hl hu,
    fun hl => hf (hl.resolve_left (absurd h.life)), h.boundAddr, h.devCtrl, h.devImask, h.isrPc, h.isrS, h.cfg,
    h.cmds, h.moves, h.later, h.moveCount, h.draws, h.drawCount⟩

theorem exec_ringCommandFrame {sel : Sel} {i : Instr} {s t : State} (hi : OnRing sel i)
    (h : exec i s = .next t) : RingCommandFrame sel i s t := by
  rcases exec_next_of_ne_init hi.ne_init h with ⟨hl, rfl⟩ | ⟨hl, c, hc, rfl⟩ | ⟨hl, hp⟩
  · exact (restKept_answerError sel s).ringCommandFrame (by simp [hl])
      fun _ => ⟨answerError_ring s sel, answerError_result s⟩
  · constructor
    case life => exact .inl ⟨hl, rfl⟩
    case uninit =>
      intro hu
      rw [hc hu]
      exact ⟨rfl, rfl, rfl⟩
    case other => exact commandFault_ring ..
    case noEffect => exact fun _ => ⟨commandFault_ring .., rfl⟩
    all_goals rfl
  · exact (hp.restKept hi).ringCommandFrame (by simp [hl]) (by simp [hl])

/-- PUSH, whatever it answers, leaves the read cursor and writes no slot but the one at the write cursor. -/
theorem exec_push_ring_frame {sel : Sel} {b : Byte} {s t : State} (h : exec (.push sel b) s = .next t) :
    (t.ring sel).rc = (s.ring sel).rc ∧
      ∀ a, a ≠ (s.ring sel).wc → (t.ring sel).store.read a = (s.ring sel).store.read a := by
  rcases exec_next_of_ne_init (by nofun) h with ⟨-, rfl⟩ | ⟨-, c, -, rfl⟩ | ⟨-, hp⟩
  · simp
  · simp
  · cases hp with
    | push => simpa using (s.ring sel).pushed_frame s.cfg.capacity b
    | pushSplit => cases sel <;> exact ⟨rfl, fun a ha => Memory.read_write_other _ b ha⟩

/-- POP, whatever it answers, leaves the write cursor and writes no slot but the one at the read cursor. -/
theorem exec_pop_ring_frame {sel : Sel} {s t : State} (h : exec (.pop sel) s = .next t) :
    (t.ring sel).wc = (s.ring sel).wc ∧
      ∀ a, a ≠ (s.ring sel).rc → (t.ring sel).store.read a = (s.ring sel).store.read a := by
  rcases exec_next_of_ne_init (by nofun) h with ⟨-, rfl⟩ | ⟨-, c, -, rfl⟩ | ⟨-, hp⟩
  · simp
  · simp
  · cases hp with
    | pop => simpa using (s.ring sel).popped_frame s.cfg.capacity
    | popSplit => cases sel <;> exact ⟨rfl, fun _ _ => rfl⟩

end Sys2Proof.Machine

open Sys2Proof Sys2Proof.Machine

/-- Settles O18: the frame of the ring commands, and the buffer's own frame. -/
theorem pushFrame : Obligations.PushFrame := by
  intro s t sel b h
  have f := exec_ringCommandFrame (.inl ⟨b, rfl⟩) h
  obtain ⟨hrc, hslots⟩ := exec_push_ring_frame h
  exact ⟨f.other, hrc, hslots, f.life, f.uninit, f.noEffect, f.boundAddr, f.devCtrl, f.devImask, f.isrPc,
    f.isrS, f.cfg, f.cmds, f.moves, f.later, f.moveCount, f.draws, f.drawCount⟩

/-- Settles O22: the frame of the ring commands, and the buffer's own frame. -/
theorem popFrame : Obligations.PopFrame := by
  intro s t sel h
  have f := exec_ringCommandFrame (.inr rfl) h
  obtain ⟨hwc, hslots⟩ := exec_pop_ring_frame h
  exact ⟨f.other, hwc, hslots, f.life, f.uninit, f.noEffect, f.boundAddr, f.devCtrl, f.devImask, f.isrPc,
    f.isrS, f.cfg, f.cmds, f.moves, f.later, f.moveCount, f.draws, f.drawCount⟩
end

section
/-! A split PUSH or POP: what each piece leaves, what the pieces make together, and the races with the ISR. -/

namespace Sys2Proof.Machine

/-- The buffer a split command works on. -/
def splitSel : Split → Sel
  | .p2 sel _ => sel
  | .q2 sel _ _ => sel
  | .q3 sel _ _ _ => sel
  | .q4 sel _ _ _ => sel

/-- A later piece leaves the rest of the machine. -/
theorem Resumed.restKept {p : Split} {s t : State} (h : Resumed p s t) : RestKept (splitSel p) s t := by
  cases h with
  | p2 _ sel i =>
    exact (restKept_withSplit sel none s).trans ((restKept_setRing ..).trans (restKept_answer ..))
  | q2 _ sel i v => exact restKept_withSplit sel _ s
  | q3 _ sel i v e => exact (restKept_setRing sel _ s).trans (restKept_withSplit sel _ _)
  | q4 _ sel i v e =>
    exact (restKept_withSplit sel none s).trans ((restKept_setRing ..).trans (restKept_answer ..))

/-- The byte at the write cursor is no unread byte, so storing it changes none. -/
theorem RingOk.contents_write_wc {cap : Nat} {r : Ring} (h : RingOk cap r) (b : Byte) :
    ({ r with store := r.store.write r.wc b } : Ring).contents cap = r.contents cap := by
  have hrc := h.rc
  have hwc := h.wc
  apply List.map_congr_left
  intro k hk
  have hk : k < r.occ cap := List.mem_range.1 hk
  rw [h.occ_eq] at hk
  apply Memory.read_write_other
  change (r.rc + k) % cap ≠ r.wc
  rw [mod_of_lt_two_mul (by split at hk <;> omega)]
  split at hk <;> split <;> omega

/-- A buffer with one unread byte has the byte at its read cursor. -/
theorem Ring.contents_of_occ_one {cap : Nat} {r : Ring} (h : r.occ cap = 1) (hrc : r.rc < cap) :
    r.contents cap = [r.store.read r.rc] := by
  simp [Ring.contents, h, Nat.mod_eq_of_lt hrc]

theorem zext32_toNat (v : Byte) : (zext32 v).toNat = v.toNat :=
  BitVec.toNat_setWidth_of_le (by decide)

/-- RESULT of a POP that finds a byte. -/
theorem popResult_true (v : Byte) : popResult true v = 0x100 ||| zext32 v := by
  apply BitVec.eq_of_toNat_eq
  have hor : 2 ^ 8 + v.toNat = 2 ^ 8 ||| v.toNat := by simpa using Nat.two_pow_add_eq_or_of_lt v.isLt 1
  simpa [popResult_toNat, zext32_toNat] using hor

/-- RESULT of a POP that finds none. -/
theorem popResult_false (v : Byte) : popResult false v = zext32 v := by
  apply BitVec.eq_of_toNat_eq
  simp [popResult_toNat, zext32_toNat]

/-- The same machine under another configuration. -/
def State.withCfg (s : State) (c : Config) : State := { s with cfg := c }

/-- The same configuration with indivisible ring operations. -/
def wholeCfg (c : Config) : Config := { c with atomicRingOps := true }

theorem SplitReady.whole {i : Instr} {s : State} (h : SplitReady i s) : RingReady i (s.withCfg (wholeCfg s.cfg)) :=
  ⟨h.life, rfl, h.role⟩

@[simp] theorem State.withCfg_ring (s : State) (c : Config) (sel : Sel) : (s.withCfg c).ring sel = s.ring sel := by
  cases sel <;> rfl
@[simp] theorem State.withCfg_cfg (s : State) (c : Config) : (s.withCfg c).cfg = c := rfl
@[simp] theorem State.withCfg_split (s : State) (c : Config) : (s.withCfg c).split = s.split := rfl
@[simp] theorem wholeCfg_capacity (c : Config) : (wholeCfg c).capacity = c.capacity := rfl
@[simp] theorem answer_withCfg (v : Word) (s : State) (c : Config) :
    (answer v s).withCfg c = answer v (s.withCfg c) := rfl
@[simp] theorem State.withSplit_withCfg (s : State) (p : Option Split) (c : Config) :
    (s.withSplit p).withCfg c = (s.withCfg c).withSplit p := rfl
@[simp] theorem State.setRing_withCfg (s : State) (sel : Sel) (r : Ring) (c : Config) :
    (s.setRing sel r).withCfg c = (s.withCfg c).setRing sel r := by cases sel <;> rfl
@[simp] theorem State.withSplit_withSplit (s : State) (p q : Option Split) :
    (s.withSplit p).withSplit q = s.withSplit q := rfl
@[simp] theorem State.setRing_withSplit (s : State) (sel : Sel) (r : Ring) (p : Option Split) :
    (s.setRing sel r).withSplit p = (s.withSplit p).setRing sel r := by cases sel <;> rfl

/-- Withdrawing a split command from a state that has none changes nothing. -/
theorem State.withSplit_none {s : State} (h : s.split = none) : s.withSplit none = s := by
  rw [← h]
  rfl

/-- P1 and P2 with nothing in between end as the indivisible PUSH (40_circular_buffer.md R112). -/
theorem push_pieces_eq_whole {sel : Sel} {b : Byte} {s : State} (hr : SplitReady (.push sel b) s)
    (hc : (s.ring sel).wc < s.cfg.capacity) (hs : s.split = none) :
    ∃ u t p, exec (.push sel b) s = .next u ∧ u.split = some p ∧ resume p u = .next t ∧
      exec (.push sel b) (s.withCfg (wholeCfg s.cfg)) = .next (t.withCfg (wholeCfg s.cfg)) := by
  refine ⟨_, _, _, exec_push_split hr hc, rfl, resume_p2 .., ?_⟩
  rw [exec_push_whole hr.whole (by simpa using hc)]
  simp [Ring.pushed, hs, State.withSplit_none]

/-- Q1 to Q4 with nothing in between end as the indivisible POP (40_circular_buffer.md R112). -/
theorem pop_pieces_eq_whole {sel : Sel} {s : State} (hr : SplitReady (.pop sel) s)
    (hc : (s.ring sel).rc < s.cfg.capacity) (hs : s.split = none) :
    ∃ u₁ u₂ u₃ t p₁ p₂ p₃, exec (.pop sel) s = .next u₁ ∧ u₁.split = some p₁ ∧
      resume p₁ u₁ = .next u₂ ∧ u₂.split = some p₂ ∧ resume p₂ u₂ = .next u₃ ∧
      u₃.split = some p₃ ∧ resume p₃ u₃ = .next t ∧
      exec (.pop sel) (s.withCfg (wholeCfg s.cfg)) = .next (t.withCfg (wholeCfg s.cfg)) := by
  refine ⟨_, _, _, _, _, _, _, exec_pop_split hr hc, rfl, resume_q2 .., rfl, resume_q3 (by simpa using hc) ..,
    rfl, resume_q4 .., ?_⟩
  rw [exec_pop_whole hr.whole (by simpa using hc)]
  simp [Ring.popped, Ring.empty, beq_eq_decide, hs, State.withSplit_none]

/-- R303, a PUSH between Q1 and Q2 of a POP on an empty buffer: Q2 finds the buffer not empty, so the stale byte
comes back as data, and Q3 and Q4 take the pushed byte away. -/
theorem push_before_q2_race {sel : Sel} {s u : State} (b : Byte) (hr : RingOk s.cfg.capacity (s.ring sel))
    (hcap : 2 ≤ s.cfg.capacity) (he : (s.ring sel).rc = (s.ring sel).wc)
    (hu : u = s.withSplit (some (.q2 sel (s.ring sel).rc ((s.ring sel).store.read (s.ring sel).rc)))) :
    ∃ p₁ u₂ p₂ v p₃ w t, u.split = some p₁ ∧ pushByte sel b u = .ok u₂ ∧
      resume p₁ u₂ = .next v ∧ v.split = some p₂ ∧ resume p₂ v = .next w ∧
      w.split = some p₃ ∧ resume p₃ w = .next t ∧
      t.result = 0x100 ||| zext32 ((s.ring sel).store.read (s.ring sel).rc) ∧
      (t.ring sel).empty = true ∧ (t.ring sel).store.read (s.ring sel).rc = 0 := by
  subst hu
  have hmoved : (s.ring sel).rc ≠ ((s.ring sel).wc + 1) % s.cfg.capacity := by
    rw [succ_mod hr.wc]
    split <;> omega
  refine ⟨_, _, _, _, _, _, _, rfl, pushByte_eq b (by simpa using hr.wc), resume_q2 .., rfl,
    resume_q3 (by simpa using hr.rc) .., rfl, resume_q4 .., ?_, ?_, ?_⟩
  · simp [Ring.pushed, hmoved, popResult_true]
  · simp [Ring.pushed, Ring.empty, he]
  · simpa [Ring.pushed] using Memory.read_write_same (hr.pushed b).store (s.ring sel).rc 0

/-- R303, a PUSH between Q2 and Q3 of a POP on an empty buffer: the POP answers empty, and Q3 clears the pushed
byte, whose slot stays unread. -/
theorem push_before_q3_race {sel : Sel} {s u : State} (b : Byte) (hr : RingOk s.cfg.capacity (s.ring sel))
    (hcap : 2 ≤ s.cfg.capacity) (he : (s.ring sel).rc = (s.ring sel).wc)
    (hu : u = s.withSplit (some (.q2 sel (s.ring sel).rc ((s.ring sel).store.read (s.ring sel).rc)))) :
    ∃ p₁ u₂ p₂ v p₃ w t, u.split = some p₁ ∧ resume p₁ u = .next u₂ ∧
      u₂.split = some p₂ ∧ pushByte sel b u₂ = .ok v ∧ resume p₂ v = .next w ∧
      w.split = some p₃ ∧ resume p₃ w = .next t ∧
      t.result = zext32 ((s.ring sel).store.read (s.ring sel).rc) ∧
      (t.ring sel).contents s.cfg.capacity = [0] := by
  subst hu
  have hocc : ((s.ring sel).pushed s.cfg.capacity b).occ s.cfg.capacity = 1 := by
    rw [hr.occ_pushed, hr.occ_zero.2 he, Nat.mod_eq_of_lt (by omega)]
  have hcleared := Memory.read_write_same (hr.pushed b).store (s.ring sel).rc 0
  refine ⟨_, _, _, _, _, _, _, rfl, resume_q2 .., rfl, pushByte_eq b (by simpa using hr.wc),
    resume_q3 (by simpa using hr.rc) .., rfl, resume_q4 .., ?_, ?_⟩
  · simp [he, popResult_false]
  · rw [Ring.contents_of_occ_one]
    · simpa [Ring.pushed, he] using hcleared
    · simpa [Ring.pushed, Ring.occ, he] using hocc
    · simpa [Ring.pushed, he] using hr.wc

end Sys2Proof.Machine

open Sys2Proof Sys2Proof.Machine

/-- Settles O26: the equation of each piece, what each keeps, and the equations of the pieces put together. -/
theorem uninterruptedSplitEqualsAtomic : Obligations.UninterruptedSplitEqualsAtomic := by
  refine ⟨fun s sel b hi hr => ?_, fun s sel i => ?_, fun s sel hi hr => exec_pop_split hr (hi.ring sel).rc,
    fun s sel i v e hc => ?_, fun s sel i v e => ?_, fun s sel b hi hr hs => ?_, fun s sel hi hr hs => ?_⟩
  · have hring := hi.ring sel
    refine ⟨_, exec_push_split hr hring.wc, by simpa using Memory.read_write_same hring.store _ b,
      fun a ha => by simpa using Memory.read_write_other _ b ha, by simp, by simp,
      by simpa using hring.contents_write_wc b, rfl, by simp, by simp, by simp, ?_⟩
    exact (restKept_setRing ..).trans (restKept_withSplit ..)
  · have hp := resume_p2 sel i s
    exact ⟨_, hp, by simp, by simp, by simp, by simp, rfl, rfl, by simp, (resume_next hp).restKept⟩
  · have hp := resume_q3 hc sel v e
    exact ⟨_, hp, by simp, fun a ha => by simpa using Memory.read_write_other _ 0 ha, by simp, by simp, by simp,
      by simp, by simp, (resume_next hp).restKept⟩
  · have hp := resume_q4 sel i v e s
    refine ⟨_, hp, by simp, by simp, by simp, by simp, ?_, rfl, by simp, (resume_next hp).restKept⟩
    cases e <;> simp [popResult_toNat]
  · exact push_pieces_eq_whole hr (hi.ring sel).wc hs
  · exact pop_pieces_eq_whole hr (hi.ring sel).rc hs

/-- Settles O27: the two races, on the state Q1 leaves. -/
theorem splitPopRacesLoseTheByte : Obligations.SplitPopRacesLoseTheByte := by
  intro s u b hi hr he h
  have hq1 := Host.Outcome.next.inj (h.symm.trans (exec_pop_split hr hi.rx.rc))
  have hcap := Config.two_le_capacity hi.accepted
  exact ⟨push_before_q2_race b (hi.ring .rx) hcap he hq1, push_before_q3_race b (hi.ring .rx) hcap he hq1⟩
end

section
/-! Runs of PUSHes and of POPs on one buffer. -/

namespace Sys2Proof.Machine

/-! A buffer under PUSHes alone. -/

/-- The buffer after PUSHes of the bytes, in order. -/
def Ring.pushedAll (r : Ring) (cap : Nat) (bs : List Byte) : Ring := bs.foldl (fun q b => q.pushed cap b) r

@[simp] theorem Ring.pushedAll_nil (r : Ring) (cap : Nat) : r.pushedAll cap [] = r := rfl

@[simp] theorem Ring.pushedAll_cons (r : Ring) (cap : Nat) (b : Byte) (bs : List Byte) :
    r.pushedAll cap (b :: bs) = (r.pushed cap b).pushedAll cap bs := rfl

theorem Ring.pushedAll_concat (r : Ring) (cap : Nat) (bs : List Byte) (b : Byte) :
    r.pushedAll cap (bs ++ [b]) = (r.pushedAll cap bs).pushed cap b := by simp [Ring.pushedAll]

theorem RingOk.pushedAll {cap : Nat} {r : Ring} (h : RingOk cap r) (bs : List Byte) :
    RingOk cap (r.pushedAll cap bs) := by
  induction bs generalizing r with
  | nil => exact h
  | cons b bs ih => exact ih (h.pushed b)

theorem Ring.pushedAll_rc (r : Ring) (cap : Nat) (bs : List Byte) : (r.pushedAll cap bs).rc = r.rc := by
  induction bs generalizing r with
  | nil => rfl
  | cons b bs ih => exact ih _

/-- The write cursor after any number of PUSHes (40_circular_buffer.md R114). -/
theorem RingOk.pushedAll_wc {cap : Nat} {r : Ring} (h : RingOk cap r) (bs : List Byte) :
    (r.pushedAll cap bs).wc = (r.wc + bs.length) % cap := by
  induction bs using List.reverseRecOn with
  | nil => exact (Nat.mod_eq_of_lt h.wc).symm
  | append_singleton bs b ih =>
    rw [Ring.pushedAll_concat, List.length_append, List.length_singleton, ← Nat.add_assoc, ← Nat.mod_add_mod, ← ih]
    rfl

/-- The occupancy after any number of PUSHes (40_circular_buffer.md R114). -/
theorem RingOk.occ_pushedAll {cap : Nat} {r : Ring} (h : RingOk cap r) (bs : List Byte) :
    (r.pushedAll cap bs).occ cap = (r.occ cap + bs.length) % cap := by
  induction bs using List.reverseRecOn with
  | nil => exact (Nat.mod_eq_of_lt h.occ_lt).symm
  | append_singleton bs b ih =>
    rw [Ring.pushedAll_concat, (h.pushedAll bs).occ_pushed, ih, Nat.mod_add_mod, List.length_append,
      List.length_singleton, Nat.add_assoc]

/-- Slots fewer than C apart are different. -/
theorem add_mod_ne {a m n cap : Nat} (hmn : m < n) (hn : n < m + cap) : (a + m) % cap ≠ (a + n) % cap := by
  intro he
  have hzero := Nat.sub_mod_eq_zero_of_mod_eq he.symm
  rw [Nat.mod_eq_of_lt (by omega)] at hzero
  omega

/-- The last C bytes pushed stand in their slots (40_circular_buffer.md R114). -/
theorem RingOk.read_pushedAll {cap : Nat} {r : Ring} (h : RingOk cap r) (bs : List Byte) {m : Nat}
    (hm : m < bs.length) (hlast : bs.length ≤ m + cap) :
    (r.pushedAll cap bs).store.read ((r.wc + m) % cap) = bs[m] := by
  induction bs using List.reverseRecOn with
  | nil => simp at hm
  | append_singleton bs b ih =>
    rw [List.length_append, List.length_singleton] at hm hlast
    rw [Ring.pushedAll_concat]
    by_cases he : m = bs.length
    · subst he
      rw [← h.pushedAll_wc, (h.pushedAll bs).read_pushed_wc]
      simp
    · obtain ⟨-, hframe⟩ := (r.pushedAll cap bs).pushed_frame cap b
      have hne : (r.wc + m) % cap ≠ (r.pushedAll cap bs).wc := by
        rw [h.pushedAll_wc]
        exact add_mod_ne (by omega) (by omega)
      rw [hframe _ hne, ih (by omega) (by omega), List.getElem_append_left]

/-- PUSHes that never reach occupancy C append their bytes (40_circular_buffer.md R103). -/
theorem RingOk.contents_pushedAll {cap : Nat} {r : Ring} (h : RingOk cap r) (bs : List Byte)
    (hfit : r.occ cap + bs.length < cap) : (r.pushedAll cap bs).contents cap = r.contents cap ++ bs := by
  induction bs using List.reverseRecOn with
  | nil => simp
  | append_singleton bs b ih =>
    rw [List.length_append, List.length_singleton] at hfit
    have hocc : (r.pushedAll cap bs).occ cap + 1 ≠ cap := by
      rw [h.occ_pushedAll, Nat.mod_eq_of_lt (by omega)]
      omega
    rw [Ring.pushedAll_concat, (h.pushedAll bs).contents_pushed, if_neg hocc, ih (by omega), List.append_assoc]

/-! A buffer under POPs alone. -/

/-- The buffer after `n` POPs. -/
def Ring.poppedTimes (cap : Nat) : Nat → Ring → Ring
  | 0, r => r
  | n + 1, r => Ring.poppedTimes cap n (r.popped cap)

/-- What a POP on the buffer answers (40_circular_buffer.md R104). -/
def Ring.popAnswer (r : Ring) : Bool × Word := (false, popResult (!r.empty) (r.store.read r.rc))

/-- What `n` POPs on the buffer answer. -/
def Ring.popAnswers (cap : Nat) : Nat → Ring → List (Bool × Word)
  | 0, _ => []
  | n + 1, r => r.popAnswer :: Ring.popAnswers cap n (r.popped cap)

theorem Ring.poppedTimes_wc (cap n : Nat) (r : Ring) : (r.poppedTimes cap n).wc = r.wc := by
  induction n generalizing r with
  | zero => rfl
  | succ n ih => exact ih _

/-- POPs on an empty buffer leave the read cursor (40_circular_buffer.md R113). -/
theorem Ring.poppedTimes_rc_of_empty (cap n : Nat) {r : Ring} (he : r.rc = r.wc) :
    (r.poppedTimes cap n).rc = r.rc := by
  induction n generalizing r with
  | zero => rfl
  | succ n ih =>
    have hp : (r.popped cap).rc = r.rc := by simp [Ring.popped, he]
    exact (ih (hp.trans he)).trans hp

theorem Ring.popAnswer_of_empty {r : Ring} (he : r.rc = r.wc) :
    r.popAnswer = (false, zext32 (r.store.read r.rc)) := by
  rw [Ring.popAnswer, r.empty_iff.2 he]
  exact congrArg _ (popResult_false _)

theorem Ring.popAnswer_of_ne {r : Ring} (he : r.rc ≠ r.wc) :
    r.popAnswer = (false, 0x100 ||| zext32 (r.store.read r.rc)) := by
  have hne : r.empty = false := by simpa [Ring.empty] using he
  rw [Ring.popAnswer, hne]
  exact congrArg _ (popResult_true _)

/-- POPs on an empty buffer whose slot is clear answer 0 (40_circular_buffer.md R113). -/
theorem RingOk.popAnswers_of_clear {cap : Nat} {r : Ring} (h : RingOk cap r) (n : Nat) (he : r.rc = r.wc)
    (hz : r.store.read r.rc = 0) : r.popAnswers cap n = List.replicate n (false, 0) := by
  induction n generalizing r with
  | zero => rfl
  | succ n ih =>
    have hp : (r.popped cap).rc = r.rc := by simp [Ring.popped, he]
    rw [Ring.popAnswers, r.popAnswer_of_empty he, hz,
      ih h.popped (hp.trans he) (by rw [hp]; exact h.read_popped_rc)]
    rfl

/-- POPs on an empty buffer answer the stale byte once and then 0 (40_circular_buffer.md R113). -/
theorem RingOk.popAnswers_of_empty {cap : Nat} {r : Ring} (h : RingOk cap r) (n : Nat) (he : r.rc = r.wc) :
    r.popAnswers cap (n + 1) = (false, zext32 (r.store.read r.rc)) :: List.replicate n (false, 0) := by
  have hp : (r.popped cap).rc = r.rc := by simp [Ring.popped, he]
  rw [Ring.popAnswers, r.popAnswer_of_empty he,
    h.popped.popAnswers_of_clear n (hp.trans he) (by rw [hp]; exact h.read_popped_rc)]

/-- As many POPs as there are unread bytes answer those in order, each found, and advance the read cursor by their
number (40_circular_buffer.md R109). -/
theorem RingOk.pop_contents {cap : Nat} {r : Ring} (h : RingOk cap r) {bs : List Byte}
    (hbs : r.contents cap = bs) :
    r.popAnswers cap bs.length = bs.map (fun b => (false, 0x100 ||| zext32 b)) ∧
      (r.poppedTimes cap bs.length).rc = (r.rc + bs.length) % cap := by
  induction bs generalizing r with
  | nil => exact ⟨rfl, (Nat.mod_eq_of_lt h.rc).symm⟩
  | cons b bs ih =>
    have hne : r.rc ≠ r.wc := fun he => by simp [h.contents_empty he] at hbs
    have hpop := h.contents_popped hne
    obtain ⟨rfl, hrest⟩ := List.cons.inj (hpop.symm.trans hbs)
    obtain ⟨hans, hrc⟩ := ih h.popped hrest
    refine ⟨?_, ?_⟩
    · rw [List.length_cons, Ring.popAnswers, r.popAnswer_of_ne hne, hans, List.map_cons]
    · rw [List.length_cons, Ring.poppedTimes, hrc]
      simp [Ring.popped, hne, Nat.add_assoc, Nat.add_comm 1]

/-! The commands. -/

theorem execAll_cons {i : Instr} {is : List Instr} {s t : State} (h : exec i s = .next t) :
    execAll (i :: is) s = execAll is t := by
  simp [execAll, h]

theorem execAll_append {is js : List Instr} {s t : State} (h : execAll is s = .next t) :
    execAll (is ++ js) s = execAll js t := by
  induction is generalizing s with
  | nil =>
    cases h
    rfl
  | cons i is ih =>
    rw [execAll] at h
    split at h
    · rw [List.cons_append, execAll_cons ‹_›, ih h]
    · cases h
    · cases h

/-- A run on one buffer: LIFE and the configuration stay, the buffer has become `r`, and the responses `rs` have
been given. -/
structure RingRun (sel : Sel) (s t : State) (r : Ring) (rs : List (Bool × Word)) : Prop where
  cfg : t.cfg = s.cfg
  life : t.life = s.life
  ring : t.ring sel = r
  responses : responses t.ev = responses s.ev ++ rs

theorem RingRun.refl (sel : Sel) (s : State) : RingRun sel s s (s.ring sel) [] := ⟨rfl, rfl, rfl, by simp⟩

theorem RingRun.trans {sel : Sel} {s t u : State} {r q : Ring} {rs qs : List (Bool × Word)}
    (h : RingRun sel s t r rs) (h' : RingRun sel t u q qs) : RingRun sel s u q (rs ++ qs) where
  cfg := h'.cfg.trans h.cfg
  life := h'.life.trans h.life
  ring := h'.ring
  responses := by rw [h'.responses, h.responses, List.append_assoc]

theorem ringRun_answer_setRing (sel : Sel) (v : Word) (r : Ring) (s : State) :
    RingRun sel s (answer v (s.setRing sel r)) r [(false, v)] :=
  ⟨by simp, by simp, by simp, by simp [responses_append, Machine.responses]⟩

/-- A run keeps the premises of whole PUSHes and POPs. -/
theorem RingRun.ringReady {sel : Sel} {s t : State} {r : Ring} {rs : List (Bool × Word)} {i : Instr}
    (h : RingRun sel s t r rs) (hr : RingReady i s) : RingReady i t :=
  ⟨h.life.trans hr.life, h.cfg ▸ hr.atomic, h.cfg ▸ hr.role⟩

/-- The premises of a PUSH do not read its byte. -/
theorem RingReady.push {sel : Sel} {b : Byte} {s : State} (h : RingReady (.push sel b) s) (b' : Byte) :
    RingReady (.push sel b') s :=
  ⟨h.life, h.atomic, by cases sel <;> exact h.role⟩

/-- PUSHes one after another each answer success (40_circular_buffer.md R103). -/
theorem execAll_pushes {sel : Sel} {s : State} (bs : List Byte) (hr : RingReady (.push sel 0) s)
    (hok : RingOk s.cfg.capacity (s.ring sel)) :
    ∃ t, execAll (bs.map (.push sel)) s = .next t ∧
      RingRun sel s t ((s.ring sel).pushedAll s.cfg.capacity bs) (List.replicate bs.length (false, 0)) := by
  induction bs generalizing s with
  | nil => exact ⟨s, rfl, .refl sel s⟩
  | cons b bs ih =>
    have hpush := exec_push_whole (hr.push b) hok.wc
    have hrun := ringRun_answer_setRing sel 0 ((s.ring sel).pushed s.cfg.capacity b) s
    generalize answer 0 (s.setRing sel ((s.ring sel).pushed s.cfg.capacity b)) = u at hpush hrun
    obtain ⟨t, hexec, hrest⟩ := ih (hrun.ringReady hr) (by rw [hrun.cfg, hrun.ring]; exact hok.pushed b)
    rw [hrun.cfg, hrun.ring] at hrest
    exact ⟨t, by rw [List.map_cons, execAll_cons hpush, hexec], hrun.trans hrest⟩

/-- POPs one after another answer as the buffer says. -/
theorem execAll_pops {sel : Sel} {s : State} (n : Nat) (hr : RingReady (.pop sel) s)
    (hok : RingOk s.cfg.capacity (s.ring sel)) :
    ∃ t, execAll (List.replicate n (.pop sel)) s = .next t ∧
      RingRun sel s t ((s.ring sel).poppedTimes s.cfg.capacity n) ((s.ring sel).popAnswers s.cfg.capacity n) := by
  induction n generalizing s with
  | zero => exact ⟨s, rfl, .refl sel s⟩
  | succ n ih =>
    have hpop := exec_pop_whole hr hok.rc
    have hrun := ringRun_answer_setRing sel
      (popResult (!(s.ring sel).empty) ((s.ring sel).store.read (s.ring sel).rc))
      ((s.ring sel).popped s.cfg.capacity) s
    generalize answer _ (s.setRing sel ((s.ring sel).popped s.cfg.capacity)) = u at hpop hrun
    obtain ⟨t, hexec, hrest⟩ := ih (hrun.ringReady hr) (by rw [hrun.cfg, hrun.ring]; exact hok.popped)
    rw [hrun.cfg, hrun.ring] at hrest
    exact ⟨t, by rw [List.replicate_succ, execAll_cons hpop, hexec], hrun.trans hrest⟩

end Sys2Proof.Machine

open Sys2Proof Sys2Proof.Machine

/-- Settles O23: the run of POPs, on a buffer that stays empty. -/
theorem emptyPopsAreIdempotent : Obligations.EmptyPopsAreIdempotent := by
  intro s sel n hi hr he
  have hok := hi.ring sel
  obtain ⟨t, hexec, hrun⟩ := execAll_pops (n + 1) hr hok
  refine ⟨t, hexec, ?_, ?_, ?_⟩
  · rw [hrun.ring, Ring.poppedTimes_rc_of_empty _ _ he]
  · rw [hrun.ring, Ring.poppedTimes_wc]
  · rw [hrun.responses, hok.popAnswers_of_empty n he]

/-- Settles O24: the PUSHes leave the bytes unread, and the POPs take them. -/
theorem pushesThenPopsAreFirstInFirstOut : Obligations.PushesThenPopsAreFirstInFirstOut := by
  intro s sel bs hi hpush hpop he hlen
  have hok := hi.ring sel
  obtain ⟨u, hpushes, hfill⟩ := execAll_pushes bs hpush hok
  have hfilled : RingOk u.cfg.capacity (u.ring sel) := by
    rw [hfill.cfg, hfill.ring]
    exact hok.pushedAll bs
  obtain ⟨t, hpops, hdrain⟩ := execAll_pops bs.length (hfill.ringReady hpop) hfilled
  have hunread : (u.ring sel).contents u.cfg.capacity = bs := by
    have hocc := hok.occ_zero.2 he
    rw [hfill.cfg, hfill.ring, hok.contents_pushedAll bs (by omega), hok.contents_empty he, List.nil_append]
  obtain ⟨hanswers, hrc⟩ := hfilled.pop_contents hunread
  rw [← hdrain.ring, hfill.cfg, hfill.ring, Ring.pushedAll_rc] at hrc
  have hwc : (t.ring sel).wc = ((s.ring sel).wc + bs.length) % s.cfg.capacity := by
    rw [hdrain.ring, Ring.poppedTimes_wc, hfill.ring, hok.pushedAll_wc]
  refine ⟨t, by rw [execAll_append hpushes, hpops], ?_, hrc, hwc, ?_⟩
  · rw [(hfill.trans hdrain).responses, hanswers, List.append_assoc]
  · rw [Ring.empty_iff, hrc, hwc, he]

/-- Settles O25: the run of PUSHes, and the cursors, the occupancy and the slots of the buffer it leaves. -/
theorem overrunOutcomeIsExact : Obligations.OverrunOutcomeIsExact := by
  intro s sel bs hi hr he
  have hok := hi.ring sel
  obtain ⟨t, hexec, hrun⟩ := execAll_pushes bs hr hok
  refine ⟨t, hexec, ?_, ?_, ?_, fun m hm hlast => ?_, hrun.responses⟩
  · rw [hrun.ring, hok.pushedAll_wc]
  · rw [hrun.ring, Ring.pushedAll_rc]
  · rw [hrun.ring, hok.occ_pushedAll, hok.occ_zero.2 he, Nat.zero_add]
  · rw [hrun.ring, hok.read_pushedAll bs hm hlast]
end

section
/-! The four register commands in READY: their bus accesses, as equations, and what those leave
(41_register_interface.md R130 to R142). -/

namespace Sys2Proof

theorem Reg.fits_or {r : Reg} {v w : Word} (hv : r.fits v = true) (hw : r.fits w = true) :
    r.fits (v ||| w) = true := by
  rw [r.fits_iff] at *
  rw [BitVec.toNat_or]
  exact Nat.or_lt_two_pow hv hw

theorem Reg.fits_and {r : Reg} {v : Word} (hv : r.fits v = true) (w : Word) : r.fits (v &&& w) = true := by
  rw [r.fits_iff] at *
  rw [BitVec.toNat_and]
  exact Nat.and_le_left.trans_lt hv

namespace Machine

theorem truncTo_eq_ofNat_mod (r : Reg) (v : Word) : truncTo r v = BitVec.ofNat 32 (v.toNat % 2 ^ r.width) := by
  rw [← truncTo_toNat, BitVec.ofNat_toNat, BitVec.setWidth_eq]

/-- The device answers within the register's width (60_exceptions.md R263 to R266). -/
theorem fits_deviceAnswer (s : State) (r : Reg) : r.fits (deviceAnswer s r) = true := by
  cases r with
  | uartCtrl => exact Reg.fits_truncTo .uartCtrl s.devCtrl
  | uartStat => exact Reg.fits_truncTo .uartStat (nextDraw s)
  | _ => exact fits_zext32 _ _

theorem lowByte_eq_extractLsb' (v : Word) : lowByte v = v.extractLsb' 0 8 :=
  BitVec.setWidth_eq_extractLsb' (by decide)

/-- In READY a RREAD is one read and an answer (41_register_interface.md R130). -/
theorem exec_rread_ready {s : State} (h : s.life = .ready) (r : Reg) :
    exec (.rread r) s = .next (answer (deviceAnswer s r) (busRead .app r s).2) := by
  have hc : commandCheck (.rread r) s = none := commandCheck_ready h nofun fun _ => rfl
  simp only [exec, execRread, onCommand_perform (by simp [h]) hc, busRead_fst]

/-- In READY a RWRITE is one write and an answer (41_register_interface.md R133). -/
theorem exec_rwrite_ready {s : State} (h : s.life = .ready) (r : Reg) (v : Word) :
    exec (.rwrite r v) s = .next (answer 0 (busWrite .app r v s)) := by
  have hc : commandCheck (.rwrite r v) s = none := commandCheck_ready h nofun fun _ => rfl
  simp only [exec, execRwrite, onCommand_perform (by simp [h]) hc]

/-- Register `r` has been read and then written with `w`, and the command answered: what ROR and RANDC have in
common (41_register_interface.md R136, R140). -/
structure Rewritten (r : Reg) (w : Word) (s t : State) : Prop where
  result : t.result = 0
  err : t.err = false
  ev : t.ev = s.ev ++ [.rd .app r (s.boundAddr.get r) r.width (deviceAnswer s r),
    .wr .app r (s.boundAddr.get r) r.width w, .resp false 0]
  devCtrl : t.devCtrl = if r = .uartCtrl then w else s.devCtrl
  devImask : t.devImask = if r = .intMask then lowByte w else s.devImask
  draws : t.draws = if isVolatile r then s.draws.tail else s.draws
  drawCount : t.drawCount = if isVolatile r then s.drawCount + 1 else s.drawCount

theorem rewritten_answer {r : Reg} {w : Word} (hw : r.fits w = true) (s : State) :
    Rewritten r w s (answer 0 (busWrite .app r w (busRead .app r s).2)) where
  result := rfl
  err := rfl
  ev := by simp [busWrite_ev, busRead_ev, truncTo_of_fits hw]
  devCtrl := (busWrite_devCtrl .app r w _).trans (by rw [busRead_devCtrl])
  devImask := (busWrite_devImask .app r w _).trans (by rw [busRead_devImask])
  draws := (busWrite_draws .app r w _).trans (busRead_draws .app r s)
  drawCount := (busWrite_drawCount .app r w _).trans (busRead_drawCount .app r s)

/-- What ROR leaves in INT_MASK. -/
theorem lowByte_deviceAnswer_or (s : State) (m : Word) :
    lowByte (deviceAnswer s .intMask ||| truncTo .intMask m) = s.devImask ||| m.extractLsb' 0 8 := by
  change lowByte (zext32 s.devImask ||| zext32 (lowByte m)) = _
  rw [zext32_or, lowByte_zext32, lowByte_eq_extractLsb']

/-- What RANDC leaves in INT_MASK. -/
theorem lowByte_deviceAnswer_and_not (s : State) (m : Word) :
    lowByte (deviceAnswer s .intMask &&& ~~~truncTo .intMask m) = s.devImask &&& ~~~m.extractLsb' 0 8 := by
  change lowByte (zext32 s.devImask &&& ~~~zext32 (lowByte m)) = _
  rw [zext32_and_not, lowByte_zext32, lowByte_eq_extractLsb']

end Machine

end Sys2Proof

open Sys2Proof Sys2Proof.Machine

/-- Settles O28: the read and the answer, with the device's answer within the register's width. -/
theorem rreadReturnsTheDeviceAnswer : Obligations.RreadReturnsTheDeviceAnswer := by
  intro s r hl
  refine ⟨_, exec_rread_ready hl r, rfl, rfl, (r.fits_iff _).1 (fits_deviceAnswer s r), ?_,
    busRead_draws .app r s, busRead_drawCount .app r s, busRead_devCtrl .app r s, busRead_devImask .app r s⟩
  simp [busRead_ev]

/-- Settles O29: the write and the answer. -/
theorem rwriteWritesTheOperand : Obligations.RwriteWritesTheOperand := by
  intro s r v hl
  refine ⟨_, exec_rwrite_ready hl r v, rfl, rfl, ?_, busWrite_devCtrl .app r v s, ?_, busWrite_draws .app r v s,
    busWrite_drawCount .app r v s⟩
  · simp [busWrite_ev, truncTo_eq_ofNat_mod]
  · rw [← lowByte_eq_extractLsb']
    exact busWrite_devImask .app r v s

/-- Settles O30: setting bits of a value that fits the register by an operand that does gives one that fits. -/
theorem rorSetsBits : Obligations.RorSetsBits := by
  intro s r m hl
  have rewritten := rewritten_answer (Reg.fits_or (fits_deviceAnswer s r) (r.fits_truncTo m)) s
  refine ⟨_, _, exec_ror_ready hl r m, by rw [truncTo_eq_ofNat_mod], rewritten.result, rewritten.err,
    rewritten.ev, rewritten.devCtrl.trans (ite_congr rfl ?_ fun _ => rfl),
    rewritten.devImask.trans (ite_congr rfl ?_ fun _ => rfl), rewritten.draws, rewritten.drawCount⟩
  · rintro rfl
    rfl
  · rintro rfl
    exact lowByte_deviceAnswer_or s m

/-- Settles O31: clearing bits of a value that fits the register gives one that fits. -/
theorem randcClearsBits : Obligations.RandcClearsBits := by
  intro s r m hl
  have rewritten := rewritten_answer (Reg.fits_and (fits_deviceAnswer s r) (~~~truncTo r m)) s
  refine ⟨_, _, exec_randc_ready hl r m, by rw [truncTo_eq_ofNat_mod], rewritten.result, rewritten.err,
    rewritten.ev, rewritten.devCtrl.trans (ite_congr rfl ?_ fun _ => rfl),
    rewritten.devImask.trans (ite_congr rfl ?_ fun _ => rfl), rewritten.draws, rewritten.drawCount⟩
  · rintro rfl
    rfl
  · rintro rfl
    exact lowByte_deviceAnswer_and_not s m
end

section
/-! SEND: PUSHes to `ring[TX]` and then ARM_TX. -/

namespace Sys2Proof.Machine

/-- The slots PUSHes one after another do not write. -/
theorem RingOk.read_pushedAll_frame {cap : Nat} {r : Ring} (h : RingOk cap r) (bs : List Byte) {a : Nat}
    (ha : ∀ m, m < bs.length → a ≠ (r.wc + m) % cap) : (r.pushedAll cap bs).store.read a = r.store.read a := by
  induction bs using List.reverseRecOn with
  | nil => rfl
  | append_singleton bs b ih =>
    rw [List.length_append, List.length_singleton] at ha
    obtain ⟨-, hframe⟩ := (r.pushedAll cap bs).pushed_frame cap b
    have hne : a ≠ (r.pushedAll cap bs).wc := h.pushedAll_wc bs ▸ ha bs.length (by omega)
    rw [Ring.pushedAll_concat, hframe a hne, ih fun m hm => ha m (by omega)]

/-- The state PUSHes one after another leave: the buffer has taken the bytes, each has answered success, nothing
else is changed (40_circular_buffer.md R100, R103). -/
structure PushedRun (sel : Sel) (bs : List Byte) (s t : State) : Prop where
  rest : RestKept sel s t
  ring : t.ring sel = (s.ring sel).pushedAll s.cfg.capacity bs
  ev : t.ev = s.ev ++ List.replicate bs.length (.resp false 0)

theorem PushedRun.nil (sel : Sel) (s : State) : PushedRun sel [] s s where
  rest := by constructor <;> rfl
  ring := rfl
  ev := by simp

/-- One PUSH before the others. -/
theorem PushedRun.cons {sel : Sel} {b : Byte} {bs : List Byte} {s t : State}
    (h : PushedRun sel bs (answer 0 (s.setRing sel ((s.ring sel).pushed s.cfg.capacity b))) t) :
    PushedRun sel (b :: bs) s t where
  rest := ((restKept_setRing sel _ s).trans (restKept_answer sel 0 _)).trans h.rest
  ring := by simpa using h.ring
  ev := by simpa [List.replicate_succ] using h.ev

/-- Admitted PUSHes in one step each, one after another. -/
theorem execAll_pushes_pushedRun {sel : Sel} {s : State} (bs : List Byte) (hr : RingReady (.push sel 0) s)
    (hok : RingOk s.cfg.capacity (s.ring sel)) :
    ∃ t, execAll (bs.map (.push sel)) s = .next t ∧ PushedRun sel bs s t := by
  induction bs generalizing s with
  | nil => exact ⟨s, rfl, .nil sel s⟩
  | cons b bs ih =>
    have hpush := exec_push_whole (hr.push b) hok.wc
    have hrun := ringRun_answer_setRing sel 0 ((s.ring sel).pushed s.cfg.capacity b) s
    obtain ⟨t, hexec, hrest⟩ := ih (hrun.ringReady hr) (by rw [hrun.cfg, hrun.ring]; exact hok.pushed b)
    exact ⟨t, by rw [List.map_cons, execAll_cons hpush, hexec], hrest.cons⟩

end Sys2Proof.Machine

open Sys2Proof Sys2Proof.Machine

/-- Settles O51: the run of PUSHes leaves READY, the configuration and the device registers, so ARM_TX acts on
those of the start. -/
theorem sendEnqueuesThenArms : Obligations.SendEnqueuesThenArms := by
  intro s bs hi hr
  obtain ⟨u, hpushes, hrun⟩ := execAll_pushes_pushedRun bs hr hi.tx
  have hring : u.tx = s.tx.pushedAll s.cfg.capacity bs := hrun.ring
  obtain ⟨harm, -⟩ := armAndDisarmTouchTheirBitsAlone u (hrun.rest.life.trans hr.life)
  rw [hrun.rest.cfg, hrun.rest.boundAddr, hrun.rest.devCtrl, hrun.rest.devImask, hrun.ev] at harm
  refine ⟨_, (execAll_append hpushes).trans harm, ?_, ?_, ?_, fun m hm hlast => ?_, fun a ha => ?_, fun hfit => ?_,
    rfl, hrun.rest.other, rfl, rfl, rfl, rfl, hrun.rest.life.trans hr.life⟩ <;> rw [hring]
  · exact hi.tx.pushedAll_wc bs
  · exact Ring.pushedAll_rc _ _ bs
  · exact hi.tx.occ_pushedAll bs
  · exact hi.tx.read_pushedAll bs hm hlast
  · exact hi.tx.read_pushedAll_frame bs ha
  · exact hi.tx.contents_pushedAll bs hfit
end

section
/-! INT_MASK: the steps that write it (44_interrupt_handler.md R208). -/

namespace Sys2Proof.Machine

@[simp] theorem answer_devImask (v : Word) (s : State) : (answer v s).devImask = s.devImask := rfl
@[simp] theorem raiseFault_devImask (c : FaultCause) (w : Word) (s : State) :
    (raiseFault c w s).devImask = s.devImask := rfl
@[simp] theorem commandFault_devImask (c : FaultCause) (w : Word) (s : State) :
    (commandFault c w s).devImask = s.devImask := rfl
@[simp] theorem initialise_devImask (s : State) : (initialise s).devImask = s.devImask := rfl
@[simp] theorem isrReturn_devImask (s : State) : (isrReturn s).devImask = s.devImask := rfl

/-- An IRQ leaves INT_MASK. -/
theorem irqArrives_devImask (s : State) : (irqArrives s).devImask = s.devImask := by
  rcases irqArrives_cases s with ⟨-, h⟩ | ⟨-, -, h⟩ | ⟨-, h⟩ <;> rw [h]
  · exact raiseFault_devImask _ _ s
  · rfl

/-- Of the sequencer's steps only DRAIN_END with `ring[TX]` empty writes INT_MASK, and it clears the TX bit. -/
theorem IsrStepped.devImask {s t : State} (h : IsrStepped s t) :
    t.devImask = s.devImask ∨
      s.isrPc = .drainEnd ∧ s.tx.rc = s.tx.wc ∧ t.devImask = s.devImask &&& ~~~s.cfg.intTx := by
  cases h with
  | disarm hpc he =>
    refine .inr ⟨hpc, s.tx.empty_iff.1 he, ?_⟩
    rw [truncTo_zext32, zext32_and_not, State.goto_devImask, busWrite_devImask, if_pos rfl, lowByte_zext32]
  | _ => exact .inl (by simp [busWrite_devImask])

/-- Is the command one of the three that write INT_MASK? -/
def WritesMask (i : Instr) : Prop :=
  ∃ v, i = .rwrite .intMask v ∨ i = .ror .intMask v ∨ i = .randc .intMask v

/-- Of the commands only the three that write INT_MASK change it. -/
theorem Performed.devImask {i : Instr} {s t : State} (h : Performed i s t) :
    t.devImask = s.devImask ∨ WritesMask i := by
  have written (v w : Word) (r : Reg) (u : State) (hu : u.devImask = s.devImask)
      (hi : i = .rwrite r v ∨ i = .ror r v ∨ i = .randc r v) :
      (answer 0 (busWrite .app r w u)).devImask = s.devImask ∨ WritesMask i := by
    by_cases hr : r = .intMask
    · exact .inr ⟨v, hr ▸ hi⟩
    · exact .inl (by rw [answer_devImask, busWrite_devImask, if_neg hr, hu])
  cases h with
  | rwrite _ r v => exact written v _ r _ rfl (.inl rfl)
  | ror _ r m => exact written m _ r _ (by simp) (.inr (.inl rfl))
  | randc _ r m => exact written m _ r _ (by simp) (.inr (.inr rfl))
  | _ => exact .inl (by simp)

/-- The command port changes INT_MASK only when the words decode to a command that writes it. -/
theorem acceptCommand_devImask {c o : Word} {s t : State} (h : acceptCommand c o s = .next t) :
    t.devImask = s.devImask ∨ ∃ i, decode c o = .ok i ∧ WritesMask i := by
  rcases acceptCommand_next h with
    ⟨-, rfl⟩ | ⟨-, why, -, rfl⟩ | ⟨-, i, cause, -, -, rfl⟩ | ⟨-, i, hd, -, hp⟩
  · exact .inl rfl
  · exact .inl rfl
  · exact .inl rfl
  · exact hp.devImask.imp_right fun hw => ⟨i, hd, hw⟩

end Sys2Proof.Machine

open Sys2Proof Sys2Proof.Machine

/-- Settles O48: by the agent that steps; an IRQ, the rest of a split command and an idle step leave INT_MASK. -/
theorem maskIsClearedOnlyWhenTxEmpty : Obligations.MaskIsClearedOnlyWhenTxEmpty := by
  intro s t h hm hne
  obtain ⟨-, ⟨hr, -⟩ | ⟨-, rfl⟩ | ⟨-, -, hs⟩ | ⟨-, -, p, -, hp⟩ | ⟨-, -, -, -, rfl⟩ |
    ⟨-, hpc, -, c, o, rest, hcmds, hc⟩⟩ := step_next h
  · exact absurd hr hm
  · exact absurd ((irqArrives_devImask _).trans (nextMove_devImask s)) hne
  · refine .inl ?_
    have disarmed := (isrStep_next hs).devImask
    simp only [nextMove_isrPc, nextMove_tx, nextMove_devImask, nextMove_cfg] at disarmed
    exact disarmed.resolve_left hne
  · exact absurd (hp.restKept.devImask.trans (nextMove_devImask s)) hne
  · exact absurd (nextMove_devImask s) hne
  · obtain ⟨i, hd, v, hi⟩ := (acceptCommand_devImask hc).resolve_left fun hk =>
      hne (hk.trans (nextMove_devImask s))
    exact .inr ⟨hpc, c, o, i, v, by rw [hcmds]; rfl, hd, hi⟩
end

section
/-! The steps of the sequencer as equations, state by state (44_interrupt_handler.md R193 to R207). -/

namespace Sys2Proof.Machine

/-- A test of a bit, by the value the rules compare with 0. -/
theorem bitSet_iff {w : Nat} (v b : BitVec w) : bitSet v b = true ↔ v &&& b ≠ 0 := bne_iff_ne

/-- A branch on a bit, by its value 0 first. -/
theorem ite_bitSet {w : Nat} {α : Type} (v b : BitVec w) (x y : α) :
    (if bitSet v b then x else y) = if v &&& b = 0 then y else x := by
  simp only [bitSet_iff, ite_not]

/-- The state after the ISR has read a volatile register: the access recorded and its draw taken. -/
def State.afterIsrRead (s : State) (r : Reg) : State :=
  { s with
    ev := s.ev ++ [.rd .isr r (s.boundAddr.get r) r.width (deviceAnswer s r)]
    draws := s.draws.tail
    drawCount := s.drawCount + 1 }

/-- A read of a volatile register by the ISR (60_exceptions.md R264 to R266). -/
theorem busRead_isr_volatile {r : Reg} (h : isVolatile r = true) (s : State) :
    busRead .isr r s = (deviceAnswer s r, s.afterIsrRead r) := by
  simp [busRead, deviceRead_fst, deviceRead_snd, h, State.emit, State.afterIsrRead]

/-- ENTRY (44_interrupt_handler.md R193). -/
theorem isrStep_entry {s : State} (h : s.isrPc = .entry) : isrStep s = .next { s with
    isrPc := if lowByte (nextDraw s) &&& s.cfg.intRx = 0 then .txTest else .rxAck
    isrS := lowByte (nextDraw s)
    ev := s.ev ++ [.rd .isr .intStat (s.boundAddr.get .intStat) 8 (zext32 (lowByte (nextDraw s)))]
    draws := s.draws.tail
    drawCount := s.drawCount + 1 } := by
  simp [isrStep, h, isrEntry, busRead_isr_volatile (r := .intStat) rfl, State.afterIsrRead, deviceAnswer,
    lowByte_zext32, ite_bitSet, State.goto, Reg.width]

/-- RX_ACK (44_interrupt_handler.md R194). -/
theorem isrStep_rxAck {s : State} (h : s.isrPc = .rxAck) : isrStep s = .next { s with
    isrPc := .fillTest
    ev := s.ev ++ [.wr .isr .intAck (s.boundAddr.get .intAck) 8 (zext32 s.cfg.intRx)] } := by
  simp [isrStep, h, isrRxAck, busWrite, State.deviceWrite, truncTo_zext32, State.emit, State.goto, Reg.width]

/-- FILL_TEST (44_interrupt_handler.md R195). -/
theorem isrStep_fillTest {s : State} (h : s.isrPc = .fillTest) : isrStep s = .next
    ((s.afterIsrRead .uartStat).goto
      (if nextDraw s &&& s.cfg.dataReady = 0 then .txTest else .fillMove)) := by
  simp [isrStep, h, isrFillTest, busRead_isr_volatile (r := .uartStat) rfl, deviceAnswer, ite_bitSet]

/-- FILL_MOVE, at a write cursor below C (44_interrupt_handler.md R196). -/
theorem isrStep_fillMove {s : State} (h : s.isrPc = .fillMove) (hc : s.rx.wc < s.cfg.capacity) :
    isrStep s = .next (((s.afterIsrRead .uartRxd).setRing .rx
      (s.rx.pushed s.cfg.capacity (lowByte (nextDraw s)))).goto .fillTest) := by
  have hpush := pushByte_eq (sel := .rx) (s := s.afterIsrRead .uartRxd) (lowByte (nextDraw s)) hc
  simp only [isrStep, h, isrFillMove, busRead_isr_volatile (r := .uartRxd) rfl, deviceAnswer, lowByte_zext32,
    hpush]
  rfl

/-- TX_TEST (44_interrupt_handler.md R198). -/
theorem isrStep_txTest {s : State} (h : s.isrPc = .txTest) : isrStep s = .next { s with
    isrPc := if s.isrS &&& s.cfg.intTx = 0 then .ret else .txAck } := by
  simp [isrStep, h, isrTxTest, ite_bitSet, State.goto]

/-- TX_ACK (44_interrupt_handler.md R199). -/
theorem isrStep_txAck {s : State} (h : s.isrPc = .txAck) : isrStep s = .next { s with
    isrPc := .drainTrig
    ev := s.ev ++ [.wr .isr .intAck (s.boundAddr.get .intAck) 8 (zext32 s.cfg.intTx)] } := by
  simp [isrStep, h, isrTxAck, busWrite, State.deviceWrite, truncTo_zext32, State.emit, State.goto, Reg.width]

/-- DRAIN_TRIG (44_interrupt_handler.md R200). -/
theorem isrStep_drainTrig {s : State} (h : s.isrPc = .drainTrig) : isrStep s = .next
    ((s.afterIsrRead .uartStat).goto
      (if nextDraw s &&& s.cfg.fifoEmpty = 0 then .ret else .drainTest)) := by
  simp [isrStep, h, isrDrainTrig, busRead_isr_volatile (r := .uartStat) rfl, deviceAnswer, ite_bitSet]

/-- DRAIN_TEST (44_interrupt_handler.md R201). -/
theorem isrStep_drainTest {s : State} (h : s.isrPc = .drainTest) : isrStep s = .next
    ((s.afterIsrRead .uartStat).goto
      (if nextDraw s &&& s.cfg.fifoFull ≠ 0 then .drainEnd
        else if s.tx.rc = s.tx.wc then .drainEnd
        else .drainMove)) := by
  simp only [isrStep, h, isrDrainTest, busRead_isr_volatile (r := .uartStat) rfl, deviceAnswer, bitSet_iff,
    State.txEmpty, Ring.empty_iff]
  rfl

/-- DRAIN_MOVE, at a read cursor below C (44_interrupt_handler.md R202). -/
theorem isrStep_drainMove {s : State} (h : s.isrPc = .drainMove) (hc : s.tx.rc < s.cfg.capacity) :
    isrStep s = .next { s with
      isrPc := .drainTest
      tx := s.tx.popped s.cfg.capacity
      ev := s.ev ++ [.wr .isr .uartTxd (s.boundAddr.get .uartTxd) 8
        (zext32 (s.tx.store.read s.tx.rc))] } := by
  have hpop := popByte_eq (sel := .tx) hc
  simp only [isrStep, h, isrDrainMove, hpop, State.ring_tx, busWrite, truncTo_zext32]
  rfl

/-- DRAIN_END (44_interrupt_handler.md R203, R206). -/
theorem isrStep_drainEnd {s : State} (h : s.isrPc = .drainEnd) : isrStep s = .next
    (if s.tx.rc = s.tx.wc then
      { s with
        isrPc := .ret
        devImask := s.devImask &&& ~~~s.cfg.intTx
        ev := s.ev ++
          [.rd .isr .intMask (s.boundAddr.get .intMask) 8 (zext32 s.devImask),
           .wr .isr .intMask (s.boundAddr.get .intMask) 8 (zext32 (s.devImask &&& ~~~s.cfg.intTx))] }
    else { s with isrPc := .ret }) := by
  simp only [isrStep, h, isrDrainEnd, State.txEmpty, Ring.empty_iff]
  split
  · simp [busAndClr, busRead, State.deviceRead, busWrite, truncTo_zext32, zext32_and_not, State.deviceWrite,
      lowByte_zext32, State.emit, State.goto, Reg.width]
  · rfl

/-- RETURN (44_interrupt_handler.md R207). -/
theorem isrStep_ret {s : State} (h : s.isrPc = .ret) :
    isrStep s = .next { s with isrPc := .idle, ev := s.ev ++ [.ret] } := by
  simp [isrStep, h, isrRet, isrReturn, State.emit]

/-- In DRAIN_MOVE there is a byte to move (44_interrupt_handler.md R202). -/
theorem StateInv.tx_ne_of_drainMove {s : State} (h : StateInv s) (hpc : s.isrPc = .drainMove) :
    s.tx.rc ≠ s.tx.wc := by
  simpa [State.txEmpty, Ring.empty] using h.drainMove hpc

end Sys2Proof.Machine

open Sys2Proof Sys2Proof.Machine

/-- Settles O40: the equations of RX_ACK and TX_ACK. -/
theorem isrAcknowledgesBeforeServing : Obligations.IsrAcknowledgesBeforeServing :=
  fun _ => ⟨isrStep_rxAck, isrStep_txAck⟩

/-- Settles O42: the equations of TX_TEST and DRAIN_TRIG. -/
theorem isrDrainStartsOnEmptyTrigger : Obligations.IsrDrainStartsOnEmptyTrigger :=
  ⟨fun _ => isrStep_txTest, fun _ => isrStep_drainTrig⟩

/-- Settles O43: the equation of DRAIN_TEST. -/
theorem isrDrainTestsFullThenEmpty : Obligations.IsrDrainTestsFullThenEmpty :=
  fun _ => isrStep_drainTest

/-- Settles O45: the equations of DRAIN_END and RETURN. -/
theorem isrEndDisarmsExactlyWhenEmpty : Obligations.IsrEndDisarmsExactlyWhenEmpty :=
  fun _ => ⟨isrStep_drainEnd, isrStep_ret⟩

/-- Settles O41: the equation of FILL_TEST, and under the invariant that of FILL_MOVE. -/
theorem isrFillMovesReceivedBytes : Obligations.IsrFillMovesReceivedBytes := by
  refine ⟨fun _ => isrStep_fillTest, fun s hi hpc => ⟨_, isrStep_fillMove hpc hi.rx.wc, ?_⟩⟩
  obtain ⟨hrc, hother⟩ := s.rx.pushed_frame s.cfg.capacity (lowByte (nextDraw s))
  exact ⟨rfl, hi.rx.read_pushed_wc _, hother, rfl, hrc, rfl, rfl, rfl, rfl, rfl⟩

/-- Settles O44: under the invariant the equation of DRAIN_MOVE, whose POP finds a byte. -/
theorem isrDrainMovesOneByte : Obligations.IsrDrainMovesOneByte := by
  intro s hi hpc
  have hne := hi.tx_ne_of_drainMove hpc
  obtain ⟨hwc, hother⟩ := s.tx.popped_frame s.cfg.capacity
  exact ⟨hne, _, isrStep_drainMove hpc hi.tx.rc, hi.tx.read_popped_rc, hother, if_neg hne, hwc, rfl, rfl, rfl, rfl,
    rfl⟩

/-- Settles O46: ENTRY, TX_TEST and RETURN one after another; the latch has neither bit. -/
theorem spuriousInterruptCostsOneRead : Obligations.SpuriousInterruptCostsOneRead := by
  intro s hpc hnone
  rw [BitVec.and_or_distrib_left] at hnone
  obtain ⟨hrx, htx⟩ := BitVec.or_eq_zero_iff.1 hnone
  simp [isrSteps, isrStep_entry hpc, isrStep_txTest, isrStep_ret, hrx, htx]
end

section
/-! An IRQ, and the hold of the APP while the ISR runs (44_interrupt_handler.md R191, R192). -/

namespace Sys2Proof.Machine

/-- A step under an IRQ delivers it. -/
theorem step_irq {s : State} (ha : s.cfg.accepted = true) (hm : s.nextMove.1 = .irq) :
    step s = .next (irqArrives s.nextMove.2) := by
  rw [step_of_accepted ha, hm]
  rfl

/-- While the ISR runs, a step under the move `run` is the sequencer's. -/
theorem step_run_isr {s : State} (ha : s.cfg.accepted = true) (hpc : s.isrPc ≠ .idle)
    (hm : s.nextMove.1 = .run) : step s = isrStep s.nextMove.2 := by
  rw [step_of_accepted ha, hm]
  exact if_neg (by simpa using hpc)

/-- Under the invariant the sequencer always answers a next state: its cursors are below C. -/
theorem StateInv.isrStep_answers {s : State} (h : StateInv s) : ∃ t, isrStep s = .next t := by
  cases hpc : s.isrPc with
  | fillMove => exact ⟨_, isrStep_fillMove hpc h.rx.wc⟩
  | drainMove => exact ⟨_, isrStep_drainMove hpc h.tx.rc⟩
  | idle => exact ⟨s, by rw [isrStep, hpc]⟩
  | _ => exact ⟨_, by rw [isrStep, hpc]; rfl⟩

/-- The APP is held: its commands, the split command, the responses, RESULT and ERR are as before
(44_interrupt_handler.md R191). -/
structure AppHeld (s t : State) : Prop where
  cmds : t.cmds = s.cmds
  split : t.split = s.split
  responses : responses t.ev = responses s.ev
  result : t.result = s.result
  err : t.err = s.err

theorem AppHeld.trans {s t u : State} (h : AppHeld s t) (h' : AppHeld t u) : AppHeld s u :=
  ⟨h'.cmds.trans h.cmds, h'.split.trans h.split, h'.responses.trans h.responses, h'.result.trans h.result,
    h'.err.trans h.err⟩

theorem appHeld_nextMove (s : State) : AppHeld s s.nextMove.2 := by constructor <;> simp

theorem IsrKept.appHeld {s t : State} (h : IsrKept s t) : AppHeld s t :=
  ⟨h.cmds, h.split, h.responses, h.result, h.err⟩

theorem irqArrives_appHeld (s : State) : AppHeld s (irqArrives s) := by
  rcases irqArrives_cases s with ⟨-, h⟩ | ⟨-, -, h⟩ | ⟨-, h⟩ <;> rw [h] <;>
    exact ⟨rfl, rfl, by simp [responses_append, responses], rfl, rfl⟩

/-- In READY the ISR runs once an IRQ has arrived, and nothing else of what starves the APP changes. -/
theorem irqArrives_ready {s : State} (hl : s.life = .ready) :
    (irqArrives s).life = .ready ∧ (irqArrives s).later = s.later ∧ (irqArrives s).moves = s.moves ∧
      (irqArrives s).isrPc ≠ .idle := by
  rcases irqArrives_cases s with ⟨hu, -⟩ | ⟨-, -, h⟩ | ⟨hn, h⟩
  · simp [hl] at hu
  · rw [h]
    exact ⟨hl, rfl, rfl, nofun⟩
  · rw [h]
    exact ⟨hl, rfl, rfl, hn.resolve_left (by simp [hl])⟩

/-- The cycle begins anew with its IRQ, after which the ISR has the next step (70_reset_and_hazards.md R308). -/
theorem Starved.irq {s : State} (h : Starved s) (ha : s.cfg.accepted = true) (hmoves : s.moves = []) :
    ∃ t, step s = .next t ∧ Starved t ∧ AppHeld s t := by
  have hnext := nextMove_cycle hmoves h.later
  have hsnd : s.nextMove.2.moves = [.run] := by rw [hnext]
  obtain ⟨hl, hlater, hmv, hpc⟩ := irqArrives_ready (s := s.nextMove.2) (by simpa using h.life)
  exact ⟨_, step_irq ha (by rw [hnext]),
    ⟨hl, hlater.trans (by simpa using h.later), .inr ⟨hmv.trans hsnd, hpc⟩⟩,
    (appHeld_nextMove s).trans (irqArrives_appHeld _)⟩

/-- The step the cycle lets the block take is the ISR's. -/
theorem Starved.isr {s : State} (h : Starved s) (hi : StateInv s) (hmoves : s.moves = [.run])
    (hpc : s.isrPc ≠ .idle) : ∃ t, step s = .next t ∧ Starved t ∧ AppHeld s t := by
  have hnext := nextMove_scripted hmoves
  have hsnd : s.nextMove.2.moves = [] := by rw [hnext]
  obtain ⟨t, ht⟩ := hi.nextMove.isrStep_answers
  have kept := (isrStep_next ht).kept
  exact ⟨t, (step_run_isr hi.accepted hpc (by rw [hnext])).trans ht,
    ⟨kept.life.trans (by simpa using h.life), kept.later.trans (by simpa using h.later),
      .inl (kept.moves.trans hsnd)⟩,
    (appHeld_nextMove s).trans kept.appHeld⟩

end Sys2Proof.Machine

open Sys2Proof Sys2Proof.Machine

/-- Settles O8: the step delivers the IRQ, whose outcome LIFE and ISR_PC fix. -/
theorem irqIsAcceptedFaultsOrIsIgnored : Obligations.IrqIsAcceptedFaultsOrIsIgnored := by
  intro s ha hm
  rw [step_irq ha hm]
  cases hl : s.life with
  | uninit => simp [irqArrives, hl, raiseFault, FaultCause.code, State.emit]
  | faulted => simp [irqArrives, hl]
  | ready =>
    by_cases hpc : s.isrPc = .idle
    · simp [irqArrives, hl, hpc, State.emit]
    · simp [irqArrives, hl, hpc]

/-- Settles O7: the sequencer's step holds the APP, and both halves of the cycle do. -/
theorem commandIsHeldWhileIsrRuns : Obligations.CommandIsHeldWhileIsrRuns := by
  refine ⟨fun s t ha hpc hm => ?_, fun s hi hs => ?_⟩
  · have hstep := step_run_isr ha hpc hm
    refine ⟨hstep, fun h => ?_⟩
    obtain ⟨hcmds, hsplit, hresp, hresult, herr⟩ :=
      (appHeld_nextMove s).trans (isrStep_next (hstep.symm.trans h)).kept.appHeld
    exact ⟨hcmds, hsplit, hresp, hresult, herr⟩
  · have held : ∃ t, step s = .next t ∧ Starved t ∧ AppHeld s t := by
      rcases hs.turn with hmoves | ⟨hmoves, hpc⟩
      · exact hs.irq hi.accepted hmoves
      · exact hs.isr hi hmoves hpc
    obtain ⟨t, ht, hstarved, hcmds, hsplit, hresp, hresult, herr⟩ := held
    exact ⟨t, ht, hstarved, hcmds, hsplit, hresp, hresult, herr⟩
end

section
/-! The latch ISR_S and the reads of INT_STAT (44_interrupt_handler.md R193). -/

namespace Sys2Proof.Machine

/-- Outside ENTRY a step of the sequencer keeps the latch, does not lead to ENTRY, and records no read of INT_STAT. -/
structure LatchKept (s t : State) : Prop where
  isrS : t.isrS = s.isrS
  isrPc : t.isrPc ≠ .entry
  ev : ∃ more, t.ev = s.ev ++ more ∧ ∀ ctx a w v, Event.rd ctx .intStat a w v ∉ more

/-- A branch leads to ENTRY only when one of its ends is ENTRY. -/
theorem ite_ne_entry {p : Prop} [Decidable p] {a b : IsrPc} (ha : a ≠ .entry) (hb : b ≠ .entry) :
    (if p then a else b) ≠ .entry := by
  split
  · exact ha
  · exact hb

theorem IsrStepped.latchKept {s t : State} (h : IsrStepped s t) (hpc : s.isrPc ≠ .entry) : LatchKept s t := by
  cases h with
  | entry he => exact absurd he hpc
  | idle => exact ⟨rfl, hpc, [], by simp, by simp⟩
  | rxAck => exact ⟨by simp, nofun, _, busWrite_ev .., by simp⟩
  | fillTest => exact ⟨by simp, ite_ne_entry nofun nofun, _, busRead_ev .isr .uartStat s, by simp⟩
  | fillMove => exact ⟨by simp, nofun, _, busRead_ev .isr .uartRxd s, by simp⟩
  | txTest => exact ⟨rfl, ite_ne_entry nofun nofun, [], by simp, by simp⟩
  | txAck => exact ⟨by simp, nofun, _, busWrite_ev .., by simp⟩
  | drainTrig => exact ⟨by simp, ite_ne_entry nofun nofun, _, busRead_ev .isr .uartStat s, by simp⟩
  | drainTest =>
    exact ⟨by simp, ite_ne_entry nofun (ite_ne_entry nofun nofun), _, busRead_ev .isr .uartStat s, by simp⟩
  | drainMove => exact ⟨by simp, nofun, _, busWrite_ev .., by simp⟩
  | disarm =>
    refine ⟨by simp, nofun, ?more, ?appended, ?unread⟩
    case appended => rw [State.goto_ev, busWrite_ev, busRead_ev, List.append_assoc]
    case unread => simp
  | keepArmed => exact ⟨rfl, nofun, [], by simp, by simp⟩
  | ret => exact ⟨rfl, nofun, _, rfl, by simp⟩

end Sys2Proof.Machine

open Sys2Proof Sys2Proof.Machine

/-- Settles O39: the equations of ENTRY and TX_TEST, and the latch kept by every other step. -/
theorem isrEntryLatchesStatusOnce : Obligations.IsrEntryLatchesStatusOnce := by
  refine ⟨fun s hpc => ⟨_, isrStep_entry hpc, rfl, rfl, rfl, rfl, rfl⟩, fun _ => isrStep_txTest,
    fun s t hpc h => ?_⟩
  obtain ⟨hisrS, hisrPc, hev⟩ := (isrStep_next h).latchKept hpc
  exact ⟨hisrS, hisrPc, hev⟩
end

section
/-! The bytes the drain sends (44_interrupt_handler.md R205, 60_exceptions.md R268). -/

namespace Sys2Proof.Machine

/-- From `s` to `t` the bytes `bs` have been sent: they are the oldest unread bytes of `ring[TX]`, and the others
are unread still. -/
structure Sent (bs : List Byte) (s t : State) : Prop where
  cfg : t.cfg = s.cfg
  transmitted : transmitted t.ev = transmitted s.ev ++ bs
  contents : s.tx.contents s.cfg.capacity = bs ++ t.tx.contents s.cfg.capacity

theorem Sent.refl (s : State) : Sent [] s s := ⟨rfl, by simp, rfl⟩

theorem Sent.trans {bs cs : List Byte} {s t u : State} (h : Sent bs s t) (h' : Sent cs t u) :
    Sent (bs ++ cs) s u where
  cfg := h'.cfg.trans h.cfg
  transmitted := by rw [h'.transmitted, h.transmitted, List.append_assoc]
  contents := by rw [h.contents, ← h.cfg, h'.contents, List.append_assoc]

/-- A step of the sequencer sends a byte in DRAIN_MOVE alone, the oldest unread. -/
theorem IsrStepped.sent {s t : State} (h : IsrStepped s t) (hi : StateInv s) : ∃ bs, Sent bs s t := by
  have hcfg := h.kept.cfg
  cases h with
  | drainMove hpc =>
    refine ⟨[s.tx.store.read s.tx.rc], hcfg, ?_, ?_⟩
    · simp [busWrite_ev, transmitted_append, transmitted, truncTo_zext32, lowByte_zext32]
    · simpa using hi.tx.contents_popped (hi.tx_ne_of_drainMove hpc)
  | _ =>
    exact ⟨[], hcfg, by simp [busRead_ev, busWrite_ev, transmitted_append, transmitted], by simp⟩

/-- A step of the sequencer keeps the invariant. -/
theorem IsrStepped.stateInv {s t : State} (h : IsrStepped s t) (hi : StateInv s) : StateInv t :=
  (stateInv_iff t).2 ⟨h.blockInv hi.block, h.sequencerOk hi⟩

/-- The first of several steps of the sequencer, and the others. -/
theorem isrSteps_succ_next {n : Nat} {s t : State} (h : isrSteps (n + 1) s = .next t) :
    ∃ u, isrStep s = .next u ∧ isrSteps n u = .next t := by
  simp only [isrSteps] at h
  split at h
  · exact ⟨_, ‹_›, h⟩
  · cases h
  · cases h

/-- Any number of steps of the sequencer send some of the unread bytes, oldest first. -/
theorem isrSteps_sent {n : Nat} {s t : State} (hi : StateInv s) (h : isrSteps n s = .next t) :
    ∃ bs, Sent bs s t := by
  induction n generalizing s with
  | zero =>
    cases h
    exact ⟨[], .refl _⟩
  | succ n ih =>
    obtain ⟨u, hu, ht⟩ := isrSteps_succ_next h
    have hs := isrStep_next hu
    obtain ⟨bs, hbs⟩ := hs.sent hi
    obtain ⟨cs, hcs⟩ := ih (hs.stateInv hi) ht
    exact ⟨bs ++ cs, hbs.trans hcs⟩

end Sys2Proof.Machine

open Sys2Proof Sys2Proof.Machine

/-- Settles O49: the number of the bytes sent is the k asked for. -/
theorem drainTransmitsOldestBytesInOrder : Obligations.DrainTransmitsOldestBytesInOrder := by
  intro n s t hi h
  obtain ⟨bs, -, hsent, hcontents⟩ := isrSteps_sent hi h
  have hlen := s.tx.contents_length s.cfg.capacity
  rw [hcontents, List.length_append] at hlen
  refine ⟨bs.length, by omega, ?_, ?_⟩
  · rw [hcontents, List.take_left, hsent]
  · rw [hcontents, List.drop_left]
end

section
/-! INIT, in each LIFE and whatever it answers (45_init.md). -/

namespace Sys2Proof.Machine

theorem cmdWord_init : cmdWord .init = 0x10000000 := by decide

/-- In UNINIT INIT is performed and answers 0 (45_init.md R230). -/
theorem exec_init_uninit {s : State} (h : s.life = .uninit) : exec .init s = .next (answer 0 (initialise s)) := by
  have hc : commandCheck .init s = none := by rw [commandCheck_uninit h, if_pos rfl]
  rw [exec, execInit, onCommand_perform (by simp [h]) hc]

/-- In READY INIT faults with REINIT (45_init.md R231, 60_exceptions.md R254). -/
theorem exec_init_ready {s : State} (h : s.life = .ready) :
    exec .init s = .next (afterFault .reinit 5 0x10000000 s) := by
  have hc : commandCheck .init s = some .reinit := by simp [commandCheck, h]
  rw [exec, execInit, onCommand_check (by simp [h]) hc, commandFault_eq_afterFault, cmdWord_init]
  rfl

/-- What INIT leaves: both stores, the device registers, the sequencer, a split command, the configuration and what
the environment has still to send; and it records no bus access (45_init.md R232). -/
structure InitKept (s t : State) : Prop where
  store (sel : Sel) : (t.ring sel).store = (s.ring sel).store
  devCtrl : t.devCtrl = s.devCtrl
  devImask : t.devImask = s.devImask
  isrPc : t.isrPc = s.isrPc
  isrS : t.isrS = s.isrS
  split : t.split = s.split
  cfg : t.cfg = s.cfg
  cmds : t.cmds = s.cmds
  moves : t.moves = s.moves
  later : t.later = s.later
  moveCount : t.moveCount = s.moveCount
  draws : t.draws = s.draws
  drawCount : t.drawCount = s.drawCount
  reads (ctx : Ctx) (r : Reg) (a w : Nat) (v : Word) : .rd ctx r a w v ∈ t.ev → .rd ctx r a w v ∈ s.ev
  writes (ctx : Ctx) (r : Reg) (a w : Nat) (v : Word) : .wr ctx r a w v ∈ t.ev → .wr ctx r a w v ∈ s.ev

theorem initKept_answer_initialise (v : Word) (s : State) : InitKept s (answer v (initialise s)) := by
  constructor
  case store => intro sel; cases sel <;> rfl
  case reads => simp
  case writes => simp
  all_goals rfl

theorem initKept_afterFault (c : FaultCause) (code : Byte) (w : Word) (s : State) :
    InitKept s (afterFault c code w s) := by
  constructor
  case store => intro sel; cases sel <;> rfl
  case reads => simp [afterFault]
  case writes => simp [afterFault]
  all_goals rfl

theorem initKept_answerError (s : State) : InitKept s (answerError s) := by
  constructor
  case store => intro sel; rw [answerError_ring]
  case reads => simp
  case writes => simp
  all_goals rfl

/-- INIT has its frame in every LIFE. -/
theorem exec_initKept {s t : State} (h : exec .init s = .next t) : InitKept s t := by
  cases hl : s.life with
  | uninit =>
    obtain rfl := Host.Outcome.next.inj ((exec_init_uninit hl).symm.trans h)
    exact initKept_answer_initialise 0 s
  | ready =>
    obtain rfl := Host.Outcome.next.inj ((exec_init_ready hl).symm.trans h)
    exact initKept_afterFault _ _ _ s
  | faulted =>
    obtain rfl := Host.Outcome.next.inj ((exec_faulted hl .init).symm.trans h)
    exact initKept_answerError s

end Sys2Proof.Machine

open Sys2Proof Sys2Proof.Machine

/-- Settles O13: INIT's own word, and its equation in each LIFE. -/
theorem initBindsAndResetsCursors : Obligations.InitBindsAndResetsCursors := by
  refine ⟨fun c o => ?_, fun s => ?_⟩
  · rw [decode_eq_ok_iff_eq_cmdWord rfl, cmdWord_init]
  · cases hl : s.life with
    | uninit => exact exec_init_uninit hl
    | ready => exact exec_init_ready hl
    | faulted => simp [exec_faulted hl, answerError, respond, State.emit, hl]

/-- Settles O16: the frame of the answer, of the REINIT fault and of ERR = 1. -/
theorem initFrame : Obligations.InitFrame := by
  intro s t h
  have f := exec_initKept h
  exact ⟨fun sel a => by rw [f.store sel], f.devCtrl, f.devImask, f.isrPc, f.isrS, f.split, f.cfg, f.cmds,
    f.moves, f.later, f.moveCount, f.draws, f.drawCount, f.reads, f.writes⟩
end

section
/-! The faults a command takes before it has any effect, and those of an IRQ (60_exceptions.md R252, R254, R258). -/

namespace Sys2Proof.Machine

/-- A command whose check fails takes that fault with its own word and does nothing else (60_exceptions.md R255). -/
theorem exec_check {i : Instr} {s : State} {c : FaultCause} (hl : s.life ≠ .faulted)
    (hc : commandCheck i s = some c) : exec i s = .next (afterFault c c.code (cmdWord i) s) := by
  rw [← commandFault_eq_afterFault]
  unfold exec
  split <;> exact onCommand_check hl hc

/-- With STRICT_SPSC the wrong role fails its check in READY (60_exceptions.md R258). -/
theorem commandCheck_wrongRole {i : Instr} {s : State} (hl : s.life = .ready) (hs : s.cfg.strictSpsc = true)
    (hw : wrongRole i = true) : commandCheck i s = some .spscViolation := by
  have hi : i ≠ .init := by
    rintro rfl
    cases hw
  simp [commandCheck, hl, hi, hs, hw]

/-- In READY a command but INIT, in a role the SPSC check never faults, leaves the block READY. -/
theorem exec_keeps_ready {i : Instr} {s t : State} (h : exec i s = .next t) (hl : s.life = .ready)
    (hi : i ≠ .init) (hr : wrongRole i = false) : t.life = .ready := by
  rcases exec_next_of_role hi hr h with ⟨hf, -⟩ | ⟨hu, -⟩ | ⟨-, hp⟩
  · simp [hl] at hf
  · simp [hl] at hu
  · exact (hp.life hi).trans hl

theorem irqArrives_uninit {s : State} (hl : s.life = .uninit) :
    irqArrives s = raiseFault .irqNotInit 0 s := by
  simp [irqArrives, hl]

theorem irqArrives_faulted {s : State} (hl : s.life = .faulted) : irqArrives s = s := by
  simp [irqArrives, hl]

theorem acceptCommand_keeps_faulted {c o : Word} {s t : State} (hl : s.life = .faulted)
    (h : acceptCommand c o s = .next t) : t.life = .faulted := by
  obtain rfl := Host.Outcome.next.inj ((acceptCommand_faulted hl c o).symm.trans h)
  exact hl

end Sys2Proof.Machine

open Sys2Proof Sys2Proof.Machine

/-- Settles O14: the fault of the second INIT writes neither buffer nor BOUND_ADDR, and in FAULTED no command and no
IRQ moves LIFE. -/
theorem secondInitFaultsWithReinit : Obligations.SecondInitFaultsWithReinit := by
  intro s hl
  exact ⟨_, exec_init_ready hl, rfl, rfl, rfl, rfl, rfl, rfl, rfl,
    fun _ _ _ h => acceptCommand_keeps_faulted rfl h, irqArrives_faulted rfl⟩

/-- Settles O34: the check of every command but INIT fails with NOT_INIT, and an IRQ raises IRQ_NOT_INIT. -/
theorem useBeforeInitFaults : Obligations.UseBeforeInitFaults := by
  refine ⟨fun s i hl hi => ?_, fun s hl => irqArrives_uninit hl⟩
  have hc : commandCheck i s = some .notInit := by rw [commandCheck_uninit hl, if_neg hi]
  exact exec_check (by simp [hl]) hc

/-- Settles O35: the two wrong roles fail their check, the other two pass and keep LIFE. -/
theorem wrongRoleFaultsWhenStrict : Obligations.WrongRoleFaultsWhenStrict := by
  intro s b hl hs
  have hf : s.life ≠ .faulted := by simp [hl]
  exact ⟨exec_check hf (commandCheck_wrongRole hl hs rfl), exec_check hf (commandCheck_wrongRole hl hs rfl),
    fun _ h => exec_keeps_ready h hl nofun rfl, fun _ h => exec_keeps_ready h hl nofun rfl⟩
end

section
/-! The storage registers answer a read with what was written (60_exceptions.md R263). -/

namespace Sys2Proof.Machine

/-- A storage register written answers the value sent, at its width. -/
theorem deviceAnswer_busWrite {r : Reg} (hr : isVolatile r = false) (ctx : Ctx) (v : Word) (s : State) :
    deviceAnswer (busWrite ctx r v s) r = truncTo r v := by
  cases r with
  | uartCtrl => rfl
  | intMask => simp [deviceAnswer, busWrite_devImask, truncTo, Reg.width, lowByte, zext32]
  | _ => cases hr

end Sys2Proof.Machine

open Sys2Proof Sys2Proof.Machine

/-- Settles O33: the RREAD answers what the device holds after the RWRITE. -/
theorem storageRegisterReadsBackLastWrite : Obligations.StorageRegisterReadsBackLastWrite := by
  intro s r v hl hr
  have hstorage : isVolatile r = false := by rcases hr with rfl | rfl <;> rfl
  have hwrite := exec_rwrite_ready hl r v
  have hread := exec_rread_ready (s := answer 0 (busWrite .app r v s)) (by simpa using hl) r
  refine ⟨_, (execAll_cons hwrite).trans (execAll_cons hread), ?_⟩
  calc (deviceAnswer (answer 0 (busWrite .app r v s)) r).toNat
    _ = (deviceAnswer (busWrite .app r v s) r).toNat := rfl
    _ = v.toNat % 2 ^ r.width := by rw [deviceAnswer_busWrite hstorage, truncTo_toNat]
end

section
/-! Progress: under the invariant every cursor and every slot a split command has taken is below C, so no ring access
stops the machine (60_exceptions.md R260, 70_reset_and_hazards.md R313). -/

namespace Sys2Proof.Machine

/-- A command answers when performing it does. -/
theorem onCommand_answers {i : Instr} {s : State} {f : State → Result} (hf : ∃ t, f s = .next t) :
    ∃ t, onCommand i s f = .next t := by
  rcases onCommand_cases (i := i) (s := s) (f := f) with ⟨-, h⟩ | ⟨-, c, -, h⟩ | ⟨-, -, h⟩
  · exact ⟨_, h⟩
  · exact ⟨_, h⟩
  · rwa [h]

/-- With its buffers well formed a state answers every command. -/
theorem exec_answers {s : State} (hr : ∀ sel, RingOk s.cfg.capacity (s.ring sel)) (i : Instr) :
    ∃ t, exec i s = .next t := by
  cases i with
  | init => unfold exec execInit; exact onCommand_answers ⟨_, rfl⟩
  | push sel b =>
    unfold exec execPush
    refine onCommand_answers ?_
    split
    · simp [pushAtomic, pushByte_eq b (hr sel).wc]
    · simp [pushP1, ringWrite_eq b (hr sel).wc]
  | pop sel =>
    unfold exec execPop
    refine onCommand_answers ?_
    split
    · simp [popAtomic, popByte_eq (hr sel).rc]
    · simp [popQ1, ringRead_eq (hr sel).rc]
  | rread r => unfold exec execRread; exact onCommand_answers ⟨_, rfl⟩
  | rwrite r v => unfold exec execRwrite; exact onCommand_answers ⟨_, rfl⟩
  | ror r m => unfold exec execRor; exact onCommand_answers ⟨_, rfl⟩
  | randc r m => unfold exec execRandc; exact onCommand_answers ⟨_, rfl⟩

/-- With its buffers well formed a state answers every pair of words. -/
theorem acceptCommand_answers {s : State} (hr : ∀ sel, RingOk s.cfg.capacity (s.ring sel)) (c o : Word) :
    ∃ t, acceptCommand c o s = .next t := by
  by_cases hl : s.life = .faulted
  · exact ⟨_, acceptCommand_faulted hl c o⟩
  · cases hd : decode c o with
    | error why => exact ⟨_, acceptCommand_illegal hd hl⟩
    | ok i =>
      rw [acceptCommand_legal hd]
      exact exec_answers (by simpa using hr) i

/-- The slot the split command has taken exists, so its next step answers. -/
theorem StateInv.resume_answers {s : State} {p : Split} (h : StateInv s) (hp : s.split = some p) :
    ∃ t, resume p s = .next t := by
  obtain ⟨-, -, hslot⟩ := h.split p hp
  cases p with
  | p2 sel i => exact ⟨_, resume_p2 sel i s⟩
  | q2 sel i v => exact ⟨_, resume_q2 sel i v s⟩
  | q3 sel i v e => exact ⟨_, resume_q3 hslot sel v e⟩
  | q4 sel i v e => exact ⟨_, resume_q4 sel i v e s⟩

theorem StateInv.appStep_answers {s : State} (h : StateInv s) : ∃ t, appStep s = .next t := by
  cases hp : s.split with
  | some p =>
    rw [appStep_split hp]
    exact h.resume_answers hp
  | none =>
    cases hc : s.cmds with
    | nil => exact ⟨s, by simp [appStep, hp, hc]⟩
    | cons words rest =>
      obtain ⟨c, o⟩ := words
      rw [appStep_command hp hc]
      exact acceptCommand_answers (s := { s with cmds := rest }) (fun sel => h.ring sel) c o

end Sys2Proof.Machine

open Sys2Proof Sys2Proof.Machine

/-- Settles O56: an IRQ and a reset always answer, and the block's own step does by the invariant, which a move taken
keeps. -/
theorem invariantStatesAlwaysStep : Obligations.InvariantStatesAlwaysStep := by
  intro s h
  cases hm : s.nextMove.1 with
  | reset => exact ⟨_, step_reset h.accepted hm⟩
  | irq => exact ⟨_, step_irq h.accepted hm⟩
  | run =>
    by_cases hpc : s.isrPc = .idle
    · rw [step_run_idle h.accepted hpc hm]
      exact h.nextMove.appStep_answers
    · rw [step_run_isr h.accepted hpc hm]
      exact h.nextMove.isrStep_answers
end

section
/-! Quiescence: what a block with nothing in flight, or a FAULTED one, can still do (70_reset_and_hazards.md R311,
R312). -/

namespace Sys2Proof.Machine

/-- The APP agent with no command split and none presented does nothing. -/
theorem appStep_nothing {s : State} (hp : s.split = none) (hc : s.cmds = []) : appStep s = .next s := by
  simp [appStep, hp, hc]

/-- With nothing in flight the block's own step only takes the move off the schedule. -/
theorem NothingInFlight.step_run {s : State} (h : NothingInFlight s) (ha : s.cfg.accepted = true)
    (hm : s.nextMove.1 = .run) : step s = .next s.nextMove.2 := by
  rw [step_run_idle ha h.isrPc hm, appStep_nothing (by simpa using h.split) (by simpa using h.cmds)]

/-- The host does not read the schedule (70_reset_and_hazards.md R312). -/
theorem hostView_nextMove (s : State) : s.nextMove.2.hostView = s.hostView := by
  simp [State.hostView]

/-- The only outcome of an IRQ in READY with the ISR idle is its acceptance (44_interrupt_handler.md R192). -/
theorem irqArrives_ready_idle {s : State} (hl : s.life = .ready) (hpc : s.isrPc = .idle) :
    irqArrives s = { s with isrPc := .entry }.emit .irq := by
  simp [irqArrives, hl, hpc]

/-- In FAULTED no ISR runs and no command is split, so nothing is in flight once no command is presented. -/
theorem StateInv.nothingInFlight_of_faulted {s : State} (h : StateInv s) (hl : s.life = .faulted)
    (hc : s.cmds = []) : NothingInFlight s :=
  have hn : s.life ≠ .ready := by simp [hl]
  ⟨hc, h.isrPc_idle hn, h.split_none_of_not_ready hn⟩

/-- A FAULTED block records the words presented and answers ERR = 1 (60_exceptions.md R251). -/
theorem StateInv.step_command_faulted {s : State} {c o : Word} {rest : List (Word × Word)} (h : StateInv s)
    (hl : s.life = .faulted) (hm : s.nextMove.1 = .run) (hc : s.cmds = (c, o) :: rest) :
    step s = .next (answerError ({ s.nextMove.2 with cmds := rest }.emit (.cmd c o))) := by
  have hn : s.life ≠ .ready := by simp [hl]
  rw [step_command h.accepted (h.isrPc_idle hn) (h.split_none_of_not_ready hn) hm hc,
    acceptCommand_faulted (by simpa using hl)]

theorem not_endedSuccessfully_of_faulted {s : State} (hl : s.life = .faulted) : ¬ EndedSuccessfully s :=
  fun ⟨hf, _⟩ => hf hl

/-- Both buffers and both device registers are as before. -/
structure DataKept (s t : State) : Prop where
  tx : t.tx = s.tx
  rx : t.rx = s.rx
  devCtrl : t.devCtrl = s.devCtrl
  devImask : t.devImask = s.devImask

theorem DataKept.trans {s t u : State} (h : DataKept s t) (h' : DataKept t u) : DataKept s u :=
  ⟨h'.tx.trans h.tx, h'.rx.trans h.rx, h'.devCtrl.trans h.devCtrl, h'.devImask.trans h.devImask⟩

theorem dataKept_nextMove (s : State) : DataKept s s.nextMove.2 := by constructor <;> simp

theorem irqArrives_dataKept (s : State) : DataKept s (irqArrives s) := by
  rcases irqArrives_cases s with ⟨-, h⟩ | ⟨-, -, h⟩ | ⟨-, h⟩ <;> rw [h] <;> exact ⟨rfl, rfl, rfl, rfl⟩

/-- No step of a quiescent block but a reset touches a buffer or a device register. -/
theorem Quiescent.step_dataKept {s t : State} (hq : Quiescent s) (hi : StateInv s) (hm : s.nextMove.1 ≠ .reset)
    (h : step s = .next t) : DataKept s t := by
  have moved := dataKept_nextMove s
  rcases hq with hn | hl
  · cases hmove : s.nextMove.1 with
    | reset => exact absurd hmove hm
    | irq =>
      obtain rfl := Host.Outcome.next.inj ((step_irq hi.accepted hmove).symm.trans h)
      exact moved.trans (irqArrives_dataKept _)
    | run =>
      obtain rfl := Host.Outcome.next.inj ((hn.step_run hi.accepted hmove).symm.trans h)
      exact moved
  · rcases step_faulted hi hl h hm with rfl | ⟨c, o, rest, rfl⟩
    · exact moved
    · exact moved.trans ⟨rfl, rfl, rfl, rfl⟩

/-- In READY quiescence is that nothing is in flight. -/
theorem Quiescent.nothingInFlight {s : State} (hq : Quiescent s) (hl : s.life = .ready) : NothingInFlight s :=
  hq.resolve_right (by simp [hl])

end Sys2Proof.Machine

open Sys2Proof Sys2Proof.Machine

/-- Settles O12: with nothing in flight the APP agent has nothing to do, in FAULTED the port only answers ERR = 1, and
an IRQ that is accepted only starts the ISR. -/
theorem quiescentBlockStays : Obligations.QuiescentBlockStays := by
  refine ⟨fun s ha hn hm => ⟨hn.step_run ha hm, hostView_nextMove s⟩, fun s hi hl => ?_,
    fun s t hi hq hm h => ?_⟩
  · refine ⟨.inr hl, not_endedSuccessfully_of_faulted hl, fun hm => ?_, fun hm hc => ?_,
      fun c o rest hm hc => ?_⟩
    · rw [step_irq hi.accepted hm, irqArrives_faulted (by simpa using hl)]
    · exact (hi.nothingInFlight_of_faulted hl hc).step_run hi.accepted hm
    · rw [hi.step_command_faulted hl hm hc]
      simp [answerError, respond, State.emit]
  · have kept := hq.step_dataKept hi hm h
    refine ⟨kept.tx, kept.rx, kept.devCtrl, kept.devImask, fun hl hmove => ?_, fun hl hmove => ?_⟩
    · have hn := hq.nothingInFlight hl
      obtain rfl := Host.Outcome.next.inj ((hn.step_run hi.accepted hmove).symm.trans h)
      simpa using hn.isrPc
    · have hpc := (hq.nothingInFlight hl).isrPc
      obtain rfl := Host.Outcome.next.inj ((step_irq hi.accepted hmove).symm.trans h)
      simp [irqArrives_ready_idle (s := s.nextMove.2) (by simpa using hl) (by simpa using hpc)]
end

section
/-! INIT from CleanLaunch (70_reset_and_hazards.md R291, R293). -/

namespace Sys2Proof.Machine

/-- What INIT answers from CleanLaunch is READY with both buffers empty, and keeps the rest of the launch. -/
theorem CleanLaunch.readyEmpty_init {s : State} (h : CleanLaunch s) (v : Word) :
    ReadyEmpty (answer v (initialise s)) where
  life := rfl
  faultCause := h.faultCause
  isrPc := h.isrPc
  txRc := rfl
  txWc := rfl
  rxRc := rfl
  rxWc := rfl
  split := h.split

theorem ReadyEmpty.noFault {s : State} (h : ReadyEmpty s) : NoFault s := by
  simp [NoFault, h.life]

end Sys2Proof.Machine

open Sys2Proof Sys2Proof.Machine

/-- Settles O15: CleanLaunch is UNINIT, where INIT is performed, and its frame keeps the storages and the device
registers. -/
theorem initLeadsFromCleanLaunchToReadyEmpty : Obligations.InitLeadsFromCleanLaunchToReadyEmpty := by
  intro s h
  have ready := h.readyEmpty_init 0
  have kept := initKept_answer_initialise 0 s
  exact ⟨_, exec_init_uninit h.life, ready, ready.noFault, kept.store .tx, kept.store .rx, kept.devCtrl,
    kept.devImask, rfl, rfl, rfl⟩
end
